-- ==== Sys2Proof/Word.lean ====
section
/-! DEFINITION. The word types of MSDENC and nothing else: characters and array elements are 8-bit codes
(00_scope.md R11, 10_state.md R30), a command word has 32 bits (30_encoding.md R76), and the widest register,
MASK, has 64 (10_state.md R21). -/

namespace Sys2Proof

/-- An array element or a character code: 8 bits (R11, R30). -/
abbrev Byte := BitVec 8

/-- A command word: 32 bits (R70, R76). -/
abbrev CmdWord := BitVec 32

/-- What a host read can return: the width of the widest register (R21). -/
abbrev HostWord := BitVec 64

end Sys2Proof
end

