-- ==== Sys2Proof/Config.lean ====
section
/-! DEFINITION. What is fixed for the life of a model of MSDENC (00_scope.md, the table of section 4, and R7): the
constants of the source, the parameters a model takes as an argument, their defaults where the spec gives
one, and the free values. -/

namespace Sys2Proof

/-- `P_WRITE_MODE` (20_memory.md R53): what a bit write does to the bit already in BUF. -/
inductive WriteMode where
  /-- The bit becomes the bit written. -/
  | overwrite
  /-- The bit becomes the old bit OR the bit written. -/
  | or
deriving DecidableEq, Repr, Inhabited

/-- The parameters of R7. `busBase` is `P_BASE`: R61 leaves its use to the platform, so no rule reads it (log 8). -/
structure Config where
  /-- `P_WRITE_MODE`, R53. -/
  writeMode : WriteMode
  /-- `P_BASE`, R61. -/
  busBase : Nat
  /-- `P_ALNUM_TABLE`, R120. -/
  alnumTable : List Byte
  /-- `P_VT_MAX`, R123. -/
  vtMax : Nat
  /-- `P_DIAG_PRES_BIT`, R190. -/
  diagPresBit : List Nat
  /-- `P_DIAG_VAL_BIT`, R190. -/
  diagValBit : List Nat
  /-- `P_CRASH_PRES_BIT`, R190. -/
  crashPresBit : List Nat
  /-- `P_CRASH_VAL_BIT`, R190. -/
  crashValBit : List Nat
deriving DecidableEq, Repr

/-! Sizes and bounds that the spec fixes (00_scope.md section 4). -/

/-- `BUF_BYTES`, R50. -/
abbrev bufBytes : Nat := 140
/-- `MAX_BITS`, R50, R156. -/
abbrev maxBits : Nat := 1120
/-- `VIN_LEN`, R31. -/
abbrev vinLen : Nat := 17
/-- `SRC_BYTES`, R30. -/
abbrev srcBytes : Nat := 4
/-- `OID_CAP`, R30. -/
abbrev oidCap : Nat := 255
/-- `DATA_CAP`, R30. -/
abbrev dataCap : Nat := 255
/-- `PROP_FLAGS`, R27. -/
abbrev propFlags : Nat := 6
/-- `DIAG_FLAGS`, R28. -/
abbrev diagFlags : Nat := 21
/-- `CRASH_FLAGS`, R28. -/
abbrev crashFlags : Nat := 6
/-- The bits of the diagnostic mask, R190. -/
abbrev diagMaskBits : Nat := 64
/-- The bits of the crash mask, R190. -/
abbrev crashMaskBits : Nat := 16
/-- `ALNUM_ENTRIES`, R120. -/
abbrev alnumEntries : Nat := 33
/-- `ERA_DATA_BYTES`, R183. -/
abbrev eraDataBytes : Nat := 5
/-- The largest value of the 16-bit stream offset (`OFFSET_WIDTH`), R102. -/
abbrev offsetMax : Nat := 0xFFFF

namespace Config

/-- The default `P_ALNUM_TABLE`, code by code from the table of R120: the digits, then A to Z but for I, O, Q. -/
def defaultAlnumTable : List Byte :=
  [0x30, 0x31, 0x32, 0x33, 0x34, 0x35, 0x36, 0x37, 0x38, 0x39,
   0x41, 0x42, 0x43, 0x44, 0x45, 0x46, 0x47, 0x48,
   0x4A, 0x4B, 0x4C, 0x4D, 0x4E, 0x50, 0x52,
   0x53, 0x54, 0x55, 0x56, 0x57, 0x58, 0x59, 0x5A]

/-- The default `P_VT_MAX`, R123. -/
def defaultVtMax : Nat := 13

/-- The default presence positions of `n` flags, R190: flag k at mask bit 2k. -/
def defaultPresBit (n : Nat) : List Nat := (List.range n).map (fun k => 2 * k)

/-- The default value positions of `n` flags, R190: flag k at mask bit 2k + 1. -/
def defaultValBit (n : Nat) : List Nat := (List.range n).map (fun k => 2 * k + 1)

/-- The conditions R190 puts on the positions of one mask of `bits` bits: as many presence and as many value positions as
flags, each inside the mask, all distinct (presence and value positions together, log 11). -/
def maskTableOk (bits flags : Nat) (pres val : List Nat) : Bool :=
  decide (pres.length = flags) && decide (val.length = flags)
  && (pres ++ val).all (fun k => decide (k < bits)) && decide (pres ++ val).Nodup

/-- The presence and the value positions that the platform gives a mask: any that meet the conditions of R190. Positions that
do not are no parameter of MSDENC, and the defaults stand in for them (log 7). -/
def openTable (bits flags : Nat) (free : List Nat × List Nat) : List Nat × List Nat :=
  if maskTableOk bits flags free.1 free.2 then free else (defaultPresBit flags, defaultValBit flags)

/-- FREE: the platform's `P_WRITE_MODE`, OPEN in D10. Nothing in Lean can evaluate it (log 6). -/
opaque platformWriteMode : WriteMode

/-- FREE: the platform's `P_BASE`, OPEN in D3 (log 6, log 8). -/
opaque platformBusBase : Nat

/-- FREE: the platform's `P_DIAG_PRES_BIT` and `P_DIAG_VAL_BIT`, OPEN in D25 (log 7). -/
opaque platformDiagTable : List Nat × List Nat

/-- FREE: the platform's `P_CRASH_PRES_BIT` and `P_CRASH_VAL_BIT`, OPEN in D25 (log 7). -/
opaque platformCrashTable : List Nat × List Nat

/-- FREE: byte `i` of the `n`-th draw of BUF's whole content (R203, R230; log 4). -/
opaque bufDraw (n i : Nat) : Byte

/-- FREE: the `n`-th draw that a host read of unwritten state returns (R33; log 5). -/
opaque hostDraw (n : Nat) : HostWord

/-- The parameters of the block as a platform delivers it: the OPEN ones free (the write mode, the base and the four
mask-position tables), the two that R7 lets a model adopt at their defaults (R7, R120, R123, R190; log 6, log 7). -/
def platform : Config where
  writeMode := platformWriteMode
  busBase := platformBusBase
  alnumTable := defaultAlnumTable
  vtMax := defaultVtMax
  diagPresBit := (openTable diagMaskBits diagFlags platformDiagTable).1
  diagValBit := (openTable diagMaskBits diagFlags platformDiagTable).2
  crashPresBit := (openTable crashMaskBits crashFlags platformCrashTable).1
  crashValBit := (openTable crashMaskBits crashFlags platformCrashTable).2

/-- The conditions the spec puts on the parameters: 33 distinct table entries (R120), `1 <= P_VT_MAX <= 16` (R123), and the
positions of each mask as R190 asks. -/
def valid (c : Config) : Bool :=
  decide (c.alnumTable.length = alnumEntries) && decide c.alnumTable.Nodup
  && decide (1 ≤ c.vtMax) && decide (c.vtMax ≤ 16)
  && maskTableOk diagMaskBits diagFlags c.diagPresBit c.diagValBit
  && maskTableOk crashMaskBits crashFlags c.crashPresBit c.crashValBit

end Config

end Sys2Proof
end

