-- ==== Sys2Proof/Syntax.lean ====
section
/-! DEFINITION. The commands of MSDENC-1 (30_encoding.md R72), one constructor per row of the opcode table. An operand
is the number or the character its field of the command word stands for (R71). -/

namespace Sys2Proof

/-- The seven commands of R72. -/
inductive Instr where
  /-- ENCBITS: append `len` bits taken from SRC at stream offset `off` (R100). -/
  | encbits (len off : Nat)
  /-- ENCWIDE: append the low `len` bits of WIDE at stream offset `off` (R104). -/
  | encwide (len off : Nat)
  /-- ALNUM: look the character `c` up in the VIN table (R121). -/
  | alnum (c : Byte)
  /-- ENCMSD: encode the message (R150). -/
  | encmsd
  /-- ENCERA: encode the ERA-GLONASS optional data (R180). -/
  | encera
  /-- MAPDIAG: spread the diagnostic mask (R191). -/
  | mapdiag
  /-- MAPCRASH: spread the crash mask (R193). -/
  | mapcrash
deriving DecidableEq, Repr

end Sys2Proof
end

