-- ==== Sys2Proof/WellFormed.lean ====
section
/-! DEFINITION. Which terms of `Instr` a command word can hold: an operand fits its field (30_encoding.md R70: A has 8
bits, B has 16). A length the command itself refuses (R102, R105) is well formed: the word exists and the
command answers it with an outcome. -/

namespace Sys2Proof

/-- A length fits field A. -/
def lenFits (len : Nat) : Bool := decide (len < 2 ^ 8)

/-- An offset fits field B. -/
def offFits (off : Nat) : Bool := decide (off < 2 ^ 16)

/-- The operands of the command fit their fields. -/
def Instr.wf : Instr → Bool
  | .encbits len off => lenFits len && offFits off
  | .encwide len off => lenFits len && offFits off
  | .alnum _ => true
  | .encmsd => true
  | .encera => true
  | .mapdiag => true
  | .mapcrash => true

end Sys2Proof
end

