-- ==== Sys2Proof/Decode.lean ====
section
/-! DEFINITION. The decoder of a command word, total on every 32-bit word, and after it the encoder. The order of the
checks is that of 30_encoding.md R75: the opcode (R73), then the reserved fields (R74). -/

namespace Sys2Proof

/-- Why a word is no command. -/
inductive DecodeError where
  /-- OP is none of the seven opcodes (R73). -/
  | badOpcode
  /-- A field that must be 0 is not (R74). -/
  | reservedBits
deriving DecidableEq, Repr

/-- OP = w[7:0] (R71). -/
def opField (w : CmdWord) : Nat := (w.extractLsb' 0 8).toNat

/-- A = uint_8(w[15:8]) (R71). -/
def aField (w : CmdWord) : Nat := (w.extractLsb' 8 8).toNat

/-- B = uint_16(w[31:16]) (R71). -/
def bField (w : CmdWord) : Nat := (w.extractLsb' 16 16).toNat

/-- A command without operands: A and B must be 0 (R74). -/
def decodePlain (i : Instr) (w : CmdWord) : Except DecodeError Instr :=
  if aField w = 0 ∧ bField w = 0 then .ok i else .error .reservedBits

/-- The command a word stands for (R72), or why it stands for none (R73, R74). -/
def decode (w : CmdWord) : Except DecodeError Instr :=
  match opField w with
  | 0x01 => .ok (.encbits (aField w) (bField w))
  | 0x02 => .ok (.encwide (aField w) (bField w))
  | 0x03 => if bField w = 0 then .ok (.alnum (BitVec.ofNat 8 (aField w))) else .error .reservedBits
  | 0x10 => decodePlain .encmsd w
  | 0x11 => decodePlain .encera w
  | 0x20 => decodePlain .mapdiag w
  | 0x21 => decodePlain .mapcrash w
  | _ => .error .badOpcode

/-- The decoder on the words of the opcode table: `w` holds `nbits` bits, the bits above them are 0, and a command word
has 32 (R76), so a longer row is no command. -/
def decodeTableWord (nbits w : Nat) : Option Instr :=
  if 32 < nbits then none
  else
    match decode (BitVec.ofNat 32 (w % 2 ^ nbits)) with
    | .ok i => some i
    | .error _ => none

/-- The word with the given fields: OP in bits 7:0, A in bits 15:8, B in bits 31:16 (R70); each value is taken modulo the
width of its field. -/
def cmdWord (op a b : Nat) : CmdWord :=
  BitVec.ofNat 32 (op % 2 ^ 8 + 2 ^ 8 * (a % 2 ^ 8) + 2 ^ 16 * (b % 2 ^ 16))

/-- The opcode of a command (R72). -/
def Instr.opcode : Instr → Nat
  | .encbits _ _ => 0x01
  | .encwide _ _ => 0x02
  | .alnum _ => 0x03
  | .encmsd => 0x10
  | .encera => 0x11
  | .mapdiag => 0x20
  | .mapcrash => 0x21

/-- The command word of a command (R72, R77). -/
def encode : Instr → CmdWord
  | .encbits len off => cmdWord 0x01 len off
  | .encwide len off => cmdWord 0x02 len off
  | .alnum c => cmdWord 0x03 c.toNat 0
  | .encmsd => cmdWord 0x10 0 0
  | .encera => cmdWord 0x11 0 0
  | .mapdiag => cmdWord 0x20 0 0
  | .mapcrash => cmdWord 0x21 0 0

end Sys2Proof
end

