-- ==== Sys2Proof/Machine/State.lean ====
section
/-! DEFINITION. The state of MSDENC as plain data (10_state.md): the scalar registers of R21, the byte arrays of R30 and the
unwritten marks of R33, the model's own fields beside them, the reasons a step can stop, and the state after
reset (70_reset_and_hazards.md R230). -/

namespace Sys2Proof.Machine

/-- The outcome codes of R200. -/
inductive Status where
  | ok | fail | errCmd | errArg
deriving DecidableEq, Repr

/-- The cause codes of R201. `propulsion` is reserved and never raised (R128). -/
inductive Cause where
  | none | version | vtype | vin | propulsion | lat | lon | dir
  | n1Dlat | n1Dlon | n2Dlat | n2Dlon | length | badLen | offsetOverflow | badOpcode | reservedBits
deriving DecidableEq, Repr

/-- The scalar registers of R21 by name. -/
inductive Reg where
  | cmd | status | cause | causeIndex | resOffset | resBits | resBytes | resCode
  | wide | mask
  | version | optPresent | oidLen | dataLen | msgid | ctrlAuto | ctrlTest | ctrlTrust | vtype | prop | timestamp
  | lat | lon | dir | n1Present | n1Dlat | n1Dlon | n2Present | n2Dlat | n2Dlon | paxPresent | pax
  | eraSevere | eraDiagPresent | eraDiagPres | eraDiagVal | eraCrashPresent | eraCrashPres | eraCrashVal
deriving DecidableEq, Repr

/-- The byte arrays of R30 by name. -/
inductive ArrId where
  | src | vin | oid | data | buf
deriving DecidableEq, Repr

/-- One input that a command can read: a register or a byte of an array. -/
inductive Source where
  | reg (r : Reg)
  | byte (a : ArrId) (i : Nat)
deriving DecidableEq, Repr

/-- Why the model stops a command. -/
inductive Fault where
  /-- UNWRITTEN_INPUT (R33, R207): a command read the named input, which no write has defined. Raised by every command that
  reads an input. Safe: the spec asks a model to fault here, and no outcome of the hardware is claimed. -/
  | unwrittenInput (src : Source)
deriving DecidableEq, Repr

/-- Why the model has no meaning for a step. -/
inductive Refusal where
  /-- An instruction whose meaning has not been written: raised by an arm of `exec` only, and by none now. Safe: the model
  stops where the hardware goes on. -/
  | notModelled (mnemonic : String)
deriving DecidableEq, Repr

/-- What ends a command early: a validation failure (R203) or the model's fault (R207). -/
inductive Stop where
  | fail (c : Cause) (i : Nat)
  | fault (f : Fault)
deriving DecidableEq, Repr

/-- What comes to MSDENC from outside: the four host operations of R34, and the platform's reset (R230). A register number,
an array id, an index and a value are plain numbers, whatever they are. -/
inductive Event where
  | regWrite (rn v : Nat)
  | regRead (rn : Nat)
  | arrWrite (id i v : Nat)
  | arrRead (id i : Nat)
  | reset
deriving DecidableEq, Repr

/-- The bytes of one array that hold a value of their own, as (index, byte) cells in rising order of index. An index the
list does not name holds none: it is unwritten (R33), or, in BUF, a byte of the current draw (R203, R230). -/
abbrev Memory := List Host.Cell

/-- The input registers of R21, RN 0x08 to 0x36. `none` is the unwritten mark of R33. -/
structure Inputs where
  /-- WIDE, RN 0x08: the 16-bit source value of ENCWIDE. -/
  wide : Option (BitVec 16)
  /-- MASK, RN 0x09: the diagnostic or crash bitmask. -/
  mask : Option (BitVec 64)
  /-- VERSION, RN 0x10: the message version. -/
  version : Option (BitVec 8)
  /-- OPT_PRESENT, RN 0x11: presence of the optional data. -/
  optPresent : Option (BitVec 1)
  /-- OID_LEN, RN 0x12: number of OID bytes. -/
  oidLen : Option (BitVec 8)
  /-- DATA_LEN, RN 0x13: number of raw data bytes. -/
  dataLen : Option (BitVec 8)
  /-- MSGID, RN 0x14: the message identifier. -/
  msgid : Option (BitVec 8)
  /-- CTRL_AUTO, RN 0x15: automatic activation. -/
  ctrlAuto : Option (BitVec 1)
  /-- CTRL_TEST, RN 0x16: test call. -/
  ctrlTest : Option (BitVec 1)
  /-- CTRL_TRUST, RN 0x17: position can be trusted. -/
  ctrlTrust : Option (BitVec 1)
  /-- VTYPE, RN 0x18: the vehicle type, an enumeration value. -/
  vtype : Option (BitVec 8)
  /-- PROP, RN 0x19: the propulsion flags, flag i at bit i (R27). -/
  prop : Option (BitVec 6)
  /-- TIMESTAMP, RN 0x1A: the timestamp. -/
  timestamp : Option (BitVec 32)
  /-- LAT, RN 0x1B: the latitude, two's complement (R25). -/
  lat : Option (BitVec 32)
  /-- LON, RN 0x1C: the longitude, two's complement (R25). -/
  lon : Option (BitVec 32)
  /-- DIR, RN 0x1D: the vehicle direction. -/
  dir : Option (BitVec 8)
  /-- N1_PRESENT, RN 0x1E: presence of the recent location N1. -/
  n1Present : Option (BitVec 1)
  /-- N1_DLAT, RN 0x1F: latitude delta of N1, two's complement (R25). -/
  n1Dlat : Option (BitVec 16)
  /-- N1_DLON, RN 0x20: longitude delta of N1, two's complement (R25). -/
  n1Dlon : Option (BitVec 16)
  /-- N2_PRESENT, RN 0x21: presence of the recent location N2. -/
  n2Present : Option (BitVec 1)
  /-- N2_DLAT, RN 0x22: latitude delta of N2, two's complement (R25). -/
  n2Dlat : Option (BitVec 16)
  /-- N2_DLON, RN 0x23: longitude delta of N2, two's complement (R25). -/
  n2Dlon : Option (BitVec 16)
  /-- PAX_PRESENT, RN 0x24: presence of the number of passengers. -/
  paxPresent : Option (BitVec 1)
  /-- PAX, RN 0x25: the number of passengers. -/
  pax : Option (BitVec 8)
  /-- ERA_SEVERE, RN 0x30: severe crash estimation. -/
  eraSevere : Option (BitVec 1)
  /-- ERA_DIAG_PRESENT, RN 0x31: presence of the diagnostic group. -/
  eraDiagPresent : Option (BitVec 1)
  /-- ERA_DIAG_PRES, RN 0x32: presence booleans of the diagnostic flags (R28). -/
  eraDiagPres : Option (BitVec 21)
  /-- ERA_DIAG_VAL, RN 0x33: value booleans of the diagnostic flags (R28). -/
  eraDiagVal : Option (BitVec 21)
  /-- ERA_CRASH_PRESENT, RN 0x34: presence of the crash group. -/
  eraCrashPresent : Option (BitVec 1)
  /-- ERA_CRASH_PRES, RN 0x35: presence booleans of the crash flags (R28). -/
  eraCrashPres : Option (BitVec 6)
  /-- ERA_CRASH_VAL, RN 0x36: value booleans of the crash flags (R28). -/
  eraCrashVal : Option (BitVec 6)
deriving DecidableEq, Repr

/-- The state of MSDENC (R20), and, last, the model's own fields. -/
structure State where
  /-- STATUS, RN 0x01 (R200). -/
  status : BitVec 8
  /-- CAUSE, RN 0x02 (R201). -/
  cause : BitVec 8
  /-- CAUSE_INDEX, RN 0x03 (R202). -/
  causeIndex : BitVec 8
  /-- RES_OFFSET, RN 0x04 (R29). -/
  resOffset : BitVec 16
  /-- RES_BITS, RN 0x05 (R29). -/
  resBits : BitVec 16
  /-- RES_BYTES, RN 0x06 (R29). -/
  resBytes : BitVec 8
  /-- RES_CODE, RN 0x07 (R29). -/
  resCode : BitVec 8
  /-- The input registers (R21, R33). -/
  inp : Inputs
  /-- SRC, array 0 (R30). -/
  src : Memory
  /-- VIN, array 1 (R30). -/
  vin : Memory
  /-- OID, array 2 (R30). -/
  oid : Memory
  /-- DATA, array 3 (R30). -/
  data : Memory
  /-- BUF, array 4 (R30, R50). -/
  buf : Memory
  /-- The model's own: the number of the draw that BUF's unlisted bytes hold (log 4). -/
  bufEpoch : Nat
  /-- The model's own: how many draws host reads have returned (log 5). -/
  hostDraws : Nat
  /-- The model's own: what the last host read returned (log 3). -/
  readData : HostWord
  /-- The model's own: the host operations and resets still to come, the next one first (log 2). -/
  pending : List Event
  /-- The model's own place for the parameters of R7, fixed for life (R232; log 6). -/
  cfg : Config
deriving DecidableEq, Repr

/-- Every input register unwritten (R230, R233). -/
def Inputs.unwritten : Inputs where
  wide := none
  mask := none
  version := none
  optPresent := none
  oidLen := none
  dataLen := none
  msgid := none
  ctrlAuto := none
  ctrlTest := none
  ctrlTrust := none
  vtype := none
  prop := none
  timestamp := none
  lat := none
  lon := none
  dir := none
  n1Present := none
  n1Dlat := none
  n1Dlon := none
  n2Present := none
  n2Dlat := none
  n2Dlon := none
  paxPresent := none
  pax := none
  eraSevere := none
  eraDiagPresent := none
  eraDiagPres := none
  eraDiagVal := none
  eraCrashPresent := none
  eraCrashPres := none
  eraCrashVal := none

/-- The machine right after reset (R230): the outcome and result registers 0, every input register and every byte of SRC, VIN,
OID and DATA unwritten, BUF a draw. The model's own fields: no draw used, nothing read, nothing pending, the platform's
parameters (log 2 to 6). -/
def State.reset : State where
  status := 0
  cause := 0
  causeIndex := 0
  resOffset := 0
  resBits := 0
  resBytes := 0
  resCode := 0
  inp := Inputs.unwritten
  src := []
  vin := []
  oid := []
  data := []
  buf := []
  bufEpoch := 0
  hostDraws := 0
  readData := 0
  pending := []
  cfg := Config.platform

end Sys2Proof.Machine
end

