-- ==== Sys2Proof/Machine/Flags.lean ====
section
/-! DEFINITION. The outcome registers STATUS, CAUSE and CAUSE_INDEX, MSDENC's only flags (10_state.md R38): their codes
(60_exceptions.md R200, R201) and the one operation that writes them (R202). -/

namespace Sys2Proof.Machine

/-- The code of an outcome (R200). -/
def Status.code : Status → BitVec 8
  | .ok => 0x00
  | .fail => 0x01
  | .errCmd => 0x02
  | .errArg => 0x03

/-- The code of a cause (R201). -/
def Cause.code : Cause → BitVec 8
  | .none => 0x00
  | .version => 0x01
  | .vtype => 0x02
  | .vin => 0x03
  | .propulsion => 0x04
  | .lat => 0x05
  | .lon => 0x06
  | .dir => 0x07
  | .n1Dlat => 0x08
  | .n1Dlon => 0x09
  | .n2Dlat => 0x0A
  | .n2Dlon => 0x0B
  | .length => 0x0C
  | .badLen => 0x10
  | .offsetOverflow => 0x11
  | .badOpcode => 0x20
  | .reservedBits => 0x21

/-- Every command writes all three outcome registers (R202). -/
def State.setOutcome (st : Status) (c : Cause) (i : Nat) (s : State) : State :=
  { s with status := st.code, cause := c.code, causeIndex := BitVec.ofNat 8 i }

/-- The outcome of a command that completed: OK, NONE, 0 (R200). -/
def State.succeed (s : State) : State :=
  s.setOutcome .ok .none 0

end Sys2Proof.Machine
end

