-- ==== Sys2Proof/Machine/Ops.lean ====
section
/-! DEFINITION. The named operations that the commands share: a byte of an array read and written, the bits of a value in
stream order, the bit writer of BUF (20_memory.md R50 to R55), the result registers, and the ways a command ends
(60_exceptions.md R203 to R205). MSDENC has no trap entry and no return from one (R209, R210): what stands here is all that
an error does. -/

namespace Sys2Proof.Machine

/-! ## Arrays -/

/-- The byte an array holds at an index, if it holds one of its own. -/
def Memory.read : Memory → Nat → Option Byte
  | [], _ => none
  | (a, b) :: m, i => if a = i then some b else Memory.read m i

/-- The array after a byte is written. Every value is listed, since an unlisted index has none (log 4). -/
def Memory.write : Memory → Nat → Byte → Memory
  | [], i, v => [(i, v)]
  | (a, b) :: m, i, v =>
    if i < a then (i, v) :: (a, b) :: m
    else if i = a then (i, v) :: m
    else (a, b) :: Memory.write m i v

/-- Every index is at least `lo` and below `cap`, and the indices rise strictly. -/
def Memory.risesFrom (cap : Nat) : Nat → Memory → Bool
  | _, [] => true
  | lo, (a, _) :: m => decide (lo ≤ a) && decide (a < cap) && Memory.risesFrom cap (a + 1) m

/-- The canonical form of an array of `cap` bytes: indices inside the array and strictly rising. -/
def Memory.wf (cap : Nat) (m : Memory) : Bool :=
  Memory.risesFrom cap 0 m

/-- How many bytes an array has (R30). -/
def ArrId.size : ArrId → Nat
  | .src => srcBytes
  | .vin => vinLen
  | .oid => oidCap
  | .data => dataCap
  | .buf => bufBytes

/-- The array of a name. -/
def State.arr (s : State) : ArrId → Memory
  | .src => s.src
  | .vin => s.vin
  | .oid => s.oid
  | .data => s.data
  | .buf => s.buf

/-- The state with another content of one array. -/
def State.setArr (a : ArrId) (m : Memory) (s : State) : State :=
  match a with
  | .src => { s with src := m }
  | .vin => { s with vin := m }
  | .oid => { s with oid := m }
  | .data => { s with data := m }
  | .buf => { s with buf := m }

/-! ## Bits in stream order -/

/-- The low `n` bits of a value, most significant first (R52). -/
def bitsOf : Nat → Nat → List Bool
  | 0, _ => []
  | n + 1, v => v.testBit n :: bitsOf n v

/-- The number whose binary digits are the list, most significant first. -/
def natOfBits (bs : List Bool) : Nat :=
  bs.foldl (fun n b => 2 * n + b.toNat) 0

/-- Byte `i` of a bit stream, position 8i as bit 7 (R9); positions past the end are 0. -/
def streamByte (bs : List Bool) (i : Nat) : Byte :=
  BitVec.ofNat 8 (natOfBits ((List.range 8).map (fun k => (bs[8 * i + k]?).getD false)))

/-! ## BUF -/

/-- A byte of BUF: its own, or that of the current draw. -/
def bufByteOf (epoch : Nat) (m : Memory) (i : Nat) : Byte :=
  (Memory.read m i).getD (Config.bufDraw epoch i)

/-- The bit of BUF at stream position `p`: bit `7 - (p mod 8)` of BUF[p div 8] (R51). -/
def bufBitOf (epoch : Nat) (m : Memory) (p : Nat) : Bool :=
  (bufByteOf epoch m (p / 8)).getLsbD (7 - p % 8)

/-- A byte of BUF in a state. -/
def State.bufByte (s : State) (i : Nat) : Byte :=
  bufByteOf s.bufEpoch s.buf i

/-- A bit of BUF in a state. -/
def State.bufBit (s : State) (p : Nat) : Bool :=
  bufBitOf s.bufEpoch s.buf p

/-- A byte with one bit replaced. -/
def setBit (x : Byte) (k : Nat) (b : Bool) : Byte :=
  bif b then x ||| (1#8 <<< k) else x &&& ~~~(1#8 <<< k)

/-- The bit at a position after `b` is written over `old`: `b` with OVERWRITE, `old OR b` with OR (R53; log 9). -/
def writtenBit (mode : WriteMode) (old b : Bool) : Bool :=
  b || (old && decide (mode = .or))

/-- PutBit (R53): nothing is written at a position past BUF (R54). -/
def putBit (mode : WriteMode) (epoch : Nat) (m : Memory) (p : Nat) (b : Bool) : Memory :=
  if p < maxBits then
    Memory.write m (p / 8)
      (setBit (bufByteOf epoch m (p / 8)) (7 - p % 8) (writtenBit mode (bufBitOf epoch m p) b))
  else m

/-- A run of bits put at consecutive positions, the first at `p` (R52). -/
def putBits (mode : WriteMode) (epoch : Nat) (m : Memory) : Nat → List Bool → Memory
  | _, [] => m
  | p, b :: bs => putBits mode epoch (putBit mode epoch m p b) (p + 1) bs

/-- Bits appended to BUF at a cursor (R52). The cursor is no state (R37): the caller adds the length. -/
def State.emit (p : Nat) (bs : List Bool) (s : State) : State :=
  { s with buf := putBits s.cfg.writeMode s.bufEpoch s.buf p bs }

/-- Every byte of BUF becomes a draw of its own (R203, R230). -/
def State.drawBuf (s : State) : State :=
  { s with buf := [], bufEpoch := s.bufEpoch + 1 }

/-! ## Result registers (R29) -/

/-- RES_OFFSET. -/
def State.setOffset (n : Nat) (s : State) : State :=
  { s with resOffset := BitVec.ofNat 16 n }

/-- RES_BITS. -/
def State.setBits (n : Nat) (s : State) : State :=
  { s with resBits := BitVec.ofNat 16 n }

/-- RES_BYTES. -/
def State.setBytes (n : Nat) (s : State) : State :=
  { s with resBytes := BitVec.ofNat 8 n }

/-- RES_CODE. -/
def State.setCode (c : BitVec 8) (s : State) : State :=
  { s with resCode := c }

/-! ## The ends of a command -/

/-- `raise Fail(cause, index)` (R203): the outcome, RES_BITS and RES_BYTES 0, every byte of BUF a draw. -/
def State.raiseFail (c : Cause) (i : Nat) (s : State) : State :=
  (((s.setOutcome .fail c i).setBits 0).setBytes 0).drawBuf

/-- `raise CmdError(cause)` (R204): the outcome and nothing else. -/
def State.raiseCmdError (c : Cause) (s : State) : State :=
  s.setOutcome .errCmd c 0

/-- `raise ArgError(cause)` (R205): the outcome and nothing else. -/
def State.raiseArgError (c : Cause) (s : State) : State :=
  s.setOutcome .errArg c 0

/-- What a command computes from its inputs: a value, or an early end. -/
abbrev Enc (α : Type) := Except Stop α

/-- The end of a command: the state its value gives, the failure (R203), or the fault in place of an outcome (R207). -/
def conclude {α : Type} (r : Enc α) (s : State) (k : α → State) : Host.Outcome State Fault Refusal :=
  match r with
  | .ok a => .next (k a)
  | .error (.fail c i) => .next (s.raiseFail c i)
  | .error (.fault f) => .fault f

end Sys2Proof.Machine
end

