-- ==== Sys2Proof/Machine/Operands.lean ====
section
/-! DEFINITION. How a command reads its operands: an input register or an array byte, with the fault on an unwritten one
(10_state.md R33), several bytes in index order (20_memory.md R57), and the length and offset operands of the two bit
writers with the bits they select (40_bit_serializer.md R101, R102, R104, R105). -/

namespace Sys2Proof.Machine

/-- The value of an input, or the fault UNWRITTEN_INPUT that names it (R33, R207). -/
def need {α : Type} (src : Source) (v : Option α) : Enc α :=
  match v with
  | some x => .ok x
  | none => .error (.fault (.unwrittenInput src))

/-- One byte of an input array. -/
def readByte (a : ArrId) (s : State) (i : Nat) : Enc Byte :=
  need (.byte a i) (Memory.read (s.arr a) i)

/-- `n` bytes of an input array from index `i`, in increasing index order (R57). -/
def readBytes (a : ArrId) (s : State) : Nat → Nat → Enc (List Byte)
  | _, 0 => .ok []
  | i, n + 1 => do
    let b ← readByte a s i
    let bs ← readBytes a s (i + 1) n
    return b :: bs

/-- Bytes as bits, each most significant bit first, in order (R57). -/
def bitsOfBytes (bs : List Byte) : List Bool :=
  bs.flatMap (fun b => bitsOf 8 b.toNat)

/-- The lengths ENCBITS takes: 0 to 8, 16, 24, 32 (R102). -/
def encbitsLenOk (len : Nat) : Bool :=
  decide (len ≤ 8) || decide (len = 16) || decide (len = 24) || decide (len = 32)

/-- The lengths ENCWIDE takes: 0 to 16 (R105). -/
def encwideLenOk (len : Nat) : Bool :=
  decide (len ≤ 16)

/-- The new offset fits RES_OFFSET (R102, R105). -/
def offsetOk (len off : Nat) : Bool :=
  decide (off + len ≤ offsetMax)

/-- The bits ENCBITS takes from SRC: none, the low bits of SRC[0], or whole bytes from SRC[0] on (R101). -/
def encbitsField (len : Nat) (s : State) : Enc (List Bool) :=
  if len = 0 then .ok []
  else if len ≤ 8 then do
    let b ← readByte .src s 0
    return bitsOf len b.toNat
  else do
    let bs ← readBytes .src s 0 (len / 8)
    return bitsOfBytes bs

/-- The bits ENCWIDE takes from WIDE: its low bits (R104); WIDE is not read for length 0. -/
def encwideField (len : Nat) (s : State) : Enc (List Bool) :=
  if len = 0 then .ok []
  else do
    let v ← need (.reg .wide) s.inp.wide
    return bitsOf len v.toNat

end Sys2Proof.Machine
end

