-- ==== Sys2Proof/Machine/EraEncoder.lean ====
section
/-! DEFINITION. ENCERA, the ERA-GLONASS optional-data encoder (43_era_encoder.md). -/

namespace Sys2Proof.Machine

/-- The ID of the sub-message (R181, `ERA_ID`). -/
abbrev eraId : Nat := 1

/-- The flags of a group, flag 0 first, each presence AND value (R181, R182). -/
def eraGroup {n : Nat} (pres val : BitVec n) : List Bool :=
  (List.range n).map (fun k => pres.getLsbD k && val.getLsbD k)

/-- One optional group: nothing, and nothing read, when its presence register is 0. -/
def eraOptional {n : Nat} (present : BitVec 1) (pres val : Enc (BitVec n)) : Enc (List Bool) :=
  if present = 1 then do
    let p ← pres
    let v ← val
    return eraGroup p v
  else return []

/-- The sub-message (R181): ID, the two presence bits, the severity bit, the diagnostic group, the crash group. -/
def eraMessage (s : State) : Enc (List Bool) := do
  let d ← need (.reg .eraDiagPresent) s.inp.eraDiagPresent
  let c ← need (.reg .eraCrashPresent) s.inp.eraCrashPresent
  let e ← need (.reg .eraSevere) s.inp.eraSevere
  let diag ← eraOptional d (need (.reg .eraDiagPres) s.inp.eraDiagPres) (need (.reg .eraDiagVal) s.inp.eraDiagVal)
  let crash ← eraOptional c (need (.reg .eraCrashPres) s.inp.eraCrashPres) (need (.reg .eraCrashVal) s.inp.eraCrashVal)
  return bitsOf 8 eraId ++ bitsOf 1 d.toNat ++ bitsOf 1 c.toNat ++ bitsOf 1 e.toNat ++ diag ++ crash

/-- DATA[0] to DATA[n-1] after the scratch field E is stored: the stream, and 0 past its end (R183). -/
def storeStream (bs : List Bool) : Nat → Memory → Memory
  | 0, m => m
  | n + 1, m => Memory.write (storeStream bs n m) n (streamByte bs n)

/-- ENCERA (R180 to R183). -/
def execEncera (s : State) : Host.Outcome State Fault Refusal :=
  conclude (eraMessage s) s
    (fun bs => ((s.setArr .data (storeStream bs eraDataBytes s.data)).setBits bs.length).succeed)

end Sys2Proof.Machine
end

