-- ==== Sys2Proof/Machine/MaskMappers.lean ====
section
/-! DEFINITION. MAPDIAG and MAPCRASH, the ERA-GLONASS bitmask mappers (44_mask_mappers.md). -/

namespace Sys2Proof.Machine

/-- The mask bits at the positions of a table, entry k as bit k (R191, R193). -/
def gather {w : Nat} (m : BitVec w) : List Nat → Nat
  | [] => 0
  | p :: ps => (m.getLsbD p).toNat + 2 * gather m ps

/-- The diagnostic pairs rewritten and the group present (R191, R192). -/
def State.setDiag (pres val : BitVec 21) (s : State) : State :=
  { s with inp := { s.inp with eraDiagPres := some pres, eraDiagVal := some val, eraDiagPresent := some 1 } }

/-- The crash pairs rewritten and the group present (R192, R193). -/
def State.setCrash (pres val : BitVec 6) (s : State) : State :=
  { s with inp := { s.inp with eraCrashPres := some pres, eraCrashVal := some val, eraCrashPresent := some 1 } }

/-- MAPDIAG (R191). -/
def execMapdiag (s : State) : Host.Outcome State Fault Refusal :=
  conclude (need (.reg .mask) s.inp.mask) s
    (fun m => (s.setDiag (BitVec.ofNat 21 (gather m s.cfg.diagPresBit))
      (BitVec.ofNat 21 (gather m s.cfg.diagValBit))).succeed)

/-- MAPCRASH (R193): MASK[63:16] has no part in it. -/
def execMapcrash (s : State) : Host.Outcome State Fault Refusal :=
  conclude (need (.reg .mask) s.inp.mask) s
    (fun m => (s.setCrash (BitVec.ofNat 6 (gather (m.extractLsb' 0 16) s.cfg.crashPresBit))
      (BitVec.ofNat 6 (gather (m.extractLsb' 0 16) s.cfg.crashValBit))).succeed)

end Sys2Proof.Machine
end

