-- ==== Sys2Proof/Machine/FieldUnits.lean ====
section
/-! DEFINITION. The field units (41_field_units.md): the VIN lookup and the command ALNUM, the validators, the codes, the
propulsion field, the length-prefixed packer and the byte length. -/

namespace Sys2Proof.Machine

/-- AlnumCode (R120): the first index of the table that holds the character; `none` is the source's -1. -/
def alnumCode : List Byte → Byte → Option Nat
  | [], _ => none
  | x :: xs, c => if x = c then some 0 else (alnumCode xs c).map (· + 1)

/-- RES_CODE for a lookup: the code, or -1 as 0xFF (R121). -/
def resCodeOf : Option Nat → BitVec 8
  | some i => BitVec.ofNat 8 i
  | none => 0xFF

/-- ALNUM (R121): an unsupported character is no error. -/
def execAlnum (c : Byte) (s : State) : Host.Outcome State Fault Refusal :=
  .next (s.setCode (resCodeOf (alnumCode s.cfg.alnumTable c))).succeed

/-- VersionOk (R122). -/
def versionOk (v : BitVec 8) : Bool :=
  decide (v.toNat = 1)

/-- The vehicle types that have a code (R123). -/
def vtypeOk (vtMax : Nat) (t : BitVec 8) : Bool :=
  decide (1 ≤ t.toNat) && decide (t.toNat ≤ vtMax)

/-- VtCode (R123). -/
def vtCode (t : BitVec 8) : Nat :=
  t.toNat - 1

/-- The largest latitude (R124). -/
abbrev latLim : Int := 324000000

/-- The largest longitude (R124). -/
abbrev lonLim : Int := 648000000

/-- The sentinel "unknown" of a position (R124). -/
abbrev posUnknown : Int := 0x7FFFFFFF

/-- PosOk (R124): the sentinel, or inside the bounds, both included. -/
def posOk (lim v : Int) : Bool :=
  decide (v = posUnknown) || (decide (-lim ≤ v) && decide (v ≤ lim))

/-- PosCode (R125): offset binary, modulo 2^32. -/
def posCode (v : BitVec 32) : Nat :=
  (v.toNat + 0x80000000) % 2 ^ 32

/-- DirOk (R126). -/
def dirOk (d : BitVec 8) : Bool :=
  decide (d.toNat ≤ 179) || decide (d.toNat = 255)

/-- DeltaOk (R127). -/
def deltaOk (v : Int) : Bool :=
  decide (-512 ≤ v) && decide (v ≤ 511)

/-- DeltaCode (R127). -/
def deltaCode (v : Int) : Nat :=
  (v + 512).toNat

/-- PropField (R128): a set flag is emitted twice. -/
def propField (f : Bool) : List Bool :=
  if f then [true, true] else [false]

/-- LenPrefixed (R130): the length in 8 bits, then the bytes. -/
def lenPrefixed (a : ArrId) (n : Nat) (s : State) : Enc (List Bool) := do
  let bs ← readBytes a s 0 n
  return bitsOf 8 n ++ bitsOfBytes bs

/-- ByteLen (R131): rounded down. -/
def byteLen (n : Nat) : Nat :=
  n / 8

end Sys2Proof.Machine
end

