-- ==== Sys2Proof/Machine/MsdEncoder.lean ====
section
/-! DEFINITION. ENCMSD, the message encoder (42_msd_encoder.md). Each step of the schema R152 is a function from the inputs to
the bits it emits or the way it ends the command; the steps run in order, and the message is their bits one after the
other (log 10). -/

namespace Sys2Proof.Machine

/-- One bit of a 1-bit register (R26). -/
def bitsOfFlag (b : BitVec 1) : List Bool := bitsOf 1 b.toNat

/-- Step 1: version. -/
def msdVersion (s : State) : Enc (List Bool) := do
  let v ← need (.reg .version) s.inp.version
  if versionOk v then return bitsOf 8 v.toNat else throw (.fail .version 0)

/-- The parts of step 2 that follow a presence bit of 1: OID, then raw data, each length-prefixed. -/
def msdOptionalBody (s : State) : Enc (List Bool) := do
  let n ← need (.reg .oidLen) s.inp.oidLen
  let oid ← lenPrefixed .oid n.toNat s
  let m ← need (.reg .dataLen) s.inp.dataLen
  let data ← lenPrefixed .data m.toNat s
  return oid ++ data

/-- Step 2: optionalDataPresent and the optional data. -/
def msdOptional (s : State) : Enc (List Bool) := do
  let p ← need (.reg .optPresent) s.inp.optPresent
  if p = 1 then do
    let body ← msdOptionalBody s
    return bitsOfFlag p ++ body
  else return bitsOfFlag p

/-- Step 3: messageIdentifier. -/
def msdMsgid (s : State) : Enc (List Bool) := do
  let v ← need (.reg .msgid) s.inp.msgid
  return bitsOf 8 v.toNat

/-- Step 4: the control block, its three booleans and the vehicle type. -/
def msdControl (s : State) : Enc (List Bool) := do
  let a ← need (.reg .ctrlAuto) s.inp.ctrlAuto
  let t ← need (.reg .ctrlTest) s.inp.ctrlTest
  let p ← need (.reg .ctrlTrust) s.inp.ctrlTrust
  let v ← need (.reg .vtype) s.inp.vtype
  if vtypeOk s.cfg.vtMax v then
    return bitsOfFlag a ++ bitsOfFlag t ++ bitsOfFlag p ++ bitsOf 4 (vtCode v)
  else throw (.fail .vtype 0)

/-- Characters `i` to `i + n - 1` of the VIN, up to the first one that has no code. -/
def msdVinFrom (s : State) : Nat → Nat → Enc (List Bool)
  | _, 0 => .ok []
  | i, n + 1 => do
    let c ← readByte .vin s i
    match alnumCode s.cfg.alnumTable c with
    | none => throw (.fail .vin i)
    | some k => do
      let rest ← msdVinFrom s (i + 1) n
      return bitsOf 6 k ++ rest

/-- Step 5: the 17 characters of the VIN. -/
def msdVin (s : State) : Enc (List Bool) :=
  msdVinFrom s 0 vinLen

/-- Step 6: the six propulsion flags in index order. -/
def msdPropulsion (s : State) : Enc (List Bool) := do
  let v ← need (.reg .prop) s.inp.prop
  return (List.range propFlags).flatMap (fun i => propField (v.getLsbD i))

/-- Step 7: timestamp. -/
def msdTimestamp (s : State) : Enc (List Bool) := do
  let v ← need (.reg .timestamp) s.inp.timestamp
  return bitsOf 32 v.toNat

/-- One coordinate of step 8. -/
def msdPosition (r : Reg) (v : Option (BitVec 32)) (lim : Int) (c : Cause) : Enc (List Bool) := do
  let x ← need (.reg r) v
  if posOk lim x.toInt then return bitsOf 32 (posCode x) else throw (.fail c 0)

/-- Step 8: latitude, then longitude. -/
def msdLocation (s : State) : Enc (List Bool) := do
  let lat ← msdPosition .lat s.inp.lat latLim .lat
  let lon ← msdPosition .lon s.inp.lon lonLim .lon
  return lat ++ lon

/-- Step 9: vehicleDirection. -/
def msdDirection (s : State) : Enc (List Bool) := do
  let v ← need (.reg .dir) s.inp.dir
  if dirOk v then return bitsOf 8 v.toNat else throw (.fail .dir 0)

/-- One delta of steps 10 and 11. -/
def msdDelta (r : Reg) (v : Option (BitVec 16)) (c : Cause) : Enc (List Bool) := do
  let x ← need (.reg r) v
  if deltaOk x.toInt then return bitsOf 10 (deltaCode x.toInt) else throw (.fail c 0)

/-- A presence bit, and, when it is 1, the latitude delta and then the longitude delta. -/
def msdRecent (r : Reg) (present : Option (BitVec 1)) (dlat dlon : Enc (List Bool)) : Enc (List Bool) := do
  let p ← need (.reg r) present
  if p = 1 then do
    let a ← dlat
    let b ← dlon
    return bitsOfFlag p ++ a ++ b
  else return bitsOfFlag p

/-- Step 10: recentVehicleLocationN1. -/
def msdRecent1 (s : State) : Enc (List Bool) :=
  msdRecent .n1Present s.inp.n1Present
    (msdDelta .n1Dlat s.inp.n1Dlat .n1Dlat) (msdDelta .n1Dlon s.inp.n1Dlon .n1Dlon)

/-- Step 11: recentVehicleLocationN2. -/
def msdRecent2 (s : State) : Enc (List Bool) :=
  msdRecent .n2Present s.inp.n2Present
    (msdDelta .n2Dlat s.inp.n2Dlat .n2Dlat) (msdDelta .n2Dlon s.inp.n2Dlon .n2Dlon)

/-- Step 12: numberOfPassengers. -/
def msdPassengers (s : State) : Enc (List Bool) := do
  let p ← need (.reg .paxPresent) s.inp.paxPresent
  if p = 1 then do
    let v ← need (.reg .pax) s.inp.pax
    return bitsOfFlag p ++ bitsOf 8 v.toNat
  else return bitsOfFlag p

/-- Steps in order: the first that ends the command ends it, else the bits follow one another. -/
def inOrder : List (Enc (List Bool)) → Enc (List Bool)
  | [] => .ok []
  | e :: es => do
    let bs ← e
    let rest ← inOrder es
    return bs ++ rest

/-- The twelve steps of the schema (R152). -/
def msdSteps (s : State) : List (Enc (List Bool)) :=
  [msdVersion s, msdOptional s, msdMsgid s, msdControl s, msdVin s, msdPropulsion s, msdTimestamp s,
   msdLocation s, msdDirection s, msdRecent1 s, msdRecent2 s, msdPassengers s]

/-- The message: the twelve steps, then the length check (R156). -/
def msdMessage (s : State) : Enc (List Bool) := do
  let bs ← inOrder (msdSteps s)
  if bs.length ≤ maxBits then return bs else throw (.fail .length 0)

/-- ENCMSD (R150 to R157). -/
def execEncmsd (s : State) : Host.Outcome State Fault Refusal :=
  conclude (msdMessage s) s
    (fun bs => (((s.emit 0 bs).setBits bs.length).setBytes (byteLen bs.length)).succeed)

end Sys2Proof.Machine
end

