-- ==== Sys2Proof/Machine/Serializer.lean ====
section
/-! DEFINITION. The bit serializer commands ENCBITS and ENCWIDE (40_bit_serializer.md). -/

namespace Sys2Proof.Machine

/-- What the two bit writers share (R100, R104): the argument checks in their order, then the field put at the offset, and
the new offset. -/
def appendField (lenOk : Bool) (len off : Nat) (field : Enc (List Bool)) (s : State) :
    Host.Outcome State Fault Refusal :=
  if !lenOk then .next (s.raiseArgError .badLen)
  else if !offsetOk len off then .next (s.raiseArgError .offsetOverflow)
  else conclude field s (fun bs => ((s.emit off bs).setOffset (off + len)).succeed)

/-- ENCBITS (R100 to R103). -/
def execEncbits (len off : Nat) (s : State) : Host.Outcome State Fault Refusal :=
  appendField (encbitsLenOk len) len off (encbitsField len s) s

/-- ENCWIDE (R104, R105). -/
def execEncwide (len off : Nat) (s : State) : Host.Outcome State Fault Refusal :=
  appendField (encwideLenOk len) len off (encwideField len s) s

end Sys2Proof.Machine
end

