-- ==== Sys2Proof/Machine/Dispatch.lean ====
section
/-! DEFINITION. The commands' meanings, one arm per constructor of `Instr`. -/

namespace Sys2Proof.Machine

def exec (i : Instr) (s : State) : Host.Outcome State Fault Refusal :=
  match i with
  | .encbits len off => Sys2Proof.Machine.execEncbits len off s
  | .encwide len off => Sys2Proof.Machine.execEncwide len off s
  | .alnum c => Sys2Proof.Machine.execAlnum c s
  | .encmsd => Sys2Proof.Machine.execEncmsd s
  | .encera => Sys2Proof.Machine.execEncera s
  | .mapdiag => Sys2Proof.Machine.execMapdiag s
  | .mapcrash => Sys2Proof.Machine.execMapcrash s

end Sys2Proof.Machine
end

