-- ==== Sys2Proof/Machine/HostPort.lean ====
section
/-! DEFINITION. The host interface (10_state.md R34): register numbers and widths, the four host operations, the issue of a
command word, and the platform's reset (70_reset_and_hazards.md R230). -/

namespace Sys2Proof.Machine

/-- The register a number of R21 names, if any (R24: the others are unassigned). -/
def Reg.ofNumber : Nat → Option Reg
  | 0x00 => some .cmd
  | 0x01 => some .status
  | 0x02 => some .cause
  | 0x03 => some .causeIndex
  | 0x04 => some .resOffset
  | 0x05 => some .resBits
  | 0x06 => some .resBytes
  | 0x07 => some .resCode
  | 0x08 => some .wide
  | 0x09 => some .mask
  | 0x10 => some .version
  | 0x11 => some .optPresent
  | 0x12 => some .oidLen
  | 0x13 => some .dataLen
  | 0x14 => some .msgid
  | 0x15 => some .ctrlAuto
  | 0x16 => some .ctrlTest
  | 0x17 => some .ctrlTrust
  | 0x18 => some .vtype
  | 0x19 => some .prop
  | 0x1A => some .timestamp
  | 0x1B => some .lat
  | 0x1C => some .lon
  | 0x1D => some .dir
  | 0x1E => some .n1Present
  | 0x1F => some .n1Dlat
  | 0x20 => some .n1Dlon
  | 0x21 => some .n2Present
  | 0x22 => some .n2Dlat
  | 0x23 => some .n2Dlon
  | 0x24 => some .paxPresent
  | 0x25 => some .pax
  | 0x30 => some .eraSevere
  | 0x31 => some .eraDiagPresent
  | 0x32 => some .eraDiagPres
  | 0x33 => some .eraDiagVal
  | 0x34 => some .eraCrashPresent
  | 0x35 => some .eraCrashPres
  | 0x36 => some .eraCrashVal
  | _ => none

/-- The number of a register (R21). -/
def Reg.number : Reg → Nat
  | .cmd => 0x00
  | .status => 0x01
  | .cause => 0x02
  | .causeIndex => 0x03
  | .resOffset => 0x04
  | .resBits => 0x05
  | .resBytes => 0x06
  | .resCode => 0x07
  | .wide => 0x08
  | .mask => 0x09
  | .version => 0x10
  | .optPresent => 0x11
  | .oidLen => 0x12
  | .dataLen => 0x13
  | .msgid => 0x14
  | .ctrlAuto => 0x15
  | .ctrlTest => 0x16
  | .ctrlTrust => 0x17
  | .vtype => 0x18
  | .prop => 0x19
  | .timestamp => 0x1A
  | .lat => 0x1B
  | .lon => 0x1C
  | .dir => 0x1D
  | .n1Present => 0x1E
  | .n1Dlat => 0x1F
  | .n1Dlon => 0x20
  | .n2Present => 0x21
  | .n2Dlat => 0x22
  | .n2Dlon => 0x23
  | .paxPresent => 0x24
  | .pax => 0x25
  | .eraSevere => 0x30
  | .eraDiagPresent => 0x31
  | .eraDiagPres => 0x32
  | .eraDiagVal => 0x33
  | .eraCrashPresent => 0x34
  | .eraCrashPres => 0x35
  | .eraCrashVal => 0x36

/-- The width of a register (R21). -/
def Reg.width : Reg → Nat
  | .cmd => 32
  | .status => 8
  | .cause => 8
  | .causeIndex => 8
  | .resOffset => 16
  | .resBits => 16
  | .resBytes => 8
  | .resCode => 8
  | .wide => 16
  | .mask => 64
  | .version => 8
  | .optPresent => 1
  | .oidLen => 8
  | .dataLen => 8
  | .msgid => 8
  | .ctrlAuto => 1
  | .ctrlTest => 1
  | .ctrlTrust => 1
  | .vtype => 8
  | .prop => 6
  | .timestamp => 32
  | .lat => 32
  | .lon => 32
  | .dir => 8
  | .n1Present => 1
  | .n1Dlat => 16
  | .n1Dlon => 16
  | .n2Present => 1
  | .n2Dlat => 16
  | .n2Dlon => 16
  | .paxPresent => 1
  | .pax => 8
  | .eraSevere => 1
  | .eraDiagPresent => 1
  | .eraDiagPres => 21
  | .eraDiagVal => 21
  | .eraCrashPresent => 1
  | .eraCrashPres => 6
  | .eraCrashVal => 6

/-- What a register holds, as a number; `none` is the unwritten mark (R33). CMD reads 0 (R24). -/
def Reg.contents (s : State) : Reg → Option Nat
  | .cmd => some 0
  | .status => some s.status.toNat
  | .cause => some s.cause.toNat
  | .causeIndex => some s.causeIndex.toNat
  | .resOffset => some s.resOffset.toNat
  | .resBits => some s.resBits.toNat
  | .resBytes => some s.resBytes.toNat
  | .resCode => some s.resCode.toNat
  | .wide => s.inp.wide.map BitVec.toNat
  | .mask => s.inp.mask.map BitVec.toNat
  | .version => s.inp.version.map BitVec.toNat
  | .optPresent => s.inp.optPresent.map BitVec.toNat
  | .oidLen => s.inp.oidLen.map BitVec.toNat
  | .dataLen => s.inp.dataLen.map BitVec.toNat
  | .msgid => s.inp.msgid.map BitVec.toNat
  | .ctrlAuto => s.inp.ctrlAuto.map BitVec.toNat
  | .ctrlTest => s.inp.ctrlTest.map BitVec.toNat
  | .ctrlTrust => s.inp.ctrlTrust.map BitVec.toNat
  | .vtype => s.inp.vtype.map BitVec.toNat
  | .prop => s.inp.prop.map BitVec.toNat
  | .timestamp => s.inp.timestamp.map BitVec.toNat
  | .lat => s.inp.lat.map BitVec.toNat
  | .lon => s.inp.lon.map BitVec.toNat
  | .dir => s.inp.dir.map BitVec.toNat
  | .n1Present => s.inp.n1Present.map BitVec.toNat
  | .n1Dlat => s.inp.n1Dlat.map BitVec.toNat
  | .n1Dlon => s.inp.n1Dlon.map BitVec.toNat
  | .n2Present => s.inp.n2Present.map BitVec.toNat
  | .n2Dlat => s.inp.n2Dlat.map BitVec.toNat
  | .n2Dlon => s.inp.n2Dlon.map BitVec.toNat
  | .paxPresent => s.inp.paxPresent.map BitVec.toNat
  | .pax => s.inp.pax.map BitVec.toNat
  | .eraSevere => s.inp.eraSevere.map BitVec.toNat
  | .eraDiagPresent => s.inp.eraDiagPresent.map BitVec.toNat
  | .eraDiagPres => s.inp.eraDiagPres.map BitVec.toNat
  | .eraDiagVal => s.inp.eraDiagVal.map BitVec.toNat
  | .eraCrashPresent => s.inp.eraCrashPresent.map BitVec.toNat
  | .eraCrashPres => s.inp.eraCrashPres.map BitVec.toNat
  | .eraCrashVal => s.inp.eraCrashVal.map BitVec.toNat

/-- The input registers after the host writes `v` to one of them: `v mod 2^N` (R23). The other registers are no input
registers and the write changes none (R24). -/
def Reg.store (r : Reg) (v : Nat) (p : Inputs) : Inputs :=
  match r with
  | .cmd | .status | .cause | .causeIndex | .resOffset | .resBits | .resBytes | .resCode => p
  | .wide => { p with wide := some (BitVec.ofNat 16 v) }
  | .mask => { p with mask := some (BitVec.ofNat 64 v) }
  | .version => { p with version := some (BitVec.ofNat 8 v) }
  | .optPresent => { p with optPresent := some (BitVec.ofNat 1 v) }
  | .oidLen => { p with oidLen := some (BitVec.ofNat 8 v) }
  | .dataLen => { p with dataLen := some (BitVec.ofNat 8 v) }
  | .msgid => { p with msgid := some (BitVec.ofNat 8 v) }
  | .ctrlAuto => { p with ctrlAuto := some (BitVec.ofNat 1 v) }
  | .ctrlTest => { p with ctrlTest := some (BitVec.ofNat 1 v) }
  | .ctrlTrust => { p with ctrlTrust := some (BitVec.ofNat 1 v) }
  | .vtype => { p with vtype := some (BitVec.ofNat 8 v) }
  | .prop => { p with prop := some (BitVec.ofNat 6 v) }
  | .timestamp => { p with timestamp := some (BitVec.ofNat 32 v) }
  | .lat => { p with lat := some (BitVec.ofNat 32 v) }
  | .lon => { p with lon := some (BitVec.ofNat 32 v) }
  | .dir => { p with dir := some (BitVec.ofNat 8 v) }
  | .n1Present => { p with n1Present := some (BitVec.ofNat 1 v) }
  | .n1Dlat => { p with n1Dlat := some (BitVec.ofNat 16 v) }
  | .n1Dlon => { p with n1Dlon := some (BitVec.ofNat 16 v) }
  | .n2Present => { p with n2Present := some (BitVec.ofNat 1 v) }
  | .n2Dlat => { p with n2Dlat := some (BitVec.ofNat 16 v) }
  | .n2Dlon => { p with n2Dlon := some (BitVec.ofNat 16 v) }
  | .paxPresent => { p with paxPresent := some (BitVec.ofNat 1 v) }
  | .pax => { p with pax := some (BitVec.ofNat 8 v) }
  | .eraSevere => { p with eraSevere := some (BitVec.ofNat 1 v) }
  | .eraDiagPresent => { p with eraDiagPresent := some (BitVec.ofNat 1 v) }
  | .eraDiagPres => { p with eraDiagPres := some (BitVec.ofNat 21 v) }
  | .eraDiagVal => { p with eraDiagVal := some (BitVec.ofNat 21 v) }
  | .eraCrashPresent => { p with eraCrashPresent := some (BitVec.ofNat 1 v) }
  | .eraCrashPres => { p with eraCrashPres := some (BitVec.ofNat 6 v) }
  | .eraCrashVal => { p with eraCrashVal := some (BitVec.ofNat 6 v) }

/-- The array an id of R30 names, if any (log 13). -/
def ArrId.ofId : Nat → Option ArrId
  | 0 => some .src
  | 1 => some .vin
  | 2 => some .oid
  | 3 => some .data
  | 4 => some .buf
  | _ => none

/-- The issue of a command word (R75): an illegal word ends with CmdError (R73, R74), a legal one runs its command. -/
def issue (w : CmdWord) (s : State) : Host.Outcome State Fault Refusal :=
  match decode w with
  | .ok i => exec i s
  | .error .badOpcode => .next (s.raiseCmdError .badOpcode)
  | .error .reservedBits => .next (s.raiseCmdError .reservedBits)

/-- RegWrite (R23, R24, R34): CMD issues the word; a read-only or unassigned number changes nothing. -/
def regWrite (rn v : Nat) (s : State) : Host.Outcome State Fault Refusal :=
  match Reg.ofNumber rn with
  | none => .next s
  | some .cmd => issue (BitVec.ofNat 32 v) s
  | some r => .next { s with inp := Reg.store r v s.inp }

/-- A draw of `w` bits for a host read of unwritten state, and the count of draws moved on (R33, R60). -/
def State.drawRead (w : Nat) (s : State) : State :=
  { s with readData := BitVec.ofNat 64 ((Config.hostDraw s.hostDraws).toNat % 2 ^ w), hostDraws := s.hostDraws + 1 }

/-- What a host read returns, where it is fixed. -/
def State.returnRead (v : Nat) (s : State) : State :=
  { s with readData := BitVec.ofNat 64 v }

/-- RegRead (R24, R33, R34): 0 for an unassigned number, a draw for an unwritten register. -/
def regRead (rn : Nat) (s : State) : State :=
  match Reg.ofNumber rn with
  | none => s.returnRead 0
  | some r =>
    match Reg.contents s r with
    | some v => s.returnRead v
    | none => s.drawRead (Reg.width r)

/-- The array and the index of a host access, if the array exists and has the index (R34). -/
def arrTarget (id i : Nat) : Option ArrId :=
  match ArrId.ofId id with
  | none => none
  | some a => if i < ArrId.size a then some a else none

/-- ArrWrite (R34): one byte; out of range nothing. The value is taken modulo 2^8 (log 14). -/
def arrWrite (id i v : Nat) (s : State) : State :=
  match arrTarget id i with
  | none => s
  | some a => s.setArr a (Memory.write (s.arr a) i (BitVec.ofNat 8 v))

/-- What an array byte holds: BUF's bytes always hold a value, the others may be unwritten (R30, R33). -/
def State.byteContents (s : State) (a : ArrId) (i : Nat) : Option Byte :=
  match a with
  | .buf => some (s.bufByte i)
  | a => Memory.read (s.arr a) i

/-- ArrRead (R33, R34): 0 out of range, a draw for an unwritten byte. -/
def arrRead (id i : Nat) (s : State) : State :=
  match arrTarget id i with
  | none => s.returnRead 0
  | some a =>
    match s.byteContents a i with
    | some b => s.returnRead b.toNat
    | none => s.drawRead 8

/-- The platform's reset (R230): every piece of MSDENC's state as after reset, BUF a draw of its own. The parameters stay
(R232); what stands outside MSDENC, the operations to come and what the host has read, stays too (log 12). -/
def platformReset (s : State) : State :=
  { State.reset with
    bufEpoch := s.bufEpoch + 1, hostDraws := s.hostDraws, readData := s.readData, pending := s.pending, cfg := s.cfg }

/-- One host operation, or a reset. -/
def perform (e : Event) (s : State) : Host.Outcome State Fault Refusal :=
  match e with
  | .regWrite rn v => regWrite rn v s
  | .regRead rn => .next (regRead rn s)
  | .arrWrite id i v => .next (arrWrite id i v s)
  | .arrRead id i => .next (arrRead id i s)
  | .reset => .next (platformReset s)

/-- The next operation taken off the host's queue and performed; with none pending MSDENC holds its state (R218). -/
def advance (s : State) : Host.Outcome State Fault Refusal :=
  match s.pending with
  | [] => .next s
  | e :: rest => perform e { s with pending := rest }

/-- The host operation that issues a command word (R34), put before what is pending. -/
def State.issueNext (w : Nat) (s : State) : State :=
  { s with pending := .regWrite (Reg.number .cmd) w :: s.pending }

end Sys2Proof.Machine
end

