-- ==== Sys2Proof/Machine/Step.lean ====
section
/-! DEFINITION. One step: the next host operation or reset, each indivisible (00_scope.md R6, 10_state.md R35). -/

namespace Sys2Proof.Machine

/-- One step of the machine. -/
def step (s : State) : Host.Outcome State Fault Refusal :=
  advance s

/-- The state in which the next step runs the command word `w` of `nbits` bits: the host's next operation is its issue. -/
def State.withFetchWord (s : State) (nbits w : Nat) : State :=
  s.issueNext (w % 2 ^ nbits)

end Sys2Proof.Machine
end

