-- ==== Sys2Proof/Laws/Config.lean ====
section
/-! SUPPORT. The parameters that a platform delivers meet their conditions, and the OPEN ones may be any that do. -/

namespace Sys2Proof.Config

/-- What `maskTableOk` asks, condition by condition. -/
theorem maskTableOk_iff {bits flags : Nat} {pres val : List Nat} :
    maskTableOk bits flags pres val = true ↔
      pres.length = flags ∧ val.length = flags ∧ (∀ k ∈ pres ++ val, k < bits) ∧ (pres ++ val).Nodup := by
  simp only [maskTableOk, Bool.and_eq_true, decide_eq_true_eq, List.all_eq_true, and_assoc]

/-- What `valid` asks, condition by condition. -/
theorem valid_iff {c : Config} :
    c.valid = true ↔
      c.alnumTable.length = alnumEntries ∧ c.alnumTable.Nodup ∧ 1 ≤ c.vtMax ∧ c.vtMax ≤ 16
      ∧ maskTableOk diagMaskBits diagFlags c.diagPresBit c.diagValBit = true
      ∧ maskTableOk crashMaskBits crashFlags c.crashPresBit c.crashValBit = true := by
  simp only [valid, Bool.and_eq_true, decide_eq_true_eq, and_assoc]

/-- Positions that meet the conditions of R190 are taken as they are: no platform is shut out. -/
theorem openTable_of_ok {bits flags : Nat} {free : List Nat × List Nat}
    (h : maskTableOk bits flags free.1 free.2 = true) : openTable bits flags free = free := by
  simp [openTable, h]

/-- The positions of a mask meet the conditions of R190, if the defaults do. -/
theorem openTable_ok {bits flags : Nat} (free : List Nat × List Nat)
    (h : maskTableOk bits flags (defaultPresBit flags) (defaultValBit flags) = true) :
    maskTableOk bits flags (openTable bits flags free).1 (openTable bits flags free).2 = true := by
  unfold openTable
  split <;> assumption

/-- The parameters that a platform delivers meet their conditions, whatever the OPEN ones are. -/
theorem platform_valid : platform.valid = true :=
  valid_iff.2 ⟨by decide, by decide, by decide, by decide,
    openTable_ok platformDiagTable (by decide), openTable_ok platformCrashTable (by decide)⟩

end Sys2Proof.Config
end

