-- ==== Sys2Proof/Laws/State.lean ====
section
/-! SUPPORT. What each named update of the state does to each field: one lemma per field per update. -/

namespace Sys2Proof.Machine

variable (s : State)

/-! ## setOutcome -/

@[simp] theorem State.setOutcome_status (st : Status) (c : Cause) (i : Nat) : (s.setOutcome st c i).status = st.code := rfl
@[simp] theorem State.setOutcome_cause (st : Status) (c : Cause) (i : Nat) : (s.setOutcome st c i).cause = c.code := rfl
@[simp] theorem State.setOutcome_causeIndex (st : Status) (c : Cause) (i : Nat) : (s.setOutcome st c i).causeIndex = BitVec.ofNat 8 i := rfl
@[simp] theorem State.setOutcome_resOffset (st : Status) (c : Cause) (i : Nat) : (s.setOutcome st c i).resOffset = s.resOffset := rfl
@[simp] theorem State.setOutcome_resBits (st : Status) (c : Cause) (i : Nat) : (s.setOutcome st c i).resBits = s.resBits := rfl
@[simp] theorem State.setOutcome_resBytes (st : Status) (c : Cause) (i : Nat) : (s.setOutcome st c i).resBytes = s.resBytes := rfl
@[simp] theorem State.setOutcome_resCode (st : Status) (c : Cause) (i : Nat) : (s.setOutcome st c i).resCode = s.resCode := rfl
@[simp] theorem State.setOutcome_inp (st : Status) (c : Cause) (i : Nat) : (s.setOutcome st c i).inp = s.inp := rfl
@[simp] theorem State.setOutcome_src (st : Status) (c : Cause) (i : Nat) : (s.setOutcome st c i).src = s.src := rfl
@[simp] theorem State.setOutcome_vin (st : Status) (c : Cause) (i : Nat) : (s.setOutcome st c i).vin = s.vin := rfl
@[simp] theorem State.setOutcome_oid (st : Status) (c : Cause) (i : Nat) : (s.setOutcome st c i).oid = s.oid := rfl
@[simp] theorem State.setOutcome_data (st : Status) (c : Cause) (i : Nat) : (s.setOutcome st c i).data = s.data := rfl
@[simp] theorem State.setOutcome_buf (st : Status) (c : Cause) (i : Nat) : (s.setOutcome st c i).buf = s.buf := rfl
@[simp] theorem State.setOutcome_bufEpoch (st : Status) (c : Cause) (i : Nat) : (s.setOutcome st c i).bufEpoch = s.bufEpoch := rfl
@[simp] theorem State.setOutcome_hostDraws (st : Status) (c : Cause) (i : Nat) : (s.setOutcome st c i).hostDraws = s.hostDraws := rfl
@[simp] theorem State.setOutcome_readData (st : Status) (c : Cause) (i : Nat) : (s.setOutcome st c i).readData = s.readData := rfl
@[simp] theorem State.setOutcome_pending (st : Status) (c : Cause) (i : Nat) : (s.setOutcome st c i).pending = s.pending := rfl
@[simp] theorem State.setOutcome_cfg (st : Status) (c : Cause) (i : Nat) : (s.setOutcome st c i).cfg = s.cfg := rfl

/-! ## succeed -/

@[simp] theorem State.succeed_status : (s.succeed).status = 0 := rfl
@[simp] theorem State.succeed_cause : (s.succeed).cause = 0 := rfl
@[simp] theorem State.succeed_causeIndex : (s.succeed).causeIndex = 0 := rfl
@[simp] theorem State.succeed_resOffset : (s.succeed).resOffset = s.resOffset := rfl
@[simp] theorem State.succeed_resBits : (s.succeed).resBits = s.resBits := rfl
@[simp] theorem State.succeed_resBytes : (s.succeed).resBytes = s.resBytes := rfl
@[simp] theorem State.succeed_resCode : (s.succeed).resCode = s.resCode := rfl
@[simp] theorem State.succeed_inp : (s.succeed).inp = s.inp := rfl
@[simp] theorem State.succeed_src : (s.succeed).src = s.src := rfl
@[simp] theorem State.succeed_vin : (s.succeed).vin = s.vin := rfl
@[simp] theorem State.succeed_oid : (s.succeed).oid = s.oid := rfl
@[simp] theorem State.succeed_data : (s.succeed).data = s.data := rfl
@[simp] theorem State.succeed_buf : (s.succeed).buf = s.buf := rfl
@[simp] theorem State.succeed_bufEpoch : (s.succeed).bufEpoch = s.bufEpoch := rfl
@[simp] theorem State.succeed_hostDraws : (s.succeed).hostDraws = s.hostDraws := rfl
@[simp] theorem State.succeed_readData : (s.succeed).readData = s.readData := rfl
@[simp] theorem State.succeed_pending : (s.succeed).pending = s.pending := rfl
@[simp] theorem State.succeed_cfg : (s.succeed).cfg = s.cfg := rfl

/-! ## raiseCmdError -/

@[simp] theorem State.raiseCmdError_status (c : Cause) : (s.raiseCmdError c).status = 2 := rfl
@[simp] theorem State.raiseCmdError_cause (c : Cause) : (s.raiseCmdError c).cause = c.code := rfl
@[simp] theorem State.raiseCmdError_causeIndex (c : Cause) : (s.raiseCmdError c).causeIndex = 0 := rfl
@[simp] theorem State.raiseCmdError_resOffset (c : Cause) : (s.raiseCmdError c).resOffset = s.resOffset := rfl
@[simp] theorem State.raiseCmdError_resBits (c : Cause) : (s.raiseCmdError c).resBits = s.resBits := rfl
@[simp] theorem State.raiseCmdError_resBytes (c : Cause) : (s.raiseCmdError c).resBytes = s.resBytes := rfl
@[simp] theorem State.raiseCmdError_resCode (c : Cause) : (s.raiseCmdError c).resCode = s.resCode := rfl
@[simp] theorem State.raiseCmdError_inp (c : Cause) : (s.raiseCmdError c).inp = s.inp := rfl
@[simp] theorem State.raiseCmdError_src (c : Cause) : (s.raiseCmdError c).src = s.src := rfl
@[simp] theorem State.raiseCmdError_vin (c : Cause) : (s.raiseCmdError c).vin = s.vin := rfl
@[simp] theorem State.raiseCmdError_oid (c : Cause) : (s.raiseCmdError c).oid = s.oid := rfl
@[simp] theorem State.raiseCmdError_data (c : Cause) : (s.raiseCmdError c).data = s.data := rfl
@[simp] theorem State.raiseCmdError_buf (c : Cause) : (s.raiseCmdError c).buf = s.buf := rfl
@[simp] theorem State.raiseCmdError_bufEpoch (c : Cause) : (s.raiseCmdError c).bufEpoch = s.bufEpoch := rfl
@[simp] theorem State.raiseCmdError_hostDraws (c : Cause) : (s.raiseCmdError c).hostDraws = s.hostDraws := rfl
@[simp] theorem State.raiseCmdError_readData (c : Cause) : (s.raiseCmdError c).readData = s.readData := rfl
@[simp] theorem State.raiseCmdError_pending (c : Cause) : (s.raiseCmdError c).pending = s.pending := rfl
@[simp] theorem State.raiseCmdError_cfg (c : Cause) : (s.raiseCmdError c).cfg = s.cfg := rfl

/-! ## raiseArgError -/

@[simp] theorem State.raiseArgError_status (c : Cause) : (s.raiseArgError c).status = 3 := rfl
@[simp] theorem State.raiseArgError_cause (c : Cause) : (s.raiseArgError c).cause = c.code := rfl
@[simp] theorem State.raiseArgError_causeIndex (c : Cause) : (s.raiseArgError c).causeIndex = 0 := rfl
@[simp] theorem State.raiseArgError_resOffset (c : Cause) : (s.raiseArgError c).resOffset = s.resOffset := rfl
@[simp] theorem State.raiseArgError_resBits (c : Cause) : (s.raiseArgError c).resBits = s.resBits := rfl
@[simp] theorem State.raiseArgError_resBytes (c : Cause) : (s.raiseArgError c).resBytes = s.resBytes := rfl
@[simp] theorem State.raiseArgError_resCode (c : Cause) : (s.raiseArgError c).resCode = s.resCode := rfl
@[simp] theorem State.raiseArgError_inp (c : Cause) : (s.raiseArgError c).inp = s.inp := rfl
@[simp] theorem State.raiseArgError_src (c : Cause) : (s.raiseArgError c).src = s.src := rfl
@[simp] theorem State.raiseArgError_vin (c : Cause) : (s.raiseArgError c).vin = s.vin := rfl
@[simp] theorem State.raiseArgError_oid (c : Cause) : (s.raiseArgError c).oid = s.oid := rfl
@[simp] theorem State.raiseArgError_data (c : Cause) : (s.raiseArgError c).data = s.data := rfl
@[simp] theorem State.raiseArgError_buf (c : Cause) : (s.raiseArgError c).buf = s.buf := rfl
@[simp] theorem State.raiseArgError_bufEpoch (c : Cause) : (s.raiseArgError c).bufEpoch = s.bufEpoch := rfl
@[simp] theorem State.raiseArgError_hostDraws (c : Cause) : (s.raiseArgError c).hostDraws = s.hostDraws := rfl
@[simp] theorem State.raiseArgError_readData (c : Cause) : (s.raiseArgError c).readData = s.readData := rfl
@[simp] theorem State.raiseArgError_pending (c : Cause) : (s.raiseArgError c).pending = s.pending := rfl
@[simp] theorem State.raiseArgError_cfg (c : Cause) : (s.raiseArgError c).cfg = s.cfg := rfl

/-! ## emit -/

@[simp] theorem State.emit_status (p : Nat) (bs : List Bool) : (s.emit p bs).status = s.status := rfl
@[simp] theorem State.emit_cause (p : Nat) (bs : List Bool) : (s.emit p bs).cause = s.cause := rfl
@[simp] theorem State.emit_causeIndex (p : Nat) (bs : List Bool) : (s.emit p bs).causeIndex = s.causeIndex := rfl
@[simp] theorem State.emit_resOffset (p : Nat) (bs : List Bool) : (s.emit p bs).resOffset = s.resOffset := rfl
@[simp] theorem State.emit_resBits (p : Nat) (bs : List Bool) : (s.emit p bs).resBits = s.resBits := rfl
@[simp] theorem State.emit_resBytes (p : Nat) (bs : List Bool) : (s.emit p bs).resBytes = s.resBytes := rfl
@[simp] theorem State.emit_resCode (p : Nat) (bs : List Bool) : (s.emit p bs).resCode = s.resCode := rfl
@[simp] theorem State.emit_inp (p : Nat) (bs : List Bool) : (s.emit p bs).inp = s.inp := rfl
@[simp] theorem State.emit_src (p : Nat) (bs : List Bool) : (s.emit p bs).src = s.src := rfl
@[simp] theorem State.emit_vin (p : Nat) (bs : List Bool) : (s.emit p bs).vin = s.vin := rfl
@[simp] theorem State.emit_oid (p : Nat) (bs : List Bool) : (s.emit p bs).oid = s.oid := rfl
@[simp] theorem State.emit_data (p : Nat) (bs : List Bool) : (s.emit p bs).data = s.data := rfl
@[simp] theorem State.emit_buf (p : Nat) (bs : List Bool) : (s.emit p bs).buf = putBits s.cfg.writeMode s.bufEpoch s.buf p bs := rfl
@[simp] theorem State.emit_bufEpoch (p : Nat) (bs : List Bool) : (s.emit p bs).bufEpoch = s.bufEpoch := rfl
@[simp] theorem State.emit_hostDraws (p : Nat) (bs : List Bool) : (s.emit p bs).hostDraws = s.hostDraws := rfl
@[simp] theorem State.emit_readData (p : Nat) (bs : List Bool) : (s.emit p bs).readData = s.readData := rfl
@[simp] theorem State.emit_pending (p : Nat) (bs : List Bool) : (s.emit p bs).pending = s.pending := rfl
@[simp] theorem State.emit_cfg (p : Nat) (bs : List Bool) : (s.emit p bs).cfg = s.cfg := rfl

/-! ## drawBuf -/

@[simp] theorem State.drawBuf_status : (s.drawBuf).status = s.status := rfl
@[simp] theorem State.drawBuf_cause : (s.drawBuf).cause = s.cause := rfl
@[simp] theorem State.drawBuf_causeIndex : (s.drawBuf).causeIndex = s.causeIndex := rfl
@[simp] theorem State.drawBuf_resOffset : (s.drawBuf).resOffset = s.resOffset := rfl
@[simp] theorem State.drawBuf_resBits : (s.drawBuf).resBits = s.resBits := rfl
@[simp] theorem State.drawBuf_resBytes : (s.drawBuf).resBytes = s.resBytes := rfl
@[simp] theorem State.drawBuf_resCode : (s.drawBuf).resCode = s.resCode := rfl
@[simp] theorem State.drawBuf_inp : (s.drawBuf).inp = s.inp := rfl
@[simp] theorem State.drawBuf_src : (s.drawBuf).src = s.src := rfl
@[simp] theorem State.drawBuf_vin : (s.drawBuf).vin = s.vin := rfl
@[simp] theorem State.drawBuf_oid : (s.drawBuf).oid = s.oid := rfl
@[simp] theorem State.drawBuf_data : (s.drawBuf).data = s.data := rfl
@[simp] theorem State.drawBuf_buf : (s.drawBuf).buf = [] := rfl
@[simp] theorem State.drawBuf_bufEpoch : (s.drawBuf).bufEpoch = s.bufEpoch + 1 := rfl
@[simp] theorem State.drawBuf_hostDraws : (s.drawBuf).hostDraws = s.hostDraws := rfl
@[simp] theorem State.drawBuf_readData : (s.drawBuf).readData = s.readData := rfl
@[simp] theorem State.drawBuf_pending : (s.drawBuf).pending = s.pending := rfl
@[simp] theorem State.drawBuf_cfg : (s.drawBuf).cfg = s.cfg := rfl

/-! ## setOffset -/

@[simp] theorem State.setOffset_status (n : Nat) : (s.setOffset n).status = s.status := rfl
@[simp] theorem State.setOffset_cause (n : Nat) : (s.setOffset n).cause = s.cause := rfl
@[simp] theorem State.setOffset_causeIndex (n : Nat) : (s.setOffset n).causeIndex = s.causeIndex := rfl
@[simp] theorem State.setOffset_resOffset (n : Nat) : (s.setOffset n).resOffset = BitVec.ofNat 16 n := rfl
@[simp] theorem State.setOffset_resBits (n : Nat) : (s.setOffset n).resBits = s.resBits := rfl
@[simp] theorem State.setOffset_resBytes (n : Nat) : (s.setOffset n).resBytes = s.resBytes := rfl
@[simp] theorem State.setOffset_resCode (n : Nat) : (s.setOffset n).resCode = s.resCode := rfl
@[simp] theorem State.setOffset_inp (n : Nat) : (s.setOffset n).inp = s.inp := rfl
@[simp] theorem State.setOffset_src (n : Nat) : (s.setOffset n).src = s.src := rfl
@[simp] theorem State.setOffset_vin (n : Nat) : (s.setOffset n).vin = s.vin := rfl
@[simp] theorem State.setOffset_oid (n : Nat) : (s.setOffset n).oid = s.oid := rfl
@[simp] theorem State.setOffset_data (n : Nat) : (s.setOffset n).data = s.data := rfl
@[simp] theorem State.setOffset_buf (n : Nat) : (s.setOffset n).buf = s.buf := rfl
@[simp] theorem State.setOffset_bufEpoch (n : Nat) : (s.setOffset n).bufEpoch = s.bufEpoch := rfl
@[simp] theorem State.setOffset_hostDraws (n : Nat) : (s.setOffset n).hostDraws = s.hostDraws := rfl
@[simp] theorem State.setOffset_readData (n : Nat) : (s.setOffset n).readData = s.readData := rfl
@[simp] theorem State.setOffset_pending (n : Nat) : (s.setOffset n).pending = s.pending := rfl
@[simp] theorem State.setOffset_cfg (n : Nat) : (s.setOffset n).cfg = s.cfg := rfl

/-! ## setBits -/

@[simp] theorem State.setBits_status (n : Nat) : (s.setBits n).status = s.status := rfl
@[simp] theorem State.setBits_cause (n : Nat) : (s.setBits n).cause = s.cause := rfl
@[simp] theorem State.setBits_causeIndex (n : Nat) : (s.setBits n).causeIndex = s.causeIndex := rfl
@[simp] theorem State.setBits_resOffset (n : Nat) : (s.setBits n).resOffset = s.resOffset := rfl
@[simp] theorem State.setBits_resBits (n : Nat) : (s.setBits n).resBits = BitVec.ofNat 16 n := rfl
@[simp] theorem State.setBits_resBytes (n : Nat) : (s.setBits n).resBytes = s.resBytes := rfl
@[simp] theorem State.setBits_resCode (n : Nat) : (s.setBits n).resCode = s.resCode := rfl
@[simp] theorem State.setBits_inp (n : Nat) : (s.setBits n).inp = s.inp := rfl
@[simp] theorem State.setBits_src (n : Nat) : (s.setBits n).src = s.src := rfl
@[simp] theorem State.setBits_vin (n : Nat) : (s.setBits n).vin = s.vin := rfl
@[simp] theorem State.setBits_oid (n : Nat) : (s.setBits n).oid = s.oid := rfl
@[simp] theorem State.setBits_data (n : Nat) : (s.setBits n).data = s.data := rfl
@[simp] theorem State.setBits_buf (n : Nat) : (s.setBits n).buf = s.buf := rfl
@[simp] theorem State.setBits_bufEpoch (n : Nat) : (s.setBits n).bufEpoch = s.bufEpoch := rfl
@[simp] theorem State.setBits_hostDraws (n : Nat) : (s.setBits n).hostDraws = s.hostDraws := rfl
@[simp] theorem State.setBits_readData (n : Nat) : (s.setBits n).readData = s.readData := rfl
@[simp] theorem State.setBits_pending (n : Nat) : (s.setBits n).pending = s.pending := rfl
@[simp] theorem State.setBits_cfg (n : Nat) : (s.setBits n).cfg = s.cfg := rfl

/-! ## setBytes -/

@[simp] theorem State.setBytes_status (n : Nat) : (s.setBytes n).status = s.status := rfl
@[simp] theorem State.setBytes_cause (n : Nat) : (s.setBytes n).cause = s.cause := rfl
@[simp] theorem State.setBytes_causeIndex (n : Nat) : (s.setBytes n).causeIndex = s.causeIndex := rfl
@[simp] theorem State.setBytes_resOffset (n : Nat) : (s.setBytes n).resOffset = s.resOffset := rfl
@[simp] theorem State.setBytes_resBits (n : Nat) : (s.setBytes n).resBits = s.resBits := rfl
@[simp] theorem State.setBytes_resBytes (n : Nat) : (s.setBytes n).resBytes = BitVec.ofNat 8 n := rfl
@[simp] theorem State.setBytes_resCode (n : Nat) : (s.setBytes n).resCode = s.resCode := rfl
@[simp] theorem State.setBytes_inp (n : Nat) : (s.setBytes n).inp = s.inp := rfl
@[simp] theorem State.setBytes_src (n : Nat) : (s.setBytes n).src = s.src := rfl
@[simp] theorem State.setBytes_vin (n : Nat) : (s.setBytes n).vin = s.vin := rfl
@[simp] theorem State.setBytes_oid (n : Nat) : (s.setBytes n).oid = s.oid := rfl
@[simp] theorem State.setBytes_data (n : Nat) : (s.setBytes n).data = s.data := rfl
@[simp] theorem State.setBytes_buf (n : Nat) : (s.setBytes n).buf = s.buf := rfl
@[simp] theorem State.setBytes_bufEpoch (n : Nat) : (s.setBytes n).bufEpoch = s.bufEpoch := rfl
@[simp] theorem State.setBytes_hostDraws (n : Nat) : (s.setBytes n).hostDraws = s.hostDraws := rfl
@[simp] theorem State.setBytes_readData (n : Nat) : (s.setBytes n).readData = s.readData := rfl
@[simp] theorem State.setBytes_pending (n : Nat) : (s.setBytes n).pending = s.pending := rfl
@[simp] theorem State.setBytes_cfg (n : Nat) : (s.setBytes n).cfg = s.cfg := rfl

/-! ## setCode -/

@[simp] theorem State.setCode_status (c : BitVec 8) : (s.setCode c).status = s.status := rfl
@[simp] theorem State.setCode_cause (c : BitVec 8) : (s.setCode c).cause = s.cause := rfl
@[simp] theorem State.setCode_causeIndex (c : BitVec 8) : (s.setCode c).causeIndex = s.causeIndex := rfl
@[simp] theorem State.setCode_resOffset (c : BitVec 8) : (s.setCode c).resOffset = s.resOffset := rfl
@[simp] theorem State.setCode_resBits (c : BitVec 8) : (s.setCode c).resBits = s.resBits := rfl
@[simp] theorem State.setCode_resBytes (c : BitVec 8) : (s.setCode c).resBytes = s.resBytes := rfl
@[simp] theorem State.setCode_resCode (c : BitVec 8) : (s.setCode c).resCode = c := rfl
@[simp] theorem State.setCode_inp (c : BitVec 8) : (s.setCode c).inp = s.inp := rfl
@[simp] theorem State.setCode_src (c : BitVec 8) : (s.setCode c).src = s.src := rfl
@[simp] theorem State.setCode_vin (c : BitVec 8) : (s.setCode c).vin = s.vin := rfl
@[simp] theorem State.setCode_oid (c : BitVec 8) : (s.setCode c).oid = s.oid := rfl
@[simp] theorem State.setCode_data (c : BitVec 8) : (s.setCode c).data = s.data := rfl
@[simp] theorem State.setCode_buf (c : BitVec 8) : (s.setCode c).buf = s.buf := rfl
@[simp] theorem State.setCode_bufEpoch (c : BitVec 8) : (s.setCode c).bufEpoch = s.bufEpoch := rfl
@[simp] theorem State.setCode_hostDraws (c : BitVec 8) : (s.setCode c).hostDraws = s.hostDraws := rfl
@[simp] theorem State.setCode_readData (c : BitVec 8) : (s.setCode c).readData = s.readData := rfl
@[simp] theorem State.setCode_pending (c : BitVec 8) : (s.setCode c).pending = s.pending := rfl
@[simp] theorem State.setCode_cfg (c : BitVec 8) : (s.setCode c).cfg = s.cfg := rfl

/-! ## raiseFail -/

@[simp] theorem State.raiseFail_status (c : Cause) (i : Nat) : (s.raiseFail c i).status = 1 := rfl
@[simp] theorem State.raiseFail_cause (c : Cause) (i : Nat) : (s.raiseFail c i).cause = c.code := rfl
@[simp] theorem State.raiseFail_causeIndex (c : Cause) (i : Nat) : (s.raiseFail c i).causeIndex = BitVec.ofNat 8 i := rfl
@[simp] theorem State.raiseFail_resOffset (c : Cause) (i : Nat) : (s.raiseFail c i).resOffset = s.resOffset := rfl
@[simp] theorem State.raiseFail_resBits (c : Cause) (i : Nat) : (s.raiseFail c i).resBits = 0 := rfl
@[simp] theorem State.raiseFail_resBytes (c : Cause) (i : Nat) : (s.raiseFail c i).resBytes = 0 := rfl
@[simp] theorem State.raiseFail_resCode (c : Cause) (i : Nat) : (s.raiseFail c i).resCode = s.resCode := rfl
@[simp] theorem State.raiseFail_inp (c : Cause) (i : Nat) : (s.raiseFail c i).inp = s.inp := rfl
@[simp] theorem State.raiseFail_src (c : Cause) (i : Nat) : (s.raiseFail c i).src = s.src := rfl
@[simp] theorem State.raiseFail_vin (c : Cause) (i : Nat) : (s.raiseFail c i).vin = s.vin := rfl
@[simp] theorem State.raiseFail_oid (c : Cause) (i : Nat) : (s.raiseFail c i).oid = s.oid := rfl
@[simp] theorem State.raiseFail_data (c : Cause) (i : Nat) : (s.raiseFail c i).data = s.data := rfl
@[simp] theorem State.raiseFail_buf (c : Cause) (i : Nat) : (s.raiseFail c i).buf = [] := rfl
@[simp] theorem State.raiseFail_bufEpoch (c : Cause) (i : Nat) : (s.raiseFail c i).bufEpoch = s.bufEpoch + 1 := rfl
@[simp] theorem State.raiseFail_hostDraws (c : Cause) (i : Nat) : (s.raiseFail c i).hostDraws = s.hostDraws := rfl
@[simp] theorem State.raiseFail_readData (c : Cause) (i : Nat) : (s.raiseFail c i).readData = s.readData := rfl
@[simp] theorem State.raiseFail_pending (c : Cause) (i : Nat) : (s.raiseFail c i).pending = s.pending := rfl
@[simp] theorem State.raiseFail_cfg (c : Cause) (i : Nat) : (s.raiseFail c i).cfg = s.cfg := rfl

/-! ## setDiag -/

@[simp] theorem State.setDiag_status (p v : BitVec 21) : (s.setDiag p v).status = s.status := rfl
@[simp] theorem State.setDiag_cause (p v : BitVec 21) : (s.setDiag p v).cause = s.cause := rfl
@[simp] theorem State.setDiag_causeIndex (p v : BitVec 21) : (s.setDiag p v).causeIndex = s.causeIndex := rfl
@[simp] theorem State.setDiag_resOffset (p v : BitVec 21) : (s.setDiag p v).resOffset = s.resOffset := rfl
@[simp] theorem State.setDiag_resBits (p v : BitVec 21) : (s.setDiag p v).resBits = s.resBits := rfl
@[simp] theorem State.setDiag_resBytes (p v : BitVec 21) : (s.setDiag p v).resBytes = s.resBytes := rfl
@[simp] theorem State.setDiag_resCode (p v : BitVec 21) : (s.setDiag p v).resCode = s.resCode := rfl
@[simp] theorem State.setDiag_inp (p v : BitVec 21) : (s.setDiag p v).inp = { s.inp with eraDiagPres := some p, eraDiagVal := some v, eraDiagPresent := some 1 } := rfl
@[simp] theorem State.setDiag_src (p v : BitVec 21) : (s.setDiag p v).src = s.src := rfl
@[simp] theorem State.setDiag_vin (p v : BitVec 21) : (s.setDiag p v).vin = s.vin := rfl
@[simp] theorem State.setDiag_oid (p v : BitVec 21) : (s.setDiag p v).oid = s.oid := rfl
@[simp] theorem State.setDiag_data (p v : BitVec 21) : (s.setDiag p v).data = s.data := rfl
@[simp] theorem State.setDiag_buf (p v : BitVec 21) : (s.setDiag p v).buf = s.buf := rfl
@[simp] theorem State.setDiag_bufEpoch (p v : BitVec 21) : (s.setDiag p v).bufEpoch = s.bufEpoch := rfl
@[simp] theorem State.setDiag_hostDraws (p v : BitVec 21) : (s.setDiag p v).hostDraws = s.hostDraws := rfl
@[simp] theorem State.setDiag_readData (p v : BitVec 21) : (s.setDiag p v).readData = s.readData := rfl
@[simp] theorem State.setDiag_pending (p v : BitVec 21) : (s.setDiag p v).pending = s.pending := rfl
@[simp] theorem State.setDiag_cfg (p v : BitVec 21) : (s.setDiag p v).cfg = s.cfg := rfl

/-! ## setCrash -/

@[simp] theorem State.setCrash_status (p v : BitVec 6) : (s.setCrash p v).status = s.status := rfl
@[simp] theorem State.setCrash_cause (p v : BitVec 6) : (s.setCrash p v).cause = s.cause := rfl
@[simp] theorem State.setCrash_causeIndex (p v : BitVec 6) : (s.setCrash p v).causeIndex = s.causeIndex := rfl
@[simp] theorem State.setCrash_resOffset (p v : BitVec 6) : (s.setCrash p v).resOffset = s.resOffset := rfl
@[simp] theorem State.setCrash_resBits (p v : BitVec 6) : (s.setCrash p v).resBits = s.resBits := rfl
@[simp] theorem State.setCrash_resBytes (p v : BitVec 6) : (s.setCrash p v).resBytes = s.resBytes := rfl
@[simp] theorem State.setCrash_resCode (p v : BitVec 6) : (s.setCrash p v).resCode = s.resCode := rfl
@[simp] theorem State.setCrash_inp (p v : BitVec 6) : (s.setCrash p v).inp = { s.inp with eraCrashPres := some p, eraCrashVal := some v, eraCrashPresent := some 1 } := rfl
@[simp] theorem State.setCrash_src (p v : BitVec 6) : (s.setCrash p v).src = s.src := rfl
@[simp] theorem State.setCrash_vin (p v : BitVec 6) : (s.setCrash p v).vin = s.vin := rfl
@[simp] theorem State.setCrash_oid (p v : BitVec 6) : (s.setCrash p v).oid = s.oid := rfl
@[simp] theorem State.setCrash_data (p v : BitVec 6) : (s.setCrash p v).data = s.data := rfl
@[simp] theorem State.setCrash_buf (p v : BitVec 6) : (s.setCrash p v).buf = s.buf := rfl
@[simp] theorem State.setCrash_bufEpoch (p v : BitVec 6) : (s.setCrash p v).bufEpoch = s.bufEpoch := rfl
@[simp] theorem State.setCrash_hostDraws (p v : BitVec 6) : (s.setCrash p v).hostDraws = s.hostDraws := rfl
@[simp] theorem State.setCrash_readData (p v : BitVec 6) : (s.setCrash p v).readData = s.readData := rfl
@[simp] theorem State.setCrash_pending (p v : BitVec 6) : (s.setCrash p v).pending = s.pending := rfl
@[simp] theorem State.setCrash_cfg (p v : BitVec 6) : (s.setCrash p v).cfg = s.cfg := rfl

/-! ## returnRead -/

@[simp] theorem State.returnRead_status (v : Nat) : (s.returnRead v).status = s.status := rfl
@[simp] theorem State.returnRead_cause (v : Nat) : (s.returnRead v).cause = s.cause := rfl
@[simp] theorem State.returnRead_causeIndex (v : Nat) : (s.returnRead v).causeIndex = s.causeIndex := rfl
@[simp] theorem State.returnRead_resOffset (v : Nat) : (s.returnRead v).resOffset = s.resOffset := rfl
@[simp] theorem State.returnRead_resBits (v : Nat) : (s.returnRead v).resBits = s.resBits := rfl
@[simp] theorem State.returnRead_resBytes (v : Nat) : (s.returnRead v).resBytes = s.resBytes := rfl
@[simp] theorem State.returnRead_resCode (v : Nat) : (s.returnRead v).resCode = s.resCode := rfl
@[simp] theorem State.returnRead_inp (v : Nat) : (s.returnRead v).inp = s.inp := rfl
@[simp] theorem State.returnRead_src (v : Nat) : (s.returnRead v).src = s.src := rfl
@[simp] theorem State.returnRead_vin (v : Nat) : (s.returnRead v).vin = s.vin := rfl
@[simp] theorem State.returnRead_oid (v : Nat) : (s.returnRead v).oid = s.oid := rfl
@[simp] theorem State.returnRead_data (v : Nat) : (s.returnRead v).data = s.data := rfl
@[simp] theorem State.returnRead_buf (v : Nat) : (s.returnRead v).buf = s.buf := rfl
@[simp] theorem State.returnRead_bufEpoch (v : Nat) : (s.returnRead v).bufEpoch = s.bufEpoch := rfl
@[simp] theorem State.returnRead_hostDraws (v : Nat) : (s.returnRead v).hostDraws = s.hostDraws := rfl
@[simp] theorem State.returnRead_readData (v : Nat) : (s.returnRead v).readData = BitVec.ofNat 64 v := rfl
@[simp] theorem State.returnRead_pending (v : Nat) : (s.returnRead v).pending = s.pending := rfl
@[simp] theorem State.returnRead_cfg (v : Nat) : (s.returnRead v).cfg = s.cfg := rfl

/-! ## drawRead -/

@[simp] theorem State.drawRead_status (w : Nat) : (s.drawRead w).status = s.status := rfl
@[simp] theorem State.drawRead_cause (w : Nat) : (s.drawRead w).cause = s.cause := rfl
@[simp] theorem State.drawRead_causeIndex (w : Nat) : (s.drawRead w).causeIndex = s.causeIndex := rfl
@[simp] theorem State.drawRead_resOffset (w : Nat) : (s.drawRead w).resOffset = s.resOffset := rfl
@[simp] theorem State.drawRead_resBits (w : Nat) : (s.drawRead w).resBits = s.resBits := rfl
@[simp] theorem State.drawRead_resBytes (w : Nat) : (s.drawRead w).resBytes = s.resBytes := rfl
@[simp] theorem State.drawRead_resCode (w : Nat) : (s.drawRead w).resCode = s.resCode := rfl
@[simp] theorem State.drawRead_inp (w : Nat) : (s.drawRead w).inp = s.inp := rfl
@[simp] theorem State.drawRead_src (w : Nat) : (s.drawRead w).src = s.src := rfl
@[simp] theorem State.drawRead_vin (w : Nat) : (s.drawRead w).vin = s.vin := rfl
@[simp] theorem State.drawRead_oid (w : Nat) : (s.drawRead w).oid = s.oid := rfl
@[simp] theorem State.drawRead_data (w : Nat) : (s.drawRead w).data = s.data := rfl
@[simp] theorem State.drawRead_buf (w : Nat) : (s.drawRead w).buf = s.buf := rfl
@[simp] theorem State.drawRead_bufEpoch (w : Nat) : (s.drawRead w).bufEpoch = s.bufEpoch := rfl
@[simp] theorem State.drawRead_hostDraws (w : Nat) : (s.drawRead w).hostDraws = s.hostDraws + 1 := rfl
@[simp] theorem State.drawRead_readData (w : Nat) : (s.drawRead w).readData = BitVec.ofNat 64 ((Config.hostDraw s.hostDraws).toNat % 2 ^ w) := rfl
@[simp] theorem State.drawRead_pending (w : Nat) : (s.drawRead w).pending = s.pending := rfl
@[simp] theorem State.drawRead_cfg (w : Nat) : (s.drawRead w).cfg = s.cfg := rfl

/-! ## setArr: one array, and no other field -/

@[simp] theorem State.setArr_status (a : ArrId) (m : Memory) : (s.setArr a m).status = s.status := by cases a <;> rfl
@[simp] theorem State.setArr_cause (a : ArrId) (m : Memory) : (s.setArr a m).cause = s.cause := by cases a <;> rfl
@[simp] theorem State.setArr_causeIndex (a : ArrId) (m : Memory) : (s.setArr a m).causeIndex = s.causeIndex := by cases a <;> rfl
@[simp] theorem State.setArr_resOffset (a : ArrId) (m : Memory) : (s.setArr a m).resOffset = s.resOffset := by cases a <;> rfl
@[simp] theorem State.setArr_resBits (a : ArrId) (m : Memory) : (s.setArr a m).resBits = s.resBits := by cases a <;> rfl
@[simp] theorem State.setArr_resBytes (a : ArrId) (m : Memory) : (s.setArr a m).resBytes = s.resBytes := by cases a <;> rfl
@[simp] theorem State.setArr_resCode (a : ArrId) (m : Memory) : (s.setArr a m).resCode = s.resCode := by cases a <;> rfl
@[simp] theorem State.setArr_inp (a : ArrId) (m : Memory) : (s.setArr a m).inp = s.inp := by cases a <;> rfl
@[simp] theorem State.setArr_src (a : ArrId) (m : Memory) :
    (s.setArr a m).src = if a = .src then m else s.src := by cases a <;> rfl
@[simp] theorem State.setArr_vin (a : ArrId) (m : Memory) :
    (s.setArr a m).vin = if a = .vin then m else s.vin := by cases a <;> rfl
@[simp] theorem State.setArr_oid (a : ArrId) (m : Memory) :
    (s.setArr a m).oid = if a = .oid then m else s.oid := by cases a <;> rfl
@[simp] theorem State.setArr_data (a : ArrId) (m : Memory) :
    (s.setArr a m).data = if a = .data then m else s.data := by cases a <;> rfl
@[simp] theorem State.setArr_buf (a : ArrId) (m : Memory) :
    (s.setArr a m).buf = if a = .buf then m else s.buf := by cases a <;> rfl
@[simp] theorem State.setArr_bufEpoch (a : ArrId) (m : Memory) : (s.setArr a m).bufEpoch = s.bufEpoch := by cases a <;> rfl
@[simp] theorem State.setArr_hostDraws (a : ArrId) (m : Memory) : (s.setArr a m).hostDraws = s.hostDraws := by cases a <;> rfl
@[simp] theorem State.setArr_readData (a : ArrId) (m : Memory) : (s.setArr a m).readData = s.readData := by cases a <;> rfl
@[simp] theorem State.setArr_pending (a : ArrId) (m : Memory) : (s.setArr a m).pending = s.pending := by cases a <;> rfl
@[simp] theorem State.setArr_cfg (a : ArrId) (m : Memory) : (s.setArr a m).cfg = s.cfg := by cases a <;> rfl
@[simp] theorem State.arr_setArr (a b : ArrId) (m : Memory) :
    (s.setArr a m).arr b = if a = b then m else s.arr b := by cases a <;> cases b <;> rfl

end Sys2Proof.Machine
end

