-- ==== Sys2Proof/Laws/Memory.lean ====
section
/-! SUPPORT. The array operations: what a read gives after a write, and that every write keeps the canonical form. -/

namespace Sys2Proof.Machine

@[simp] theorem Memory.read_nil (i : Nat) : Memory.read [] i = none := rfl

/-- A read after a write: the value written at its index, and every other index as before. -/
@[simp] theorem Memory.read_write (m : Memory) (i j : Nat) (v : Byte) :
    Memory.read (Memory.write m i v) j = if i = j then some v else Memory.read m j := by
  induction m with
  | nil => simp [Memory.write, Memory.read]
  | cons c m ih =>
    obtain ⟨a, b⟩ := c
    simp only [Memory.write]
    split
    · simp [Memory.read]
    · split
      · next h => subst h; simp only [Memory.read]; split <;> simp_all
      · simp only [Memory.read, ih]
        by_cases haj : a = j <;> by_cases hij : i = j <;> simp_all

/-- A list that rises from a bound rises from any lower one. -/
theorem Memory.risesFrom_mono {cap lo lo' : Nat} {m : Memory} (h : Memory.risesFrom cap lo m = true) (hl : lo' ≤ lo) :
    Memory.risesFrom cap lo' m = true := by
  cases m with
  | nil => rfl
  | cons c m =>
    simp only [Memory.risesFrom, Bool.and_eq_true, decide_eq_true_eq] at h ⊢
    exact ⟨⟨by omega, h.1.2⟩, h.2⟩

theorem Memory.risesFrom_write {cap : Nat} (m : Memory) (lo i : Nat) (v : Byte)
    (h : Memory.risesFrom cap lo m = true) (hlo : lo ≤ i) (hi : i < cap) :
    Memory.risesFrom cap lo (Memory.write m i v) = true := by
  induction m generalizing lo with
  | nil => simp [Memory.write, Memory.risesFrom, hlo, hi]
  | cons c m ih =>
    obtain ⟨a, b⟩ := c
    simp only [Memory.risesFrom, Bool.and_eq_true, decide_eq_true_eq] at h
    simp only [Memory.write]
    split
    · simp [Memory.risesFrom, h.1.2, h.2, hlo, hi]; omega
    · split
      · next h2 => subst h2; simp [Memory.risesFrom, h.2, hlo, hi]
      · simp only [Memory.risesFrom, Bool.and_eq_true, decide_eq_true_eq]
        exact ⟨h.1, ih (a + 1) h.2 (by omega)⟩

/-- Every write inside the array keeps its canonical form. -/
theorem Memory.wf_write {cap : Nat} {m : Memory} {i : Nat} (v : Byte) (h : Memory.wf cap m = true) (hi : i < cap) :
    Memory.wf cap (Memory.write m i v) = true :=
  Memory.risesFrom_write m 0 i v h (Nat.zero_le _) hi

@[simp] theorem Memory.wf_nil (cap : Nat) : Memory.wf cap [] = true := rfl

/-- An array in canonical form lists nothing past its end. -/
theorem Memory.read_of_risesFrom {cap lo : Nat} {m : Memory} (h : Memory.risesFrom cap lo m = true) {i : Nat}
    (hi : i < lo ∨ cap ≤ i) : Memory.read m i = none := by
  induction m generalizing lo with
  | nil => rfl
  | cons c m ih =>
    obtain ⟨a, b⟩ := c
    simp only [Memory.risesFrom, Bool.and_eq_true, decide_eq_true_eq] at h
    simp only [Memory.read]
    rw [if_neg (by omega)]
    exact ih h.2 (by omega)

/-- In canonical form, equal contents are equal data. -/
theorem Memory.ext_of_risesFrom {cap lo : Nat} {m n : Memory} (hm : Memory.risesFrom cap lo m = true)
    (hn : Memory.risesFrom cap lo n = true) (h : ∀ i, Memory.read m i = Memory.read n i) : m = n := by
  induction m generalizing lo n with
  | nil =>
    cases n with
    | nil => rfl
    | cons c n => have := h c.1; simp [Memory.read] at this
  | cons c m ih =>
    obtain ⟨a, b⟩ := c
    cases n with
    | nil => have := h a; simp [Memory.read] at this
    | cons d n =>
      obtain ⟨a', b'⟩ := d
      simp only [Memory.risesFrom, Bool.and_eq_true, decide_eq_true_eq] at hm hn
      have haa : a = a' := by
        rcases Nat.lt_trichotomy a a' with hlt | heq | hgt
        · have := h a
          rw [Memory.read, if_pos rfl, Memory.read, if_neg (by omega),
            Memory.read_of_risesFrom hn.2 (.inl (by omega))] at this
          cases this
        · exact heq
        · have := h a'
          rw [Memory.read, if_neg (by omega), Memory.read, if_pos rfl,
            Memory.read_of_risesFrom hm.2 (.inl (by omega))] at this
          cases this
      subst haa
      have hb := h a
      simp only [Memory.read, if_true, Option.some.injEq] at hb
      subst hb
      congr 1
      refine ih hm.2 hn.2 (fun i => ?_)
      by_cases hi : i ≤ a
      · rw [Memory.read_of_risesFrom hm.2 (.inl (by omega)), Memory.read_of_risesFrom hn.2 (.inl (by omega))]
      · have := h i
        rwa [Memory.read, if_neg (by omega), Memory.read, if_neg (by omega)] at this

end Sys2Proof.Machine
end

