-- ==== Sys2Proof/Laws/Bits.lean ====
section
/-! SUPPORT. The bits of a value in stream order, the bytes of a stream, one bit of a byte, and the gathered bits of a mask. -/

namespace Sys2Proof.Machine

@[simp] theorem bitsOf_length (n v : Nat) : (bitsOf n v).length = n := by
  induction n with
  | zero => rfl
  | succ n ih => simp [bitsOf, ih]

/-- Bit `j` of the stream of a value is its bit `n - 1 - j`: the most significant bit comes first (R52). -/
theorem bitsOf_getElem? (n v j : Nat) (h : j < n) : (bitsOf n v)[j]? = some (v.testBit (n - 1 - j)) := by
  induction n generalizing j with
  | zero => omega
  | succ n ih =>
    cases j with
    | zero => simp [bitsOf]
    | succ j =>
      simp only [bitsOf, List.getElem?_cons_succ]
      rw [ih j (by omega)]
      congr 2
      omega

/-- The stream of a value as a list over its positions. -/
theorem bitsOf_eq_map (n v : Nat) : bitsOf n v = (List.range n).map (fun j => v.testBit (n - 1 - j)) := by
  apply List.ext_getElem?
  intro j
  by_cases h : j < n
  · rw [bitsOf_getElem? n v j h]; simp [h]
  · simp [h]

/-- The bits of a value split at any place: the high part first (R55). -/
theorem bitsOf_add (n k v : Nat) : bitsOf (n + k) v = bitsOf n (v / 2 ^ k) ++ bitsOf k v := by
  induction n with
  | zero => simp [bitsOf]
  | succ n ih =>
    rw [show n + 1 + k = (n + k) + 1 by omega]
    simp [bitsOf, ih, Nat.testBit_div_two_pow]

@[simp] theorem bitsOfBytes_length (bs : List Byte) : (bitsOfBytes bs).length = 8 * bs.length := by
  induction bs with
  | nil => rfl
  | cons b bs ih => simp [bitsOfBytes] at ih ⊢; omega

@[simp] theorem bitsOfBytes_nil : bitsOfBytes [] = [] := rfl

@[simp] theorem bitsOfBytes_cons (b : Byte) (bs : List Byte) :
    bitsOfBytes (b :: bs) = bitsOf 8 b.toNat ++ bitsOfBytes bs := by
  simp [bitsOfBytes]

/-- Bit `j` of whole bytes in order: bit `7 - j mod 8` of byte `j div 8` (R57). -/
theorem bitsOfBytes_getElem? (bs : List Byte) (j : Nat) (h : j < 8 * bs.length) :
    (bitsOfBytes bs)[j]? = some ((bs[j / 8]?.getD 0).getLsbD (7 - j % 8)) := by
  induction bs generalizing j with
  | nil => simp at h
  | cons b bs ih =>
    rw [bitsOfBytes_cons]
    by_cases hj : j < 8
    · rw [List.getElem?_append_left (by simpa using hj), bitsOf_getElem? _ _ _ hj,
        Nat.div_eq_of_lt hj, Nat.mod_eq_of_lt hj]
      simp [BitVec.getLsbD]
    · rw [List.getElem?_append_right (by simp; omega)]
      simp only [List.length_cons] at h
      simp only [bitsOf_length]
      rw [ih (j - 8) (by omega)]
      have h1 : j / 8 = (j - 8) / 8 + 1 := by omega
      have h2 : (j - 8) % 8 = j % 8 := by omega
      rw [h1, h2]
      simp

/-- One bit of a byte after one of its bits is replaced. -/
theorem setBit_getLsbD (x : Byte) (k j : Nat) (b : Bool) (hk : k < 8) (hj : j < 8) :
    (setBit x k b).getLsbD j = if j = k then b else x.getLsbD j := by
  have h1 : (1#8).getLsbD (j - k) = decide (j - k = 0) := by
    rw [BitVec.getLsbD_one]
    simp
  unfold setBit
  cases b <;> simp only [cond_true, cond_false, BitVec.getLsbD_or, BitVec.getLsbD_and, BitVec.getLsbD_not,
    BitVec.getLsbD_shiftLeft, h1] <;> by_cases hjk : j = k <;> by_cases hlt : j < k <;>
    simp [hj, hjk, hlt] <;> omega

theorem gather_testBit {w : Nat} (m : BitVec w) (ps : List Nat) (k : Nat) :
    (gather m ps).testBit k = (match ps[k]? with | some p => m.getLsbD p | none => false) := by
  induction ps generalizing k with
  | nil => simp [gather]
  | cons p ps ih =>
    cases k with
    | zero =>
      simp only [gather, List.getElem?_cons_zero, Nat.testBit_zero]
      cases m.getLsbD p <;> simp
    | succ k =>
      simp only [gather, List.getElem?_cons_succ, Nat.testBit_succ]
      rw [show ((m.getLsbD p).toNat + 2 * gather m ps) / 2 = gather m ps by
        cases m.getLsbD p
        · simp
        · simp; omega]
      exact ih k

/-- The binary digits of a number made from a list, most significant first. -/
theorem natOfBits_append (bs : List Bool) (b : Bool) : natOfBits (bs ++ [b]) = 2 * natOfBits bs + b.toNat := by
  simp [natOfBits, List.foldl_append]

theorem natOfBits_testBit (bs : List Bool) (k : Nat) :
    (natOfBits bs).testBit k = if k < bs.length then (bs[bs.length - 1 - k]?).getD false else false := by
  induction bs using List.reverseRecOn generalizing k with
  | nil => simp [natOfBits]
  | append_singleton bs b ih =>
    rw [natOfBits_append]
    cases k with
    | zero =>
      simp only [Nat.testBit_zero, List.length_append, List.length_cons, List.length_nil]
      cases b <;> simp
    | succ k =>
      rw [Nat.testBit_succ, show (2 * natOfBits bs + b.toNat) / 2 = natOfBits bs by
        cases b
        · simp
        · simp; omega, ih]
      by_cases h : k < bs.length
      · rw [if_pos h, if_pos (by simp; omega), List.getElem?_append_left (by simp; omega)]
        congr 2
        simp
        omega
      · rw [if_neg h, if_neg (by simp; omega)]

/-- Bit `7 - k` of byte `i` of a stream is the bit at position `8 i + k` (R9); past the end it is 0. -/
theorem streamByte_getLsbD (bs : List Bool) (i k : Nat) (hk : k < 8) :
    (streamByte bs i).getLsbD (7 - k) = (bs[8 * i + k]?).getD false := by
  unfold streamByte
  rw [BitVec.getLsbD_ofNat, natOfBits_testBit]
  have h7 : 7 - k < 8 := by omega
  have h8 : 7 - (7 - k) = k := by omega
  simp [h7, hk, h8]

end Sys2Proof.Machine
end

