-- ==== Sys2Proof/Laws/Buf.lean ====
section
/-! SUPPORT. The bit writer of BUF: what every bit of BUF is after a run of bits is put, and that BUF keeps its form. -/

namespace Sys2Proof.Machine

@[simp] theorem writtenBit_overwrite (old b : Bool) : writtenBit .overwrite old b = b := by
  simp [writtenBit]

@[simp] theorem writtenBit_or (old b : Bool) : writtenBit .or old b = (old || b) := by
  simp [writtenBit, Bool.or_comm]

@[simp] theorem writtenBit_false (mode : WriteMode) (b : Bool) : writtenBit mode false b = b := by
  simp [writtenBit]

/-- Writing a bit a second time changes nothing, in either mode. -/
@[simp] theorem writtenBit_idem (mode : WriteMode) (old b : Bool) :
    writtenBit mode (writtenBit mode old b) b = writtenBit mode old b := by
  cases mode <;> cases old <;> cases b <;> rfl

theorem bufByteOf_write (epoch : Nat) (m : Memory) (i j : Nat) (v : Byte) :
    bufByteOf epoch (Memory.write m i v) j = if i = j then v else bufByteOf epoch m j := by
  simp only [bufByteOf, Memory.read_write]
  split <;> rfl

/-- PutBit writes the bit at its position, if BUF has it, and no other (R53, R54). -/
theorem bufBitOf_putBit (mode : WriteMode) (epoch : Nat) (m : Memory) (p q : Nat) (b : Bool) :
    bufBitOf epoch (putBit mode epoch m p b) q
      = if p = q ∧ p < 1120 then writtenBit mode (bufBitOf epoch m q) b else bufBitOf epoch m q := by
  unfold putBit
  split
  · next hp =>
    unfold maxBits at hp
    conv_lhs => unfold bufBitOf
    rw [bufByteOf_write]
    by_cases hb : p / 8 = q / 8
    · rw [if_pos hb, setBit_getLsbD _ _ _ _ (by omega) (by omega)]
      by_cases hpq : p = q
      · subst hpq; simp [hp, bufBitOf]
      · rw [if_neg (by omega), if_neg (by omega), hb]; rfl
    · rw [if_neg hb, if_neg (by intro h; exact hb (by rw [h.1]))]; rfl
  · next hp =>
    unfold maxBits at hp
    rw [if_neg (by omega)]

/-- A run of bits put at `p`: the bits at positions `p` to `p + length - 1` that BUF has are written, and no other. -/
theorem bufBitOf_putBits (mode : WriteMode) (epoch : Nat) (m : Memory) (p q : Nat) (bs : List Bool) :
    bufBitOf epoch (putBits mode epoch m p bs) q
      = if p ≤ q ∧ q < p + bs.length ∧ q < 1120
        then writtenBit mode (bufBitOf epoch m q) ((bs[q - p]?).getD false) else bufBitOf epoch m q := by
  induction bs generalizing m p with
  | nil => simp only [putBits, List.length_nil]; rw [if_neg (by omega)]
  | cons b bs ih =>
    simp only [putBits, ih, bufBitOf_putBit, List.length_cons]
    by_cases hpq : p = q
    · subst hpq
      rw [if_neg (by omega)]
      simp
    · rw [if_neg (by omega : ¬(p = q ∧ p < 1120))]
      by_cases h : p + 1 ≤ q ∧ q < p + 1 + bs.length ∧ q < 1120
      · rw [if_pos h, if_pos (by omega), show q - p = (q - (p + 1)) + 1 by omega]
        simp
      · rw [if_neg h, if_neg (by omega)]

/-- Two runs one after the other are one run. -/
theorem putBits_append (mode : WriteMode) (epoch : Nat) (m : Memory) (p : Nat) (as bs : List Bool) :
    putBits mode epoch m p (as ++ bs) = putBits mode epoch (putBits mode epoch m p as) (p + as.length) bs := by
  induction as generalizing m p with
  | nil => simp [putBits]
  | cons a as ih =>
    simp only [List.cons_append, putBits, ih, List.length_cons]
    congr 1
    omega

theorem wf_putBit {mode : WriteMode} {epoch : Nat} {m : Memory} (p : Nat) (b : Bool) (h : Memory.wf 140 m = true) :
    Memory.wf 140 (putBit mode epoch m p b) = true := by
  unfold putBit
  split
  · next hp => exact Memory.wf_write _ h (by unfold maxBits at hp; omega)
  · exact h

/-- The bit writer keeps the canonical form of BUF. -/
theorem wf_putBits {mode : WriteMode} {epoch : Nat} {m : Memory} (p : Nat) (bs : List Bool)
    (h : Memory.wf 140 m = true) : Memory.wf 140 (putBits mode epoch m p bs) = true := by
  induction bs generalizing m p with
  | nil => exact h
  | cons b bs ih => exact ih (p + 1) (wf_putBit p b h)

/-- A bit of BUF after bits are appended. -/
theorem State.bufBit_emit (s : State) (p q : Nat) (bs : List Bool) :
    (s.emit p bs).bufBit q
      = if p ≤ q ∧ q < p + bs.length ∧ q < 1120
        then writtenBit s.cfg.writeMode (s.bufBit q) ((bs[q - p]?).getD false) else s.bufBit q :=
  bufBitOf_putBits _ _ _ _ _ _

/-- After a failure every byte of BUF is a byte of a new draw (R203). -/
theorem State.bufByte_raiseFail (s : State) (c : Cause) (i k : Nat) :
    (s.raiseFail c i).bufByte k = Config.bufDraw (s.bufEpoch + 1) k := rfl

end Sys2Proof.Machine
end

