-- ==== Sys2Proof/Laws/Enc.lean ====
section
/-! SUPPORT. How a computation over the inputs ends: one predicate with a rule for each operation, and the inversion of
`conclude`, the end of a command. -/

namespace Sys2Proof.Machine

/-- Every way `r` can end: a fault names an input of `P`, a failure is one of `Q`, a value satisfies `R`. -/
def Ends {α : Type} (P : Source → Prop) (Q : Cause → Nat → Prop) (R : α → Prop) (r : Enc α) : Prop :=
  match r with
  | .ok a => R a
  | .error (.fail c i) => Q c i
  | .error (.fault (.unwrittenInput src)) => P src

variable {α β : Type} {P : Source → Prop} {Q : Cause → Nat → Prop}

@[simp] theorem Ends_ok {R : α → Prop} (a : α) : Ends P Q R (.ok a : Enc α) ↔ R a := Iff.rfl

@[simp] theorem Ends_pure {R : α → Prop} (a : α) : Ends P Q R (pure a : Enc α) ↔ R a := Iff.rfl

@[simp] theorem Ends_throw_fail {R : α → Prop} (c : Cause) (i : Nat) :
    Ends P Q R (throw (Stop.fail c i) : Enc α) ↔ Q c i := Iff.rfl

theorem Ends.bind {R : α → Prop} {R' : β → Prop} {r : Enc α} {f : α → Enc β}
    (h : Ends P Q R r) (hf : ∀ a, R a → Ends P Q R' (f a)) : Ends P Q R' (r >>= f) := by
  cases r with
  | ok a => exact hf a h
  | error e => cases e with
    | fail c i => exact h
    | fault f => cases f; exact h

theorem Ends.mono {R R' : α → Prop} {P' : Source → Prop} {Q' : Cause → Nat → Prop} {r : Enc α}
    (h : Ends P Q R r) (hP : ∀ x, P x → P' x) (hQ : ∀ c i, Q c i → Q' c i) (hR : ∀ a, R a → R' a) :
    Ends P' Q' R' r := by
  cases r with
  | ok a => exact hR a h
  | error e => cases e with
    | fail c i => exact hQ c i h
    | fault f => cases f; exact hP _ h

theorem Ends_ite {R : α → Prop} {c : Prop} [Decidable c] {a b : Enc α}
    (h1 : c → Ends P Q R a) (h2 : ¬c → Ends P Q R b) : Ends P Q R (if c then a else b) := by
  split
  · exact h1 ‹_›
  · exact h2 ‹_›

/-- An input is read, or the fault names it and it was not there. -/
theorem Ends_need {R : α → Prop} {src : Source} {v : Option α} (hn : v = none → P src) (hs : ∀ a, v = some a → R a) :
    Ends P Q R (need src v) := by
  cases v with
  | none => exact hn rfl
  | some a => exact hs a rfl

/-- A command that concludes with a next state completed with its value or raised its failure. -/
theorem conclude_eq_next {r : Enc α} {s t : State} {k : α → State} :
    conclude r s k = .next t ↔ (∃ a, r = .ok a ∧ t = k a) ∨ (∃ c i, r = .error (.fail c i) ∧ t = s.raiseFail c i) := by
  cases r with
  | ok a => simp [conclude, eq_comm]
  | error e => cases e with
    | fail c i => simp [conclude, eq_comm]
    | fault f => simp [conclude]

theorem conclude_eq_fault {r : Enc α} {s : State} {k : α → State} {f : Fault} :
    conclude r s k = .fault f ↔ r = .error (.fault f) := by
  cases r with
  | ok a => simp [conclude]
  | error e => cases e with
    | fail c i => simp [conclude]
    | fault g => simp [conclude]

theorem conclude_ne_refused {r : Enc α} {s : State} {k : α → State} {x : Refusal} : conclude r s k ≠ .refused x := by
  cases r with
  | ok a => simp [conclude]
  | error e => cases e <;> simp [conclude]

@[simp] theorem need_some (src : Source) (a : α) : need src (some a) = .ok a := rfl

@[simp] theorem need_none (src : Source) : need src (none : Option α) = .error (.fault (.unwrittenInput src)) := rfl

@[simp] theorem ok_bind (a : α) (f : α → Enc β) : ((.ok a : Enc α) >>= f) = f a := rfl

@[simp] theorem error_bind (e : Stop) (f : α → Enc β) : ((.error e : Enc α) >>= f) = .error e := rfl

/-- Bytes that an array holds are read as they are (R57). -/
theorem readBytes_eq {a : ArrId} {s : State} (bs : List Byte) (i : Nat)
    (h : ∀ k, k < bs.length → Memory.read (s.arr a) (i + k) = bs[k]?) : readBytes a s i bs.length = .ok bs := by
  induction bs generalizing i with
  | nil => rfl
  | cons b bs ih =>
    have h0 : Memory.read (s.arr a) i = some b := by simpa using h 0 (by simp)
    have h1 : readBytes a s (i + 1) bs.length = .ok bs := by
      apply ih
      intro k hk
      have := h (k + 1) (by simpa using hk)
      rw [show i + 1 + k = i + (k + 1) by omega]
      simpa using this
    simp only [List.length_cons, readBytes, readByte, h0, need_some, ok_bind, h1]
    rfl

/-- Reading bytes gives that many, or faults on one that is unwritten. -/
theorem Ends_readBytes (a : ArrId) (s : State) (i n : Nat) :
    Ends (fun x => ∃ k, i ≤ k ∧ k < i + n ∧ x = .byte a k ∧ Memory.read (s.arr a) k = none) Q
      (fun bs => bs.length = n) (readBytes a s i n) := by
  induction n generalizing i with
  | zero => simp [readBytes]
  | succ n ih =>
    refine Ends.bind (R := fun _ => True) ?_ (fun b _ => Ends.bind ((ih (i + 1)).mono ?_ (fun _ _ h => h) (fun _ h => h)) ?_)
    · exact Ends_need (fun h => ⟨i, by omega, by omega, rfl, h⟩) (fun _ _ => trivial)
    · rintro x ⟨k, h1, h2, h3⟩; exact ⟨k, by omega, by omega, h3⟩
    · intro bs h; simpa using h

end Sys2Proof.Machine
end

