-- ==== Sys2Proof/Safety.lean ====
section
/-! DEFINITION. The terms that claims about MSDENC are stated in: the invariant of a state, the spec's reading of a bit write,
when an input holds what a claim says, and the two wire formats as the tables of fields that 30_encoding.md R79 and R80
list, with the checks of 60_exceptions.md R206. Nothing here is used by the machine. -/

namespace Sys2Proof.Safety

open Sys2Proof.Machine

/-! ## The invariant -/

/-- Every array is in its canonical form. -/
def memWf (s : State) : Bool :=
  Memory.wf srcBytes s.src && Memory.wf vinLen s.vin && Memory.wf oidCap s.oid && Memory.wf dataCap s.data
    && Memory.wf bufBytes s.buf

/-- A combination of STATUS, CAUSE and CAUSE_INDEX that R200, R201 and R202 allow: CAUSE is of the kind STATUS says, 0x04
(PROPULSION) never stands, and CAUSE_INDEX is at most 16 with cause VIN and 0 otherwise. -/
def outcomeLegal (st c i : BitVec 8) : Bool :=
  (decide (st = 0) && decide (c = 0) && decide (i = 0))
  || (decide (st = 1) && decide (c = 3) && decide (i.toNat ≤ 16))
  || (decide (st = 1) && (decide (c = 1) || decide (c = 2) || (decide (5 ≤ c.toNat) && decide (c.toNat ≤ 12)))
      && decide (i = 0))
  || (decide (st = 2) && (decide (c = 0x20) || decide (c = 0x21)) && decide (i = 0))
  || (decide (st = 3) && (decide (c = 0x10) || decide (c = 0x11)) && decide (i = 0))

/-- The ranges of the result registers: at most 1120 bits (R153, R156) and 140 bytes (R21), and a code of 0 to 32 or 0xFF
(R21). -/
def resultsLegal (s : State) : Bool :=
  decide (s.resBits.toNat ≤ 1120) && decide (s.resBytes.toNat ≤ 140)
    && (decide (s.resCode.toNat ≤ 32) || decide (s.resCode = 0xFF))

/-- The invariant of MSDENC: the parameters keep their conditions, the arrays their form, the outcome and result registers
their codes and ranges. -/
def Inv (s : State) : Prop :=
  s.cfg.valid = true ∧ memWf s = true ∧ outcomeLegal s.status s.cause s.causeIndex = true ∧ resultsLegal s = true

/-! ## Reading the state as the spec does -/

/-- What a bit of BUF becomes when `b` is written over `old`, mode by mode, in the words of R53. -/
def storedBit : WriteMode → Bool → Bool → Bool
  | .overwrite, _, b => b
  | .or, old, b => old || b

/-- An array holds these bytes from index 0 on. -/
def holds (m : Memory) (bs : List Byte) : Prop :=
  ∀ i, i < bs.length → Memory.read m i = bs[i]?

/-- The bit at stream position `p` of bytes laid out by R9. -/
def bitOfBytes (bs : List Byte) (p : Nat) : Bool :=
  (bs[p / 8]?.getD 0).getLsbD (7 - p % 8)

/-- A bit of an array at stream position `p` by R9; an unwritten byte has none. -/
def arrBit (m : Memory) (p : Nat) : Option Bool :=
  (Memory.read m (p / 8)).map (fun b => b.getLsbD (7 - p % 8))

/-- The outcome registers hold OK, NONE, 0 and nothing else differs: the frame of a command that completed. -/
def completed (s : State) : State :=
  { s with status := 0, cause := 0, causeIndex := 0 }

/-- What R204 and R205 leave: the three outcome registers written, everything else as before. -/
def refusedWith (st c : BitVec 8) (s : State) : State :=
  { s with status := st, cause := c, causeIndex := 0 }

/-- An input that no write has defined (R33). A read-only register always holds a value. -/
def unwritten (s : State) : Source → Prop
  | .reg r => Reg.contents s r = none
  | .byte a i => Memory.read (s.arr a) i = none

/-- The inputs a command may read: R100, R104, R121, R154, R180, R191, R193. -/
def mayRead : Instr → Source → Prop
  | .encbits len _, .byte .src i => 0 < len ∧ i < (if len ≤ 8 then 1 else len / 8)
  | .encwide len _, .reg .wide => 0 < len
  | .encmsd, .reg r => 0x10 ≤ Reg.number r ∧ Reg.number r ≤ 0x25
  | .encmsd, .byte .vin i => i < 17
  | .encmsd, .byte .oid i => i < 255
  | .encmsd, .byte .data i => i < 255
  | .encera, .reg r => 0x30 ≤ Reg.number r ∧ Reg.number r ≤ 0x36
  | .mapdiag, .reg .mask => True
  | .mapcrash, .reg .mask => True
  | _, _ => False

/-! ## Fields of a stream -/

/-- One field: its width and the unsigned value in it. -/
abbrev Field := Nat × Nat

/-- The bits of a field, most significant first (R52). -/
def fieldBits (f : Field) : List Bool :=
  (List.range f.1).map (fun j => f.2.testBit (f.1 - 1 - j))

/-- The bits of fields in order. -/
def streamOf (fs : List Field) : List Bool :=
  fs.flatMap fieldBits

/-- How many propulsion flags are set: each is emitted twice (R128). -/
def setFlags (prop : BitVec 6) : Nat :=
  ((List.range 6).filter (fun i => prop.getLsbD i)).length

/-! ## The message (R79) -/

/-- The values of one MSD message. -/
structure Msd where
  version : BitVec 8
  /-- The OID bytes and the raw data bytes, when the optional data is present. -/
  opt : Option (List Byte × List Byte)
  msgid : BitVec 8
  auto : BitVec 1
  test : BitVec 1
  trust : BitVec 1
  vtype : BitVec 8
  vin : List Byte
  prop : BitVec 6
  timestamp : BitVec 32
  lat : BitVec 32
  lon : BitVec 32
  dir : BitVec 8
  /-- The latitude delta and the longitude delta, when present. -/
  n1 : Option (BitVec 16 × BitVec 16)
  n2 : Option (BitVec 16 × BitVec 16)
  pax : Option (BitVec 8)
deriving DecidableEq, Repr

/-- The registers and the VIN array hold the message, and its lists have lengths that the registers can say. -/
def Msd.loaded (m : Msd) (s : State) : Prop :=
  s.inp.version = some m.version ∧ s.inp.msgid = some m.msgid
  ∧ s.inp.ctrlAuto = some m.auto ∧ s.inp.ctrlTest = some m.test ∧ s.inp.ctrlTrust = some m.trust
  ∧ s.inp.vtype = some m.vtype ∧ m.vin.length = 17 ∧ holds s.vin m.vin
  ∧ s.inp.prop = some m.prop ∧ s.inp.timestamp = some m.timestamp
  ∧ s.inp.lat = some m.lat ∧ s.inp.lon = some m.lon ∧ s.inp.dir = some m.dir
  ∧ (match m.opt with
    | none => s.inp.optPresent = some 0
    | some (oid, data) =>
      s.inp.optPresent = some 1 ∧ oid.length ≤ 255 ∧ data.length ≤ 255
      ∧ s.inp.oidLen = some (BitVec.ofNat 8 oid.length) ∧ holds s.oid oid
      ∧ s.inp.dataLen = some (BitVec.ofNat 8 data.length) ∧ holds s.data data)
  ∧ (match m.n1 with
    | none => s.inp.n1Present = some 0
    | some (a, b) => s.inp.n1Present = some 1 ∧ s.inp.n1Dlat = some a ∧ s.inp.n1Dlon = some b)
  ∧ (match m.n2 with
    | none => s.inp.n2Present = some 0
    | some (a, b) => s.inp.n2Present = some 1 ∧ s.inp.n2Dlat = some a ∧ s.inp.n2Dlon = some b)
  ∧ (match m.pax with
    | none => s.inp.paxPresent = some 0
    | some v => s.inp.paxPresent = some 1 ∧ s.inp.pax = some v)

/-- The code of a character: the place of its first occurrence in the table (R120). -/
def codeOf (c : Config) (ch : Byte) : Nat := c.alnumTable.idxOf ch

/-- The two fields of a pair of deltas, if present, after their presence bit (steps 10 and 11 of R79). -/
def recentFields : Option (BitVec 16 × BitVec 16) → List Field
  | none => [(1, 0)]
  | some (a, b) => [(1, 1), (10, (a.toInt + 512).toNat), (10, (b.toInt + 512).toNat)]

/-- The rows of the table of R79 for a message, in order. -/
def Msd.fields (c : Config) (m : Msd) : List Field :=
  [(8, m.version.toNat)]
  ++ (match m.opt with
    | none => [(1, 0)]
    | some (oid, data) =>
      [(1, 1), (8, oid.length)] ++ oid.map (fun b => (8, b.toNat))
        ++ [(8, data.length)] ++ data.map (fun b => (8, b.toNat)))
  ++ [(8, m.msgid.toNat), (1, m.auto.toNat), (1, m.test.toNat), (1, m.trust.toNat), (4, m.vtype.toNat - 1)]
  ++ m.vin.map (fun ch => (6, codeOf c ch))
  ++ (List.range 6).flatMap (fun i => if m.prop.getLsbD i then [(1, 1), (1, 1)] else [(1, 0)])
  ++ [(32, m.timestamp.toNat), (32, (m.lat.toNat + 0x80000000) % 2 ^ 32), (32, (m.lon.toNat + 0x80000000) % 2 ^ 32),
      (8, m.dir.toNat)]
  ++ recentFields m.n1 ++ recentFields m.n2
  ++ (match m.pax with
    | none => [(1, 0)]
    | some v => [(1, 1), (8, v.toNat)])

/-- The bits of a message by R79. -/
def Msd.bits (c : Config) (m : Msd) : List Bool := streamOf (m.fields c)

/-- A coordinate is the sentinel or within its bounds (R124). -/
def coordinateOk (lim : Int) (v : BitVec 32) : Bool :=
  decide (v = 0x7FFFFFFF) || (decide (-lim ≤ v.toInt) && decide (v.toInt ≤ lim))

/-- A delta is within its bounds (R127). -/
def deltaInRange (v : BitVec 16) : Bool :=
  decide (-512 ≤ v.toInt) && decide (v.toInt ≤ 511)

/-- The checks of a pair of deltas, if present. -/
def recentChecks (clat clon : Cause) : Option (BitVec 16 × BitVec 16) → List (Bool × Cause × Nat)
  | none => []
  | some (a, b) => [(deltaInRange a, clat, 0), (deltaInRange b, clon, 0)]

/-- The checks of ENCMSD in the order of R206, items 4 and 5: what must hold, the cause raised if not, and its index. -/
def Msd.checks (c : Config) (m : Msd) : List (Bool × Cause × Nat) :=
  [(decide (m.version = 1), .version, 0),
   (decide (1 ≤ m.vtype.toNat) && decide (m.vtype.toNat ≤ c.vtMax), .vtype, 0)]
  ++ (List.range 17).map (fun i => (decide (m.vin[i]?.getD 0 ∈ c.alnumTable), Cause.vin, i))
  ++ [(coordinateOk 324000000 m.lat, .lat, 0), (coordinateOk 648000000 m.lon, .lon, 0),
      (decide (m.dir.toNat ≤ 179) || decide (m.dir.toNat = 255), .dir, 0)]
  ++ recentChecks .n1Dlat .n1Dlon m.n1 ++ recentChecks .n2Dlat .n2Dlon m.n2
  ++ [(decide ((m.bits c).length ≤ 1120), .length, 0)]

/-- The first check that does not hold, if any. -/
def Msd.failure (c : Config) (m : Msd) : Option (Cause × Nat) :=
  ((m.checks c).find? (fun k => !k.1)).map (fun k => k.2)

/-! ## The ERA-GLONASS sub-message (R80) -/

/-- The values of one ERA-GLONASS sub-message: each group, when present, as its presence and value booleans. -/
structure Era where
  severe : BitVec 1
  diag : Option (BitVec 21 × BitVec 21)
  crash : Option (BitVec 6 × BitVec 6)
deriving DecidableEq, Repr

/-- The registers hold the sub-message. -/
def Era.loaded (m : Era) (s : State) : Prop :=
  s.inp.eraSevere = some m.severe
  ∧ (match m.diag with
    | none => s.inp.eraDiagPresent = some 0
    | some (p, v) => s.inp.eraDiagPresent = some 1 ∧ s.inp.eraDiagPres = some p ∧ s.inp.eraDiagVal = some v)
  ∧ (match m.crash with
    | none => s.inp.eraCrashPresent = some 0
    | some (p, v) => s.inp.eraCrashPresent = some 1 ∧ s.inp.eraCrashPres = some p ∧ s.inp.eraCrashVal = some v)

/-- The fields of a group: flag k is presence AND value (R182). -/
def groupFields {n : Nat} : Option (BitVec n × BitVec n) → List Field
  | none => []
  | some (p, v) => (List.range n).map (fun k => (1, (p.getLsbD k && v.getLsbD k).toNat))

/-- The rows of the table of R80 for a sub-message, in order. -/
def Era.fields (m : Era) : List Field :=
  [(8, 1), (1, m.diag.isSome.toNat), (1, m.crash.isSome.toNat), (1, m.severe.toNat)]
  ++ groupFields m.diag ++ groupFields m.crash

/-- The bits of a sub-message by R80. -/
def Era.bits (m : Era) : List Bool := streamOf m.fields

/-! ## Reads and checks in rule order

R154 and R207: a command's reads and checks happen in the order of its rule, and the first that stops it ends it. What a
command does before it writes anything is listed here as acts, apart from the machine's own steps. -/

/-- What an input holds, as a number; `none` is the unwritten mark (R33). -/
def inputValue (s : State) : Source → Option Nat
  | .reg r => Reg.contents s r
  | .byte a i => (Memory.read (s.arr a) i).map BitVec.toNat

/-- One read of an input, or one check with the cause and index raised if it does not hold. -/
inductive Act where
  | read (src : Source)
  | check (passes : Bool) (c : Cause) (i : Nat)
deriving DecidableEq, Repr

/-- How an act ends the command, if it does: an unwritten input is the fault (R207), a check that does not hold the
failure (R203). -/
def Act.stop (s : State) : Act → Option Stop
  | .read src => if (inputValue s src).isNone then some (.fault (.unwrittenInput src)) else none
  | .check passes c i => if passes then none else some (.fail c i)

/-- The first act that ends the command. -/
def firstStop (s : State) (acts : List Act) : Option Stop := acts.findSome? (Act.stop s)

/-- The inputs that acts read, up to the act that ends the command, itself included (R154). -/
def readsUntilStop (s : State) : List Act → List Source
  | [] => []
  | .read src :: rest => src :: (if (inputValue s src).isNone then [] else readsUntilStop s rest)
  | .check passes _ _ :: rest => if passes then readsUntilStop s rest else []

/-- The reads of registers, in order. -/
def readRegs (rs : List Reg) : List Act := rs.map (fun r => .read (.reg r))

/-- The reads of the first `n` bytes of an array (R57). -/
def readFirst (a : ArrId) (n : Nat) : List Act := (List.range n).map (fun i => .read (.byte a i))

/-- The acts of a recent location: its deltas are read and checked one after the other, if its presence bit is 1. -/
def recentActs (present : Option (BitVec 1)) (rlat rlon : Reg) (dlat dlon : Option (BitVec 16)) (clat clon : Cause) :
    List Act :=
  if present = some 1 then
    [.read (.reg rlat), .check (deltaInRange (dlat.getD 0)) clat 0,
     .read (.reg rlon), .check (deltaInRange (dlon.getD 0)) clon 0]
  else []

/-- The length of the message that the registers hold (R79). -/
def msdLength (s : State) : Nat :=
  239 + (if s.inp.optPresent = some 1 then 16 + 8 * ((s.inp.oidLen.getD 0).toNat + (s.inp.dataLen.getD 0).toNat) else 0)
    + setFlags (s.inp.prop.getD 0)
    + (if s.inp.n1Present = some 1 then 20 else 0) + (if s.inp.n2Present = some 1 then 20 else 0)
    + (if s.inp.paxPresent = some 1 then 8 else 0)

/-- What ENCMSD reads and checks, in the order of R152 and R154, the length last (R156). A value that is not there counts as
0 here: its read comes before every use of it and ends the command. -/
def msdActs (s : State) : List Act :=
  [.read (.reg .version), .check (decide (s.inp.version = some 1)) .version 0, .read (.reg .optPresent)]
  ++ (if s.inp.optPresent = some 1 then
        readRegs [.oidLen] ++ readFirst .oid (s.inp.oidLen.getD 0).toNat
          ++ readRegs [.dataLen] ++ readFirst .data (s.inp.dataLen.getD 0).toNat
      else [])
  ++ readRegs [.msgid, .ctrlAuto, .ctrlTest, .ctrlTrust, .vtype]
  ++ [.check (decide (1 ≤ (s.inp.vtype.getD 0).toNat) && decide ((s.inp.vtype.getD 0).toNat ≤ s.cfg.vtMax)) .vtype 0]
  ++ (List.range 17).flatMap (fun i =>
        [.read (.byte .vin i), .check (decide ((Memory.read s.vin i).getD 0 ∈ s.cfg.alnumTable)) .vin i])
  ++ readRegs [.prop, .timestamp]
  ++ [.read (.reg .lat), .check (coordinateOk 324000000 (s.inp.lat.getD 0)) .lat 0,
      .read (.reg .lon), .check (coordinateOk 648000000 (s.inp.lon.getD 0)) .lon 0,
      .read (.reg .dir),
      .check (decide ((s.inp.dir.getD 0).toNat ≤ 179) || decide ((s.inp.dir.getD 0).toNat = 255)) .dir 0]
  ++ readRegs [.n1Present]
  ++ recentActs s.inp.n1Present .n1Dlat .n1Dlon s.inp.n1Dlat s.inp.n1Dlon .n1Dlat .n1Dlon
  ++ readRegs [.n2Present]
  ++ recentActs s.inp.n2Present .n2Dlat .n2Dlon s.inp.n2Dlat s.inp.n2Dlon .n2Dlat .n2Dlon
  ++ readRegs [.paxPresent] ++ (if s.inp.paxPresent = some 1 then readRegs [.pax] else [])
  ++ [.check (decide (msdLength s ≤ 1120)) .length 0]

/-- What ENCERA reads, in the order of R181: the presence registers and the severity, then each group that is present, its
presence booleans before its value booleans (log 16). It checks nothing. -/
def eraActs (s : State) : List Act :=
  readRegs [.eraDiagPresent, .eraCrashPresent, .eraSevere]
  ++ (if s.inp.eraDiagPresent = some 1 then readRegs [.eraDiagPres, .eraDiagVal] else [])
  ++ (if s.inp.eraCrashPresent = some 1 then readRegs [.eraCrashPres, .eraCrashVal] else [])

/-- The same end of an ENCMSD from `s` and one from `u`: the same outcome and results, and after a success the same bit at every
position of BUF at which `s` and `u` agreed; or the same fault. After a failure BUF is a draw on both sides (R203) and is not
compared. -/
def sameMsdEnd (s u : State) :
    Host.Outcome State Fault Refusal → Host.Outcome State Fault Refusal → Prop
  | .next t, .next v =>
    t.status = v.status ∧ t.cause = v.cause ∧ t.causeIndex = v.causeIndex
      ∧ t.resBits = v.resBits ∧ t.resBytes = v.resBytes
      ∧ (t.status = 0 → ∀ p, s.bufBit p = u.bufBit p → t.bufBit p = v.bufBit p)
  | .fault f, .fault g => f = g
  | _, _ => False

/-! ## The host's queue -/

/-- A state with one more host operation before those pending. -/
def before (e : Event) (s : State) : State := { s with pending := e :: s.pending }

end Sys2Proof.Safety
end

