-- ==== Sys2Proof/Laws/Commands.lean ====
section
/-! SUPPORT. For each command, once, every way it can end: the inputs a fault can name, the failures it can raise, and what its
value is like; and from these what its next state can be. -/

namespace Sys2Proof.Machine

open Sys2Proof.Safety

/-- An input that command `i` may read and that is unwritten in `s`: what a fault of `i` may name. -/
def Missing (i : Instr) (s : State) (src : Source) : Prop := mayRead i src ∧ unwritten s src

/-- No validation failure: every command but ENCMSD (R203). -/
def NoFail : Cause → Nat → Prop := fun _ _ => False

/-! ## The bit serializer -/

theorem Ends_encbitsField (len off : Nat) (s : State) (hl : encbitsLenOk len = true) :
    Ends (Missing (.encbits len off) s) NoFail (fun bs => bs.length = len) (encbitsField len s) := by
  unfold encbitsField
  refine Ends_ite (fun h => by simp [h]) (fun h0 => Ends_ite (fun h8 => ?_) (fun h8 => ?_))
  · refine Ends.bind (R := fun _ => True) (Ends_need (fun h => ⟨?_, h⟩) (fun _ _ => trivial)) (fun b _ => by simp)
    simp only [mayRead, if_pos h8]
    omega
  · refine Ends.bind ((Ends_readBytes .src s 0 (len / 8)).mono ?_ (fun _ _ h => h) (fun _ h => h)) ?_
    · rintro x ⟨k, _, hk, rfl, h⟩
      refine ⟨?_, h⟩
      simp only [mayRead, if_neg h8]
      omega
    · intro bs hbs
      simp only [Ends_pure, bitsOfBytes_length, hbs]
      simp only [encbitsLenOk, Bool.or_eq_true, decide_eq_true_eq] at hl
      omega

theorem Ends_encwideField (len off : Nat) (s : State) :
    Ends (Missing (.encwide len off) s) NoFail (fun bs => bs.length = len) (encwideField len s) := by
  unfold encwideField
  refine Ends_ite (fun h => by simp [h]) (fun h0 => ?_)
  refine Ends.bind (R := fun _ => True) (Ends_need (fun h => ⟨?_, ?_⟩) (fun _ _ => trivial)) (fun b _ => by simp)
  · simp only [mayRead]; omega
  · simp only [unwritten, Reg.contents, h, Option.map_none]

/-- The next state of a bit writer: an argument error, or the field put and the offset moved on. -/
theorem appendField_eq_next {ok : Bool} {len off : Nat} {field : Enc (List Bool)} {s t : State}
    (hf : ∀ c i, field ≠ .error (.fail c i)) :
    appendField ok len off field s = .next t ↔
      (ok = false ∧ t = s.raiseArgError .badLen)
      ∨ (ok = true ∧ offsetOk len off = false ∧ t = s.raiseArgError .offsetOverflow)
      ∨ (ok = true ∧ offsetOk len off = true
          ∧ ∃ bs, field = .ok bs ∧ t = ((s.emit off bs).setOffset (off + len)).succeed) := by
  unfold appendField
  have hc := conclude_eq_next (r := field) (s := s) (t := t)
    (k := fun bs => ((s.emit off bs).setOffset (off + len)).succeed)
  cases ok with
  | false => simp [eq_comm (a := t)]
  | true =>
    cases h : offsetOk len off with
    | false => simp [eq_comm (a := t)]
    | true => simp [hc, hf]

/-- A computation that raises no failure is no failure. -/
theorem Ends.ne_fail {α : Type} {P : Source → Prop} {R : α → Prop} {r : Enc α} (h : Ends P NoFail R r) (c : Cause)
    (i : Nat) : r ≠ .error (.fail c i) := by
  rintro rfl
  exact h

/-- A computation that gives a value gives one that is as the rule says. -/
theorem Ends.of_ok {α : Type} {P : Source → Prop} {Q : Cause → Nat → Prop} {R : α → Prop} {r : Enc α} {a : α}
    (h : Ends P Q R r) (ha : r = .ok a) : R a := by
  subst ha
  exact h

theorem Ends.of_fail {α : Type} {P : Source → Prop} {Q : Cause → Nat → Prop} {R : α → Prop} {r : Enc α} {c : Cause}
    {i : Nat} (h : Ends P Q R r) (ha : r = .error (.fail c i)) : Q c i := by
  subst ha
  exact h

theorem Ends.of_fault {α : Type} {P : Source → Prop} {Q : Cause → Nat → Prop} {R : α → Prop} {r : Enc α} {src : Source}
    (h : Ends P Q R r) (ha : r = .error (.fault (.unwrittenInput src))) : P src := by
  subst ha
  exact h

/-! ## The message encoder -/

/-- The failures of ENCMSD (R150): index 0, but for a character of the VIN. -/
def MsdFail (c : Cause) (i : Nat) : Prop :=
  (c = .vin ∧ i ≤ 16) ∨
    (i = 0 ∧ (c = .version ∨ c = .vtype ∨ c = .lat ∨ c = .lon ∨ c = .dir ∨ c = .n1Dlat ∨ c = .n1Dlon ∨ c = .n2Dlat
      ∨ c = .n2Dlon ∨ c = .length))

/-- The read of an MSD input register (R154). -/
theorem Ends_need_msd {α : Type} {R : α → Prop} {Q : Cause → Nat → Prop} {s : State} (r : Reg) {v : Option α}
    (hr : 0x10 ≤ Reg.number r ∧ Reg.number r ≤ 0x25) (hc : v = none → Reg.contents s r = none)
    (hR : ∀ a, v = some a → R a) : Ends (Missing .encmsd s) Q R (need (.reg r) v) :=
  Ends_need (fun h => ⟨hr, hc h⟩) hR

/-- What a schema step may end with: bits of at least `lo` positions. -/
abbrev MsdStep (s : State) (lo : Nat) (r : Enc (List Bool)) : Prop :=
  Ends (Missing .encmsd s) MsdFail (fun bs => lo ≤ bs.length) r

theorem Ends_msdVersion (s : State) : MsdStep s 8 (msdVersion s) := by
  refine Ends.bind (R := fun _ => True)
    (Ends_need_msd .version (by decide) (by simp [Reg.contents]) (fun _ _ => trivial)) (fun v _ => ?_)
  exact Ends_ite (fun _ => by simp) (fun _ => by simp [MsdFail])

theorem Ends_lenPrefixed (s : State) (a : ArrId) (n : Nat) (hn : n ≤ 255) (ha : a = .oid ∨ a = .data) :
    MsdStep s 8 (lenPrefixed a n s) := by
  refine Ends.bind ((Ends_readBytes a s 0 n).mono ?_ (fun _ _ h => h) (fun _ h => h)) (fun bs _ => by simp)
  rintro x ⟨k, _, hk, rfl, h⟩
  refine ⟨?_, h⟩
  rcases ha with rfl | rfl <;> simp only [mayRead] <;> omega

theorem Ends_msdOptional (s : State) : MsdStep s 1 (msdOptional s) := by
  refine Ends.bind (R := fun _ => True)
    (Ends_need_msd .optPresent (by decide) (by simp [Reg.contents]) (fun _ _ => trivial)) (fun p _ => ?_)
  refine Ends_ite (fun _ => ?_) (fun _ => by simp [bitsOfFlag])
  refine Ends.bind (R := fun _ => True) ?_ (fun b _ => by simp [bitsOfFlag])
  refine Ends.bind (R := fun n : BitVec 8 => n.toNat ≤ 255)
    (Ends_need_msd .oidLen (by decide) (by simp [Reg.contents]) (fun n _ => by have := n.isLt; omega)) (fun n hn => ?_)
  refine Ends.bind (Ends_lenPrefixed s .oid _ hn (.inl rfl)) (fun o _ => ?_)
  refine Ends.bind (R := fun n : BitVec 8 => n.toNat ≤ 255)
    (Ends_need_msd .dataLen (by decide) (by simp [Reg.contents]) (fun n _ => by have := n.isLt; omega)) (fun m hm => ?_)
  exact Ends.bind (Ends_lenPrefixed s .data _ hm (.inr rfl)) (fun d _ => by simp)

theorem Ends_msdMsgid (s : State) : MsdStep s 8 (msdMsgid s) :=
  Ends.bind (R := fun _ => True)
    (Ends_need_msd .msgid (by decide) (by simp [Reg.contents]) (fun _ _ => trivial)) (fun v _ => by simp)

theorem Ends_msdControl (s : State) : MsdStep s 7 (msdControl s) := by
  refine Ends.bind (R := fun _ => True)
    (Ends_need_msd .ctrlAuto (by decide) (by simp [Reg.contents]) (fun _ _ => trivial)) (fun a _ => ?_)
  refine Ends.bind (R := fun _ => True)
    (Ends_need_msd .ctrlTest (by decide) (by simp [Reg.contents]) (fun _ _ => trivial)) (fun t _ => ?_)
  refine Ends.bind (R := fun _ => True)
    (Ends_need_msd .ctrlTrust (by decide) (by simp [Reg.contents]) (fun _ _ => trivial)) (fun p _ => ?_)
  refine Ends.bind (R := fun _ => True)
    (Ends_need_msd .vtype (by decide) (by simp [Reg.contents]) (fun _ _ => trivial)) (fun v _ => ?_)
  exact Ends_ite (fun _ => by simp [bitsOfFlag]) (fun _ => by simp [MsdFail])

theorem Ends_msdVinFrom (s : State) (i n : Nat) (h : i + n ≤ 17) :
    Ends (Missing .encmsd s) MsdFail (fun bs => bs.length = 6 * n) (msdVinFrom s i n) := by
  induction n generalizing i with
  | zero => simp [msdVinFrom]
  | succ n ih =>
    refine Ends.bind (R := fun _ => True)
      (Ends_need (fun hb => ⟨by simp only [mayRead]; omega, hb⟩) (fun _ _ => trivial)) (fun c _ => ?_)
    cases alnumCode s.cfg.alnumTable c with
    | none => exact .inl ⟨rfl, by omega⟩
    | some k => exact Ends.bind (ih (i + 1) (by omega)) (fun bs hbs => by simp [hbs]; omega)

theorem Ends_msdVin (s : State) : MsdStep s 102 (msdVin s) :=
  (Ends_msdVinFrom s 0 17 (by omega)).mono (fun _ h => h) (fun _ _ h => h) (fun _ h => by omega)

theorem Ends_msdPropulsion (s : State) : MsdStep s 6 (msdPropulsion s) := by
  refine Ends.bind (R := fun _ => True)
    (Ends_need_msd .prop (by decide) (by simp [Reg.contents]) (fun _ _ => trivial)) (fun v _ => ?_)
  have hp : ∀ f : Bool, 1 ≤ (propField f).length := by decide
  have h0 := hp (v.getLsbD 0)
  have h1 := hp (v.getLsbD 1)
  have h2 := hp (v.getLsbD 2)
  have h3 := hp (v.getLsbD 3)
  have h4 := hp (v.getLsbD 4)
  have h5 := hp (v.getLsbD 5)
  have hr : List.range propFlags = [0, 1, 2, 3, 4, 5] := by decide
  simp only [Ends_pure, hr, List.flatMap_cons, List.flatMap_nil, List.length_append, List.length_nil]
  omega

theorem Ends_msdTimestamp (s : State) : MsdStep s 32 (msdTimestamp s) :=
  Ends.bind (R := fun _ => True)
    (Ends_need_msd .timestamp (by decide) (by simp [Reg.contents]) (fun _ _ => trivial)) (fun v _ => by simp)

theorem Ends_msdLocation (s : State) : MsdStep s 64 (msdLocation s) := by
  have hpos : ∀ (r : Reg) (v : Option (BitVec 32)) (lim : Int) (c : Cause),
      (0x10 ≤ Reg.number r ∧ Reg.number r ≤ 0x25) → (v = none → Reg.contents s r = none) → MsdFail c 0 →
      Ends (Missing .encmsd s) MsdFail (fun bs => bs.length = 32) (msdPosition r v lim c) := by
    intro r v lim c hr hc hm
    refine Ends.bind (R := fun _ => True) (Ends_need_msd r hr hc (fun _ _ => trivial)) (fun x _ => ?_)
    exact Ends_ite (fun _ => by simp) (fun _ => by simpa using hm)
  refine Ends.bind (hpos .lat _ _ .lat (by decide) (by simp [Reg.contents]) (by simp [MsdFail])) (fun a ha => ?_)
  exact Ends.bind (hpos .lon _ _ .lon (by decide) (by simp [Reg.contents]) (by simp [MsdFail]))
    (fun b hb => by simp [ha, hb])

theorem Ends_msdDirection (s : State) : MsdStep s 8 (msdDirection s) := by
  refine Ends.bind (R := fun _ => True)
    (Ends_need_msd .dir (by decide) (by simp [Reg.contents]) (fun _ _ => trivial)) (fun v _ => ?_)
  exact Ends_ite (fun _ => by simp) (fun _ => by simp [MsdFail])

theorem Ends_msdRecent {s : State} {r ra rb : Reg} {p : Option (BitVec 1)} {a b : Option (BitVec 16)} {ca cb : Cause}
    (hr : 0x10 ≤ Reg.number r ∧ Reg.number r ≤ 0x25) (hp : p = none → Reg.contents s r = none)
    (hra : 0x10 ≤ Reg.number ra ∧ Reg.number ra ≤ 0x25) (ha : a = none → Reg.contents s ra = none)
    (hrb : 0x10 ≤ Reg.number rb ∧ Reg.number rb ≤ 0x25) (hb : b = none → Reg.contents s rb = none)
    (hca : MsdFail ca 0) (hcb : MsdFail cb 0) :
    MsdStep s 1 (msdRecent r p (msdDelta ra a ca) (msdDelta rb b cb)) := by
  have hd : ∀ (r : Reg) (v : Option (BitVec 16)) (c : Cause),
      (0x10 ≤ Reg.number r ∧ Reg.number r ≤ 0x25) → (v = none → Reg.contents s r = none) → MsdFail c 0 →
      Ends (Missing .encmsd s) MsdFail (fun _ => True) (msdDelta r v c) := by
    intro r v c hr hc hm
    refine Ends.bind (R := fun _ => True) (Ends_need_msd r hr hc (fun _ _ => trivial)) (fun x _ => ?_)
    exact Ends_ite (fun _ => trivial) (fun _ => by simpa using hm)
  refine Ends.bind (R := fun _ => True) (Ends_need_msd r hr hp (fun _ _ => trivial)) (fun v _ => ?_)
  refine Ends_ite (fun _ => ?_) (fun _ => by simp [bitsOfFlag])
  refine Ends.bind (hd ra a ca hra ha hca) (fun x _ => ?_)
  exact Ends.bind (hd rb b cb hrb hb hcb) (fun y _ => by simp [bitsOfFlag])

theorem Ends_msdRecent1 (s : State) : MsdStep s 1 (msdRecent1 s) :=
  Ends_msdRecent (by decide) (by simp [Reg.contents]) (by decide) (by simp [Reg.contents]) (by decide)
    (by simp [Reg.contents]) (by simp [MsdFail]) (by simp [MsdFail])

theorem Ends_msdRecent2 (s : State) : MsdStep s 1 (msdRecent2 s) :=
  Ends_msdRecent (by decide) (by simp [Reg.contents]) (by decide) (by simp [Reg.contents]) (by decide)
    (by simp [Reg.contents]) (by simp [MsdFail]) (by simp [MsdFail])

theorem Ends_msdPassengers (s : State) : MsdStep s 1 (msdPassengers s) := by
  refine Ends.bind (R := fun _ => True)
    (Ends_need_msd .paxPresent (by decide) (by simp [Reg.contents]) (fun _ _ => trivial)) (fun p _ => ?_)
  refine Ends_ite (fun _ => ?_) (fun _ => by simp [bitsOfFlag])
  exact Ends.bind (R := fun _ => True)
    (Ends_need_msd .pax (by decide) (by simp [Reg.contents]) (fun _ _ => trivial)) (fun v _ => by simp [bitsOfFlag])

/-- Steps in order end as their parts do, and their lengths add up. -/
theorem Ends_inOrder_cons {P : Source → Prop} {Q : Cause → Nat → Prop} {lo lo' : Nat} {e : Enc (List Bool)}
    {es : List (Enc (List Bool))} (h : Ends P Q (fun bs => lo ≤ bs.length) e)
    (hs : Ends P Q (fun bs => lo' ≤ bs.length) (inOrder es)) :
    Ends P Q (fun bs => lo + lo' ≤ bs.length) (inOrder (e :: es)) :=
  Ends.bind h (fun a ha => Ends.bind hs (fun b hb => by simp; omega))

/-- ENCMSD's message: 239 to 1120 bits, a failure of R150, or a fault on an unwritten input of R154. -/
theorem Ends_msdMessage (s : State) :
    Ends (Missing .encmsd s) MsdFail (fun bs => 239 ≤ bs.length ∧ bs.length ≤ 1120) (msdMessage s) := by
  refine Ends.bind (R := fun bs => 239 ≤ bs.length) ?_ (fun bs hbs => Ends_ite (fun h => ⟨hbs, h⟩) (fun _ => by simp [MsdFail]))
  have hnil : Ends (Missing .encmsd s) MsdFail (fun bs => 0 ≤ bs.length) (inOrder []) := Nat.zero_le _
  exact Ends_inOrder_cons (Ends_msdVersion s) <| Ends_inOrder_cons (Ends_msdOptional s) <|
    Ends_inOrder_cons (Ends_msdMsgid s) <| Ends_inOrder_cons (Ends_msdControl s) <|
    Ends_inOrder_cons (Ends_msdVin s) <| Ends_inOrder_cons (Ends_msdPropulsion s) <|
    Ends_inOrder_cons (Ends_msdTimestamp s) <| Ends_inOrder_cons (Ends_msdLocation s) <|
    Ends_inOrder_cons (Ends_msdDirection s) <| Ends_inOrder_cons (Ends_msdRecent1 s) <|
    Ends_inOrder_cons (Ends_msdRecent2 s) <| Ends_inOrder_cons (Ends_msdPassengers s) hnil

/-! ## The ERA-GLONASS encoder -/

@[simp] theorem eraGroup_length {n : Nat} (p v : BitVec n) : (eraGroup p v).length = n := by simp [eraGroup]

/-- ENCERA's sub-message has at most 38 bits and raises no failure (R180). -/
theorem Ends_eraMessage (s : State) :
    Ends (Missing .encera s) NoFail (fun bs => bs.length ≤ 38) (eraMessage s) := by
  have hneed : ∀ {α : Type} (r : Reg) (v : Option α), (0x30 ≤ Reg.number r ∧ Reg.number r ≤ 0x36) →
      (v = none → Reg.contents s r = none) → Ends (Missing .encera s) NoFail (fun _ => True) (need (.reg r) v) :=
    fun r v hr hc => Ends_need (fun h => ⟨hr, hc h⟩) (fun _ _ => trivial)
  have hopt : ∀ {n : Nat} (p : BitVec 1) (a b : Enc (BitVec n)), Ends (Missing .encera s) NoFail (fun _ => True) a →
      Ends (Missing .encera s) NoFail (fun _ => True) b →
      Ends (Missing .encera s) NoFail (fun bs => bs.length ≤ n) (eraOptional p a b) := by
    intro n p a b ha hb
    refine Ends_ite (fun _ => ?_) (fun _ => by simp)
    exact Ends.bind ha (fun x _ => Ends.bind hb (fun y _ => by simp))
  refine Ends.bind (hneed .eraDiagPresent _ (by decide) (by simp [Reg.contents])) (fun d _ => ?_)
  refine Ends.bind (hneed .eraCrashPresent _ (by decide) (by simp [Reg.contents])) (fun c _ => ?_)
  refine Ends.bind (hneed .eraSevere _ (by decide) (by simp [Reg.contents])) (fun e _ => ?_)
  refine Ends.bind (hopt _ _ _ (hneed .eraDiagPres _ (by decide) (by simp [Reg.contents]))
    (hneed .eraDiagVal _ (by decide) (by simp [Reg.contents]))) (fun x hx => ?_)
  refine Ends.bind (hopt _ _ _ (hneed .eraCrashPres _ (by decide) (by simp [Reg.contents]))
    (hneed .eraCrashVal _ (by decide) (by simp [Reg.contents]))) (fun y hy => ?_)
  simp
  omega

/-- DATA after the scratch field is stored: its first bytes are the stream's, the others as before (R183). -/
theorem read_storeStream (bs : List Bool) (n : Nat) (m : Memory) (j : Nat) :
    Memory.read (storeStream bs n m) j = if j < n then some (streamByte bs j) else Memory.read m j := by
  induction n with
  | zero => simp [storeStream]
  | succ n ih =>
    simp only [storeStream, Memory.read_write, ih]
    by_cases h : n = j
    · subst h; simp
    · rw [if_neg h]
      by_cases hj : j < n
      · rw [if_pos hj, if_pos (by omega)]
      · rw [if_neg hj, if_neg (by omega)]

theorem wf_storeStream {cap : Nat} {m : Memory} (bs : List Bool) (n : Nat) (h : Memory.wf cap m = true) (hn : n ≤ cap) :
    Memory.wf cap (storeStream bs n m) = true := by
  induction n with
  | zero => exact h
  | succ n ih => exact Memory.wf_write _ (ih (by omega)) (by omega)

/-! ## The mappers -/

theorem Ends_needMask (i : Instr) (hi : i = .mapdiag ∨ i = .mapcrash) (s : State) :
    Ends (Missing i s) NoFail (fun _ => True) (need (.reg .mask) s.inp.mask) := by
  refine Ends_need (fun h => ⟨?_, ?_⟩) (fun _ _ => trivial)
  · rcases hi with rfl | rfl <;> exact trivial
  · simp [unwritten, Reg.contents, h]

/-! ## What the next state of each command can be -/

/-- The next state of ENCBITS. -/
theorem execEncbits_next {len off : Nat} {s t : State} (h : execEncbits len off s = .next t) :
    (encbitsLenOk len = false ∧ t = s.raiseArgError .badLen)
    ∨ (encbitsLenOk len = true ∧ offsetOk len off = false ∧ t = s.raiseArgError .offsetOverflow)
    ∨ (encbitsLenOk len = true ∧ offsetOk len off = true ∧ ∃ bs : List Bool, bs.length = len
        ∧ encbitsField len s = .ok bs ∧ t = ((s.emit off bs).setOffset (off + len)).succeed) := by
  unfold execEncbits at h
  cases hl : encbitsLenOk len with
  | false => rw [hl] at h; simp [appendField] at h; exact .inl ⟨rfl, h.symm⟩
  | true =>
    have he := Ends_encbitsField len off s hl
    rw [appendField_eq_next he.ne_fail, hl] at h
    rcases h with ⟨h, _⟩ | ⟨_, h1, h2⟩ | ⟨_, h1, bs, h2, h3⟩
    · cases h
    · exact .inr (.inl ⟨rfl, h1, h2⟩)
    · exact .inr (.inr ⟨rfl, h1, bs, he.of_ok h2, h2, h3⟩)

/-- The next state of ENCWIDE. -/
theorem execEncwide_next {len off : Nat} {s t : State} (h : execEncwide len off s = .next t) :
    (encwideLenOk len = false ∧ t = s.raiseArgError .badLen)
    ∨ (encwideLenOk len = true ∧ offsetOk len off = false ∧ t = s.raiseArgError .offsetOverflow)
    ∨ (encwideLenOk len = true ∧ offsetOk len off = true ∧ ∃ bs : List Bool, bs.length = len
        ∧ encwideField len s = .ok bs ∧ t = ((s.emit off bs).setOffset (off + len)).succeed) := by
  unfold execEncwide at h
  have he := Ends_encwideField len off s
  rw [appendField_eq_next he.ne_fail] at h
  rcases h with h | h | ⟨h1, h2, bs, h3, h4⟩
  · exact .inl h
  · exact .inr (.inl h)
  · exact .inr (.inr ⟨h1, h2, bs, he.of_ok h3, h3, h4⟩)

/-- The next state of ALNUM. -/
theorem execAlnum_next {c : Byte} {s t : State} (h : execAlnum c s = .next t) :
    t = (s.setCode (resCodeOf (alnumCode s.cfg.alnumTable c))).succeed := by
  simp only [execAlnum, Host.Outcome.next.injEq] at h
  exact h.symm

/-- The next state of ENCMSD: the message of 239 to 1120 bits, or a failure of R150. -/
theorem execEncmsd_next {s t : State} (h : execEncmsd s = .next t) :
    (∃ bs : List Bool, 239 ≤ bs.length ∧ bs.length ≤ 1120 ∧ msdMessage s = .ok bs
        ∧ t = (((s.emit 0 bs).setBits bs.length).setBytes (bs.length / 8)).succeed)
    ∨ ∃ c i, MsdFail c i ∧ msdMessage s = .error (.fail c i) ∧ t = s.raiseFail c i := by
  rcases conclude_eq_next.1 h with ⟨bs, h1, h2⟩ | ⟨c, i, h1, h2⟩
  · exact .inl ⟨bs, ((Ends_msdMessage s).of_ok h1).1, ((Ends_msdMessage s).of_ok h1).2, h1, h2⟩
  · exact .inr ⟨c, i, (Ends_msdMessage s).of_fail h1, h1, h2⟩

/-- The next state of ENCERA. -/
theorem execEncera_next {s t : State} (h : execEncera s = .next t) :
    ∃ bs : List Bool, bs.length ≤ 38 ∧ eraMessage s = .ok bs
      ∧ t = ((s.setArr .data (storeStream bs 5 s.data)).setBits bs.length).succeed := by
  rcases conclude_eq_next.1 h with ⟨bs, h1, h2⟩ | ⟨c, i, h1, _⟩
  · exact ⟨bs, (Ends_eraMessage s).of_ok h1, h1, h2⟩
  · exact absurd h1 ((Ends_eraMessage s).ne_fail c i)

/-- The next state of MAPDIAG. -/
theorem execMapdiag_next {s t : State} (h : execMapdiag s = .next t) :
    ∃ m : BitVec 64, s.inp.mask = some m ∧ t = (s.setDiag (BitVec.ofNat 21 (gather m s.cfg.diagPresBit))
      (BitVec.ofNat 21 (gather m s.cfg.diagValBit))).succeed := by
  unfold execMapdiag at h
  cases hm : s.inp.mask with
  | none => simp [hm, conclude] at h
  | some m => simp only [hm, need_some, conclude, Host.Outcome.next.injEq] at h; exact ⟨m, rfl, h.symm⟩

/-- The next state of MAPCRASH. -/
theorem execMapcrash_next {s t : State} (h : execMapcrash s = .next t) :
    ∃ m : BitVec 64, s.inp.mask = some m
      ∧ t = (s.setCrash (BitVec.ofNat 6 (gather (m.extractLsb' 0 16) s.cfg.crashPresBit))
        (BitVec.ofNat 6 (gather (m.extractLsb' 0 16) s.cfg.crashValBit))).succeed := by
  unfold execMapcrash at h
  cases hm : s.inp.mask with
  | none => simp [hm, conclude] at h
  | some m => simp only [hm, need_some, conclude, Host.Outcome.next.injEq] at h; exact ⟨m, rfl, h.symm⟩

end Sys2Proof.Machine
end

