-- ==== Sys2Proof/Laws/Terms.lean ====
section
/-! SUPPORT. The terms of `Sys2Proof.Safety` and the machine's own, one in the form of the other: bit writes, fields, bytes that an
array holds, table lookups, argument checks. -/

namespace Sys2Proof.Machine

open Sys2Proof.Safety

/-- The machine's bit write is the one R53 words, in either mode. -/
theorem writtenBit_eq_storedBit (mode : WriteMode) (old b : Bool) : writtenBit mode old b = storedBit mode old b := by
  cases mode <;> simp [storedBit]

/-- A run of bits touches no entry past BUF's last byte (R54). -/
theorem read_putBits_of_le (mode : WriteMode) (epoch : Nat) (m : Memory) (p : Nat) (bs : List Bool) (i : Nat)
    (hi : 140 ≤ i) : Memory.read (putBits mode epoch m p bs) i = Memory.read m i := by
  induction bs generalizing m p with
  | nil => rfl
  | cons b bs ih =>
    rw [putBits, ih]
    unfold putBit
    split
    · next h => unfold maxBits at h; rw [Memory.read_write, if_neg (by omega)]
    · rfl

theorem fieldBits_eq_bitsOf (n v : Nat) : fieldBits (n, v) = bitsOf n v := by
  rw [bitsOf_eq_map]
  rfl

@[simp] theorem fieldBits_length (f : Field) : (fieldBits f).length = f.1 := by
  simp [fieldBits]

theorem streamOf_nil : streamOf [] = [] := rfl

theorem streamOf_cons (f : Field) (fs : List Field) : streamOf (f :: fs) = fieldBits f ++ streamOf fs := by
  simp [streamOf]

theorem streamOf_append (fs gs : List Field) : streamOf (fs ++ gs) = streamOf fs ++ streamOf gs := by
  simp [streamOf]

/-- The length of a stream is the sum of its fields' widths. -/
theorem streamOf_length (fs : List Field) : (streamOf fs).length = (fs.map (fun f => f.1)).sum := by
  induction fs with
  | nil => rfl
  | cons f fs ih => rw [streamOf_cons, List.length_append, ih, fieldBits_length]; rfl

/-- Bytes as fields of eight bits are the bits of the bytes. -/
theorem streamOf_bytes (bs : List Byte) : streamOf (bs.map (fun b => (8, b.toNat))) = bitsOfBytes bs := by
  induction bs with
  | nil => rfl
  | cons b bs ih => rw [List.map_cons, streamOf_cons, ih, fieldBits_eq_bitsOf, bitsOfBytes_cons]

/-- Bytes that an array holds are read. -/
theorem readBytes_of_holds {a : ArrId} {s : State} {bs : List Byte} (h : holds (s.arr a) bs) :
    readBytes a s 0 bs.length = .ok bs :=
  readBytes_eq bs 0 (fun k hk => by simpa using h k hk)

/-- A read of bytes depends on its array only. -/
theorem readBytes_congr {s u : State} {a : ArrId} (h : s.arr a = u.arr a) (i n : Nat) :
    readBytes a s i n = readBytes a u i n := by
  induction n generalizing i with
  | zero => rfl
  | succ n ih => simp only [readBytes, readByte, h, ih]

/-- The first missing byte of a read is the one its fault names (R57). -/
theorem readBytes_fault {a : ArrId} {s : State} (n i k : Nat) (hk : k < n)
    (h1 : ∀ j, j < k → Memory.read (s.arr a) (i + j) ≠ none) (h2 : Memory.read (s.arr a) (i + k) = none) :
    readBytes a s i n = .error (.fault (.unwrittenInput (.byte a (i + k)))) := by
  induction n generalizing i k with
  | zero => omega
  | succ n ih =>
    unfold readBytes readByte
    cases k with
    | zero => simp only [Nat.add_zero] at h2; simp [h2]
    | succ k =>
      obtain ⟨b, hb⟩ := Option.ne_none_iff_exists'.1 (h1 0 (by omega))
      rw [Nat.add_zero] at hb
      rw [show i + (k + 1) = i + 1 + k by omega] at h2 ⊢
      rw [hb, need_some, ok_bind, ih (i + 1) k (by omega) ?_ h2]
      · rfl
      · intro j hj
        rw [show i + 1 + j = i + (j + 1) by omega]
        exact h1 (j + 1) (by omega)

/-- The lookup of R120 is the place of the first occurrence. -/
theorem alnumCode_eq (t : List Byte) (c : Byte) : alnumCode t c = if c ∈ t then some (t.idxOf c) else none := by
  induction t with
  | nil => rfl
  | cons x xs ih =>
    unfold alnumCode
    by_cases h : x = c
    · subst h; simp
    · have hc : c ≠ x := fun e => h e.symm
      rw [if_neg h, ih]
      by_cases hm : c ∈ xs <;> simp [hm, h, hc]

theorem encbitsLenOk_iff (len : Nat) : encbitsLenOk len = true ↔ (len ≤ 8 ∨ len = 16 ∨ len = 24 ∨ len = 32) := by
  simp [encbitsLenOk, or_assoc]

theorem encwideLenOk_iff (len : Nat) : encwideLenOk len = true ↔ len ≤ 16 := by
  simp [encwideLenOk]

theorem offsetOk_iff (len off : Nat) : offsetOk len off = true ↔ off + len ≤ 0xFFFF := by
  simp only [offsetOk, decide_eq_true_eq]

/-- Acts in two parts: the second part stops the command only if the first does not. -/
theorem firstStop_append (s : State) (as bs : List Act) :
    firstStop s (as ++ bs) = (firstStop s as).or (firstStop s bs) := by
  unfold firstStop
  rw [List.findSome?_append]

/-- Acts in two parts: the second part is read only if the first does not stop the command. -/
theorem readsUntilStop_append (s : State) (as bs : List Act) :
    readsUntilStop s (as ++ bs)
      = readsUntilStop s as ++ (if firstStop s as = none then readsUntilStop s bs else []) := by
  induction as with
  | nil => simp [readsUntilStop, firstStop]
  | cons a as ih =>
    have hf : firstStop s (a :: as) = (Act.stop s a).or (firstStop s as) := by
      unfold firstStop
      rw [List.findSome?_cons]
      cases Act.stop s a <;> rfl
    rw [hf, List.cons_append]
    cases a with
    | read src => cases h : inputValue s src <;> simp [readsUntilStop, Act.stop, h, ih]
    | check passes c i => cases passes <;> simp [readsUntilStop, Act.stop, ih]

/-- A register or byte has no value exactly if it is unwritten (R33). -/
theorem inputValue_eq_none_iff (s : State) (src : Source) : inputValue s src = none ↔ unwritten s src := by
  cases src <;> simp [inputValue, unwritten]

/-- Every next state a command can give, constructor by constructor: an argument error, a failure, or the value of the command
put in place. -/
theorem exec_next {i : Instr} {s t : State} (h : exec i s = .next t) :
    (∃ len off, (i = .encbits len off ∨ i = .encwide len off)
      ∧ ((∃ c, (c = .badLen ∨ c = .offsetOverflow) ∧ t = s.raiseArgError c)
        ∨ ∃ bs : List Bool, bs.length = len ∧ t = ((s.emit off bs).setOffset (off + len)).succeed))
    ∨ (∃ c, i = .alnum c ∧ t = (s.setCode (resCodeOf (alnumCode s.cfg.alnumTable c))).succeed)
    ∨ (i = .encmsd ∧ ((∃ bs : List Bool, 239 ≤ bs.length ∧ bs.length ≤ 1120
          ∧ t = (((s.emit 0 bs).setBits bs.length).setBytes (bs.length / 8)).succeed)
        ∨ ∃ c k, MsdFail c k ∧ t = s.raiseFail c k))
    ∨ (i = .encera ∧ ∃ bs : List Bool, bs.length ≤ 38
        ∧ t = ((s.setArr .data (storeStream bs 5 s.data)).setBits bs.length).succeed)
    ∨ (i = .mapdiag ∧ ∃ p v, t = (s.setDiag p v).succeed)
    ∨ (i = .mapcrash ∧ ∃ p v, t = (s.setCrash p v).succeed) := by
  cases i with
  | encbits len off =>
    refine .inl ⟨len, off, .inl rfl, ?_⟩
    rcases execEncbits_next h with ⟨_, h⟩ | ⟨_, _, h⟩ | ⟨_, _, bs, hl, _, h⟩
    · exact .inl ⟨_, .inl rfl, h⟩
    · exact .inl ⟨_, .inr rfl, h⟩
    · exact .inr ⟨bs, hl, h⟩
  | encwide len off =>
    refine .inl ⟨len, off, .inr rfl, ?_⟩
    rcases execEncwide_next h with ⟨_, h⟩ | ⟨_, _, h⟩ | ⟨_, _, bs, hl, _, h⟩
    · exact .inl ⟨_, .inl rfl, h⟩
    · exact .inl ⟨_, .inr rfl, h⟩
    · exact .inr ⟨bs, hl, h⟩
  | alnum c => exact .inr (.inl ⟨c, rfl, execAlnum_next h⟩)
  | encmsd =>
    refine .inr (.inr (.inl ⟨rfl, ?_⟩))
    rcases execEncmsd_next h with ⟨bs, h1, h2, _, h⟩ | ⟨c, k, h1, _, h⟩
    · exact .inl ⟨bs, h1, h2, h⟩
    · exact .inr ⟨c, k, h1, h⟩
  | encera =>
    obtain ⟨bs, h1, _, h⟩ := execEncera_next h
    exact .inr (.inr (.inr (.inl ⟨rfl, bs, h1, h⟩)))
  | mapdiag =>
    obtain ⟨_, _, h⟩ := execMapdiag_next h
    exact .inr (.inr (.inr (.inr (.inl ⟨rfl, _, _, h⟩))))
  | mapcrash =>
    obtain ⟨_, _, h⟩ := execMapcrash_next h
    exact .inr (.inr (.inr (.inr (.inr ⟨rfl, _, _, h⟩))))

end Sys2Proof.Machine
end

