-- ==== Sys2Proof/Laws/HostPort.lean ====
section
/-! SUPPORT. The host interface: register numbers and names agree, what each host operation can do, and what a step can do. -/

namespace Sys2Proof.Machine

/-- Every register is the one its number names (R21). -/
@[simp] theorem Reg.ofNumber_number (r : Reg) : Reg.ofNumber (Reg.number r) = some r := by
  cases r <;> rfl

/-- A number that names a register is that register's number. -/
theorem Reg.number_of_ofNumber {n : Nat} {r : Reg} (h : Reg.ofNumber n = some r) : Reg.number r = n := by
  unfold Reg.ofNumber at h
  split at h <;> first | (cases h; rfl) | cases h

/-- A control or result register stores nothing the host writes (R24). -/
theorem Reg.store_readOnly {r : Reg} (h : Reg.number r < 8) (v : Nat) (p : Inputs) : Reg.store r v p = p := by
  cases r <;> first | rfl | (simp [Reg.number] at h)

/-- An input register holds what the host wrote, modulo 2^N (R23). -/
theorem Reg.contents_store (r : Reg) (h : 8 ≤ Reg.number r) (v : Nat) (s : State) :
    Reg.contents { s with inp := Reg.store r v s.inp } r = some (v % 2 ^ Reg.width r) := by
  cases r <;> first | rfl | (simp [Reg.number] at h)

/-- A write of one register leaves the contents of every other one (R59). -/
theorem Reg.contents_store_other (r q : Reg) (h : r ≠ q) (v : Nat) (s : State) :
    Reg.contents { s with inp := Reg.store r v s.inp } q = Reg.contents s q := by
  cases r <;> cases q <;> first | rfl | exact absurd rfl h

theorem Reg.contents_lt {s : State} {r : Reg} {v : Nat} (h : Reg.contents s r = some v) : v < 2 ^ Reg.width r := by
  cases r <;> simp only [Reg.contents, Option.map_eq_some_iff, Option.some.injEq] at h <;>
    first
      | (subst h; exact Nat.two_pow_pos _)
      | (subst h; exact BitVec.isLt _)
      | (obtain ⟨x, _, rfl⟩ := h; exact BitVec.isLt _)

/-- The issue of a legal word runs its command. -/
theorem issue_of_decode {w : CmdWord} {i : Instr} (h : decode w = .ok i) (s : State) : issue w s = exec i s := by
  simp [issue, h]

/-- What the issue of a word can be: the command it decodes to, or an illegal word's outcome (R73, R74). -/
theorem issue_cases (w : CmdWord) (s : State) :
    (∃ i, decode w = .ok i ∧ issue w s = exec i s)
    ∨ (decode w = .error .badOpcode ∧ issue w s = .next (s.raiseCmdError .badOpcode))
    ∨ (decode w = .error .reservedBits ∧ issue w s = .next (s.raiseCmdError .reservedBits)) := by
  unfold issue
  cases h : decode w with
  | ok i => exact .inl ⟨i, rfl, rfl⟩
  | error e => cases e <;> simp

/-- What a register write can be: nothing, an issue, or an input register stored. -/
theorem regWrite_cases (rn v : Nat) (s : State) :
    (Reg.ofNumber rn = none ∧ regWrite rn v s = .next s)
    ∨ (Reg.ofNumber rn = some .cmd ∧ regWrite rn v s = issue (BitVec.ofNat 32 v) s)
    ∨ ∃ r, Reg.ofNumber rn = some r ∧ r ≠ .cmd ∧ regWrite rn v s = .next { s with inp := Reg.store r v s.inp } := by
  unfold regWrite
  cases h : Reg.ofNumber rn with
  | none => simp
  | some r => cases r <;> simp

/-- A read changes nothing but what stands outside MSDENC: what the host read, and the count of draws (R24, R60). -/
theorem regRead_frame (rn : Nat) (s : State) :
    regRead rn s = { s with readData := (regRead rn s).readData, hostDraws := (regRead rn s).hostDraws } := by
  unfold regRead
  cases Reg.ofNumber rn with
  | none => rfl
  | some r => dsimp only; cases Reg.contents s r <;> rfl

theorem arrRead_frame (id i : Nat) (s : State) :
    arrRead id i s = { s with readData := (arrRead id i s).readData, hostDraws := (arrRead id i s).hostDraws } := by
  unfold arrRead
  cases arrTarget id i with
  | none => rfl
  | some a => dsimp only; cases s.byteContents a i <;> rfl

/-- The array that a host access reaches has the index. -/
theorem arrTarget_some {id i : Nat} {a : ArrId} (h : arrTarget id i = some a) :
    ArrId.ofId id = some a ∧ i < ArrId.size a := by
  unfold arrTarget at h
  cases ha : ArrId.ofId id with
  | none => rw [ha] at h; cases h
  | some b =>
    rw [ha] at h
    dsimp only at h
    split at h
    · cases h; exact ⟨rfl, ‹_›⟩
    · cases h

/-- What a step can be: nothing with nothing pending, else the first pending operation. -/
theorem step_cases (s : State) :
    (s.pending = [] ∧ step s = .next s)
    ∨ ∃ e rest, s.pending = e :: rest ∧ step s = perform e { s with pending := rest } := by
  unfold step advance
  cases h : s.pending with
  | nil => exact .inl ⟨rfl, rfl⟩
  | cons e rest => exact .inr ⟨e, rest, rfl, rfl⟩

/-- What holds of every single thing a step can do holds of every step: the one induction over the host's operations, so that a
rule about `step` needs one goal for each. -/
theorem step_rel {P : State → State → Prop} (hid : ∀ s, P s s)
    (hpend : ∀ s t rest, P { s with pending := rest } t → P s t)
    (hexec : ∀ i s t, exec i s = .next t → P s t)
    (hcmd : ∀ c s, (c = .badOpcode ∨ c = .reservedBits) → P s (s.raiseCmdError c))
    (hstore : ∀ s r v, P s { s with inp := Reg.store r v s.inp })
    (hread : ∀ s a b, P s { s with readData := a, hostDraws := b })
    (hwrite : ∀ s id i v, P s (arrWrite id i v s)) (hreset : ∀ s, P s (platformReset s))
    {s t : State} (h : step s = .next t) : P s t := by
  rcases step_cases s with ⟨_, h'⟩ | ⟨e, rest, _, h'⟩ <;> rw [h'] at h
  · cases h; exact hid _
  · apply hpend s t rest
    generalize { s with pending := rest } = s at h
    cases e with
    | regWrite rn v =>
      simp only [perform] at h
      rcases regWrite_cases rn v s with ⟨_, h'⟩ | ⟨_, h'⟩ | ⟨r, _, _, h'⟩ <;> rw [h'] at h
      · cases h; exact hid _
      · rcases issue_cases (BitVec.ofNat 32 v) s with ⟨i, _, h'⟩ | ⟨_, h'⟩ | ⟨_, h'⟩ <;> rw [h'] at h
        · exact hexec _ _ _ h
        · cases h; exact hcmd _ _ (.inl rfl)
        · cases h; exact hcmd _ _ (.inr rfl)
      · cases h; exact hstore _ _ _
    | regRead rn => simp only [perform] at h; cases h; rw [regRead_frame]; exact hread _ _ _
    | arrWrite id i v => simp only [perform] at h; cases h; exact hwrite _ _ _ _
    | arrRead id i => simp only [perform] at h; cases h; rw [arrRead_frame]; exact hread _ _ _
    | reset => simp only [perform] at h; cases h; exact hreset _

end Sys2Proof.Machine
end

