-- ==== Sys2Proof/Machine/Assembler.lean ====
section
/-! DEFINITION. The assembler syntax of a host program (30_encoding.md R77) and its pseudo-instructions (R78): a line, the host
operations it stands for, and the reading of a line's text. Text is a list of 8-bit character codes (00_scope.md R11). -/

namespace Sys2Proof.Machine

/-- One line of a host program: the forms of R77, then the pseudo-instructions of R78. -/
inductive Line where
  | cmd (i : Instr)
  | wr (r : Reg) (v : Nat)
  | rd (r : Reg)
  | wra (a : ArrId) (i v : Nat)
  | rda (a : ArrId) (i : Nat)
  | clrbuf (n : Nat)
  | setvin (cs : List Byte)
  | setoid (bs : List Nat)
  | setdata (bs : List Nat)
  | putbits (len off v : Nat)
  | putwide (len off v : Nat)
  | era2opt
deriving DecidableEq, Repr

/-- The id of an array (R30). -/
def ArrId.id : ArrId → Nat
  | .src => 0
  | .vin => 1
  | .oid => 2
  | .data => 3
  | .buf => 4

/-- The issue of a command, `RegWrite(0x00, w)` (R34). -/
def issueEvent (i : Instr) : Event := .regWrite (Reg.number .cmd) (encode i).toNat

/-- Array writes at consecutive indices from `i`. -/
def arrEvents (a : ArrId) : Nat → List Nat → List Event
  | _, [] => []
  | i, v :: vs => .arrWrite (ArrId.id a) i v :: arrEvents a (i + 1) vs

/-- The bytes that PUTBITS writes to SRC: `v` itself for a length up to 8, else `v[L-1-8k : L-8-8k]` for each k (R78). -/
def putbitsBytes (len v : Nat) : List Nat :=
  if len ≤ 8 then [v] else (List.range (len / 8)).map (fun k => v / 2 ^ (len - 8 - 8 * k) % 2 ^ 8)

/-- The host operations a line stands for (R77, R78). `resBits` is the value the host last read from RES_BITS, which
ERA2OPT uses. -/
def Line.events (resBits : Nat) : Line → List Event
  | .cmd i => [issueEvent i]
  | .wr r v => [.regWrite (Reg.number r) v]
  | .rd r => [.regRead (Reg.number r)]
  | .wra a i v => [.arrWrite (ArrId.id a) i v]
  | .rda a i => [.arrRead (ArrId.id a) i]
  | .clrbuf n => arrEvents .buf 0 (List.replicate n 0)
  | .setvin cs => arrEvents .vin 0 (cs.map BitVec.toNat)
  | .setoid bs => .regWrite (Reg.number .oidLen) bs.length :: arrEvents .oid 0 bs
  | .setdata bs => .regWrite (Reg.number .dataLen) bs.length :: arrEvents .data 0 bs
  | .putbits len off v => arrEvents .src 0 (putbitsBytes len v) ++ [issueEvent (.encbits len off)]
  | .putwide len off v => [.regWrite (Reg.number .wide) v, issueEvent (.encwide len off)]
  | .era2opt =>
    .regWrite (Reg.number .optPresent) 1 :: .regWrite (Reg.number .oidLen) 3
      :: (arrEvents .oid 0 [1, 4, 1] ++ [.regWrite (Reg.number .dataLen) ((resBits + 7) / 8)])

/-! ## Text (log 15) -/

/-- The codes of a text (R11). -/
def ascii (t : String) : List Byte := t.toList.map (fun c => BitVec.ofNat 8 c.toNat)

/-- The pieces of a line's text. A quoted character is the number of its code (R77). -/
inductive Token where
  | word (w : List Byte)
  | num (n : Nat)
  | text (t : List Byte)
  | comma
  | opens
  | closes
deriving DecidableEq, Repr

/-- Where the reading of a line stands: in a word, in a quoted text, or in a quoted character. -/
inductive LexState where
  | plain (acc : List Byte)
  | inText (acc : List Byte)
  | charStart
  | charEnd (c : Byte)
deriving DecidableEq, Repr

/-- The value of a digit, in base 10 or 16. -/
def digit (base : Nat) (c : Byte) : Option Nat :=
  let n := c.toNat
  let d := if 0x30 ≤ n ∧ n ≤ 0x39 then n - 0x30
    else if 0x41 ≤ n ∧ n ≤ 0x46 then n - 0x41 + 10
    else if 0x61 ≤ n ∧ n ≤ 0x66 then n - 0x61 + 10
    else 16
  if d < base then some d else none

/-- Digits read on from a value. -/
def digits (base : Nat) : Nat → List Byte → Option Nat
  | n, [] => some n
  | n, c :: cs =>
    match digit base c with
    | some d => digits base (n * base + d) cs
    | none => none

/-- A number, decimal or hexadecimal with a `0x` before it (R77). -/
def number (w : List Byte) : Option Nat :=
  match w with
  | [] => none
  | 0x30 :: 0x78 :: c :: cs => digits 16 0 (c :: cs)
  | w => digits 10 0 w

/-- A finished word put before the tokens that follow it; nothing for an empty one. -/
def flush (acc : List Byte) (ts : List Token) : List Token :=
  match acc with
  | [] => ts
  | w => (match number w with | some n => Token.num n | none => Token.word w) :: ts

/-- A letter, a digit or the underscore. -/
def isWordCode (c : Byte) : Bool :=
  let n := c.toNat
  (decide (0x30 ≤ n) && decide (n ≤ 0x39)) || (decide (0x41 ≤ n) && decide (n ≤ 0x5A))
    || (decide (0x61 ≤ n) && decide (n ≤ 0x7A)) || decide (n = 0x5F)

/-- The tokens of a line; a `;` starts a comment (R77). -/
def lex : LexState → List Byte → Option (List Token)
  | .plain acc, [] => some (flush acc [])
  | .plain acc, c :: cs =>
    if c = 0x3B then some (flush acc [])
    else if c = 0x20 ∨ c = 0x09 then (lex (.plain []) cs).map (flush acc)
    else if c = 0x2C then (lex (.plain []) cs).map (fun ts => flush acc (.comma :: ts))
    else if c = 0x5B then (lex (.plain []) cs).map (fun ts => flush acc (.opens :: ts))
    else if c = 0x5D then (lex (.plain []) cs).map (fun ts => flush acc (.closes :: ts))
    else if c = 0x22 then (lex (.inText []) cs).map (flush acc)
    else if c = 0x27 then (lex .charStart cs).map (flush acc)
    else if isWordCode c then lex (.plain (acc ++ [c])) cs
    else none
  | .inText acc, c :: cs =>
    if c = 0x22 then (lex (.plain []) cs).map (fun ts => .text acc :: ts) else lex (.inText (acc ++ [c])) cs
  | .charStart, c :: cs => lex (.charEnd c) cs
  | .charEnd k, c :: cs => if c = 0x27 then (lex (.plain []) cs).map (fun ts => .num k.toNat :: ts) else none
  | _, [] => none

/-- Numbers with commas between them. -/
def numbers : List Token → Option (List Nat)
  | [] => some []
  | [.num n] => some [n]
  | .num n :: .comma :: ts =>
    match numbers ts with
    | some (m :: ms) => some (n :: m :: ms)
    | _ => none
  | _ => none

/-- The registers by the names of R21. -/
def regNames : List (List Byte × Reg) :=
  [(ascii "CMD", .cmd), (ascii "STATUS", .status), (ascii "CAUSE", .cause),
   (ascii "CAUSE_INDEX", .causeIndex), (ascii "RES_OFFSET", .resOffset), (ascii "RES_BITS", .resBits),
   (ascii "RES_BYTES", .resBytes), (ascii "RES_CODE", .resCode), (ascii "WIDE", .wide),
   (ascii "MASK", .mask), (ascii "VERSION", .version), (ascii "OPT_PRESENT", .optPresent),
   (ascii "OID_LEN", .oidLen), (ascii "DATA_LEN", .dataLen), (ascii "MSGID", .msgid),
   (ascii "CTRL_AUTO", .ctrlAuto), (ascii "CTRL_TEST", .ctrlTest), (ascii "CTRL_TRUST", .ctrlTrust),
   (ascii "VTYPE", .vtype), (ascii "PROP", .prop), (ascii "TIMESTAMP", .timestamp),
   (ascii "LAT", .lat), (ascii "LON", .lon), (ascii "DIR", .dir),
   (ascii "N1_PRESENT", .n1Present), (ascii "N1_DLAT", .n1Dlat), (ascii "N1_DLON", .n1Dlon),
   (ascii "N2_PRESENT", .n2Present), (ascii "N2_DLAT", .n2Dlat), (ascii "N2_DLON", .n2Dlon),
   (ascii "PAX_PRESENT", .paxPresent), (ascii "PAX", .pax), (ascii "ERA_SEVERE", .eraSevere),
   (ascii "ERA_DIAG_PRESENT", .eraDiagPresent), (ascii "ERA_DIAG_PRES", .eraDiagPres), (ascii "ERA_DIAG_VAL", .eraDiagVal),
   (ascii "ERA_CRASH_PRESENT", .eraCrashPresent), (ascii "ERA_CRASH_PRES", .eraCrashPres), (ascii "ERA_CRASH_VAL", .eraCrashVal)]

/-- The arrays by the names of R30. -/
def arrNames : List (List Byte × ArrId) :=
  [(ascii "SRC", .src), (ascii "VIN", .vin), (ascii "OID", .oid), (ascii "DATA", .data), (ascii "BUF", .buf)]

/-- The entry of a name. -/
def named {α : Type} (names : List (List Byte × α)) (w : List Byte) : Option α :=
  match names.find? (fun p => decide (p.1 = w)) with
  | some p => some p.2
  | none => none

/-- A command line whose operands fit the word. -/
def fitting (i : Instr) : Option Line := if i.wf then some (.cmd i) else none

/-- The lines whose operands are numbers. The model's choices (log 15): SETOID and SETDATA may have no bytes at all, and then
write the length 0 and nothing else, where R78 does not say whether n = 0 is a form; and a quoted character may stand for any
number, and a number for the character of ALNUM. -/
def numericLine (w : List Byte) (ns : List Nat) : Option Line :=
  if w = ascii "ENCBITS" then match ns with | [l, off] => fitting (.encbits l off) | _ => none
  else if w = ascii "ENCWIDE" then match ns with | [l, off] => fitting (.encwide l off) | _ => none
  else if w = ascii "ALNUM" then
    match ns with | [c] => if c < 2 ^ 8 then some (.cmd (.alnum (BitVec.ofNat 8 c))) else none | _ => none
  else if w = ascii "ENCMSD" then match ns with | [] => some (.cmd .encmsd) | _ => none
  else if w = ascii "ENCERA" then match ns with | [] => some (.cmd .encera) | _ => none
  else if w = ascii "MAPDIAG" then match ns with | [] => some (.cmd .mapdiag) | _ => none
  else if w = ascii "MAPCRASH" then match ns with | [] => some (.cmd .mapcrash) | _ => none
  else if w = ascii "CLRBUF" then
    match ns with | [] => some (.clrbuf bufBytes) | [n] => some (.clrbuf n) | _ => none
  else if w = ascii "SETOID" then some (.setoid ns)
  else if w = ascii "SETDATA" then some (.setdata ns)
  else if w = ascii "PUTBITS" then
    match ns with
    | [l, off, v] =>
      if (l ≤ 8 ∨ l = 16 ∨ l = 24 ∨ l = 32) ∧ (Instr.encbits l off).wf then some (.putbits l off v) else none
    | _ => none
  else if w = ascii "PUTWIDE" then
    match ns with
    | [l, off, v] => if (Instr.encwide l off).wf then some (.putwide l off v) else none
    | _ => none
  else if w = ascii "ERA2OPT" then match ns with | [] => some .era2opt | _ => none
  else none

/-- The line that tokens stand for. The model's choice (log 15): a text with no tokens, a blank line or one that holds only a
comment, stands for no line, as an ill-formed one does; R77 is silent on it. -/
def lineOf (ts : List Token) : Option Line :=
  match ts with
  | [.word w, .word n] =>
    if w = ascii "RD" then (named regNames n).map (fun r => .rd r) else none
  | [.word w, .word n, .comma, .num v] =>
    if w = ascii "WR" then (named regNames n).map (fun r => .wr r v) else none
  | [.word w, .word n, .opens, .num i, .closes, .comma, .num v] =>
    if w = ascii "WRA" then (named arrNames n).map (fun a => .wra a i v) else none
  | [.word w, .word n, .opens, .num i, .closes] =>
    if w = ascii "RDA" then (named arrNames n).map (fun a => .rda a i) else none
  | [.word w, .text t] =>
    if w = ascii "SETVIN" ∧ t.length = vinLen then some (.setvin t) else none
  | .word w :: rest =>
    match numbers rest with
    | some ns => numericLine w ns
    | none => none
  | _ => none

/-- The line of a text, if it is one (R77); a blank text and a bare comment are none (log 15). -/
def readLine (t : List Byte) : Option Line :=
  match lex (.plain []) t with
  | some ts => lineOf ts
  | none => none

end Sys2Proof.Machine
end

