-- ==== Sys2Proof/Certificates/Slice0/Obligations.lean ====
section
/-! DEFINITION. The statements for the provers, each with the rule of spec/ it formalises. A statement about a command says what
the next state is, field by field: a state written `{ completed s with … }` is `s` but for the outcome registers and the
fields named, so that it is the frame too. -/

open Sys2Proof Sys2Proof.Machine Sys2Proof.Safety

/-! ## Decoding and the host interface -/

/-- Words written out from R70 and R72 (95_test_vectors.md 2.1 to 2.3) decode to the commands they stand for. -/
def Obligations.WrittenWordsDecode : Prop :=
  decode 0x00060601 = .ok (.encbits 6 6) ∧ decode 0xFFF70801 = .ok (.encbits 8 0xFFF7)
  ∧ decode 0x045B0A02 = .ok (.encwide 10 1115) ∧ decode 0x00005703 = .ok (.alnum 0x57)
  ∧ decode 0x00000010 = .ok .encmsd ∧ decode 0x00000011 = .ok .encera
  ∧ decode 0x00000020 = .ok .mapdiag ∧ decode 0x00000021 = .ok .mapcrash
  ∧ decode 0x12345604 = .error .badOpcode ∧ decode 0x00010011 = .error .reservedBits

/-- R70 to R72: the decoder reads back every operand of every well-formed command at every value its field admits. -/
def Obligations.DecodeEncodeAgree : Prop :=
  ∀ i : Instr, i.wf = true → decode (encode i) = .ok i

/-- R70 to R74: a word that decodes is the one word of the command it decodes to, and its operands fit their fields. -/
def Obligations.EncodeDecodeAgree : Prop :=
  ∀ (w : CmdWord) (i : Instr), decode w = .ok i → i.wf = true ∧ encode i = w

/-- R77: the word of each command, as a number. -/
def Obligations.CommandWordsOfSyntax : Prop :=
  (∀ l off : Nat, l < 256 → off < 65536 →
    (encode (.encbits l off)).toNat = off * 65536 + l * 256 + 0x01
    ∧ (encode (.encwide l off)).toNat = off * 65536 + l * 256 + 0x02)
  ∧ (∀ c : Byte, (encode (.alnum c)).toNat = c.toNat * 256 + 0x03)
  ∧ (encode .encmsd).toNat = 0x10 ∧ (encode .encera).toNat = 0x11
  ∧ (encode .mapdiag).toNat = 0x20 ∧ (encode .mapcrash).toNat = 0x21

/-- R73: the issue of a word whose OP is none of the seven opcodes writes ERR_CMD, BAD_OPCODE and 0, and nothing else. -/
def Obligations.BadOpcodeWordOnlyReportsIt : Prop :=
  ∀ (s : State) (w : CmdWord),
    w.toNat % 256 ∉ [0x01, 0x02, 0x03, 0x10, 0x11, 0x20, 0x21] →
    step (before (.regWrite 0 w.toNat) s) = .next (refusedWith 0x02 0x20 s)

/-- R74: the issue of a word with a legal OP and a non-zero field that must be 0 writes ERR_CMD, RESERVED_BITS and 0, and
nothing else. -/
def Obligations.ReservedBitsWordOnlyReportsIt : Prop :=
  ∀ (s : State) (w : CmdWord),
    (w.toNat % 256 = 0x03 ∧ w.toNat / 65536 ≠ 0
      ∨ w.toNat % 256 ∈ [0x10, 0x11, 0x20, 0x21] ∧ w.toNat / 256 ≠ 0) →
    step (before (.regWrite 0 w.toNat) s) = .next (refusedWith 0x02 0x21 s)

/-- R34, R75: a step whose next host operation writes a command word to CMD is that command's meaning, on the state without
the operation. -/
def Obligations.StepRunsIssuedCommand : Prop :=
  ∀ (s : State) (v : Nat) (rest : List Event) (i : Instr),
    s.pending = .regWrite 0 v :: rest → decode (BitVec.ofNat 32 v) = .ok i →
    step s = exec i { s with pending := rest }

/-- A word of the opcode table placed by `withFetchWord` is the command that the next step runs. -/
def Obligations.FetchWordRunsNext : Prop :=
  ∀ (s : State) (nbits w : Nat) (i : Instr), decodeTableWord nbits w = some i →
    step (s.withFetchWord nbits w) = exec i s

/-- R218: with no operation pending MSDENC holds its state. That a step happens then is the model's choice (log 2). -/
def Obligations.IdleStepHoldsState : Prop :=
  ∀ s : State, s.pending = [] → step s = .next s

/-- R23: a host write of `v` to an input register of width N stores `v mod 2^N`; no other register and nothing else
changes. -/
def Obligations.HostWriteStoresModuloWidth : Prop :=
  ∀ (s : State) (r : Reg) (v : Nat), 8 ≤ Reg.number r →
    ∃ t, step (before (.regWrite (Reg.number r) v) s) = .next t
      ∧ Reg.contents t r = some (v % 2 ^ Reg.width r)
      ∧ (∀ q, q ≠ r → Reg.contents t q = Reg.contents s q)
      ∧ t = { s with inp := t.inp }

/-- R24: a host write to a read-only register or to an unassigned register number has no effect; a host read of an unassigned
number or of CMD returns 0; and no read changes anything but what the host has read and the count of draws, which are the
model's own fields (log 3, log 5). The third clause says the same of register numbers above 0xFF, which R21 does not list, and
the last takes in array ids above 4: both are the model's (log 13). -/
def Obligations.HostAccessesWithoutEffect : Prop :=
  (∀ (s : State) (rn v : Nat),
    (1 ≤ rn ∧ rn ≤ 7 ∨ 0x0A ≤ rn ∧ rn ≤ 0x0F ∨ 0x26 ≤ rn ∧ rn ≤ 0x2F ∨ 0x37 ≤ rn ∧ rn ≤ 0xFF) →
    step (before (.regWrite rn v) s) = .next s)
  ∧ (∀ (s : State) (rn : Nat),
    (rn = 0 ∨ 0x0A ≤ rn ∧ rn ≤ 0x0F ∨ 0x26 ≤ rn ∧ rn ≤ 0x2F ∨ 0x37 ≤ rn ∧ rn ≤ 0xFF) →
    step (before (.regRead rn) s) = .next { s with readData := 0 })
  ∧ (∀ (s : State) (rn v : Nat), 0xFF < rn →
    step (before (.regWrite rn v) s) = .next s ∧ step (before (.regRead rn) s) = .next { s with readData := 0 })
  ∧ (∀ (s : State) (rn : Nat), ∃ t, step (before (.regRead rn) s) = .next t
    ∧ t = { s with readData := t.readData, hostDraws := t.hostDraws })
  ∧ (∀ (s : State) (id i : Nat), ∃ t, step (before (.arrRead id i) s) = .next t
    ∧ t = { s with readData := t.readData, hostDraws := t.hostDraws })

/-- R21, R59: a host read returns the whole register where it is written. -/
def Obligations.HostReadReturnsRegister : Prop :=
  ∀ (s : State) (r : Reg) (v : Nat), Reg.contents s r = some v →
    ∃ t, step (before (.regRead (Reg.number r)) s) = .next t ∧ t = { s with readData := t.readData }
      ∧ t.readData.toNat = v

/-- R33, R60: a host read of an unwritten register, and of an unwritten byte of SRC, VIN, OID or DATA, completes with the next
free value that host reads draw, and the count of draws moves on, so that a repeated read is another draw. How a draw is
numbered and cut to the width read is the model's (log 5). No value of a draw is claimed. -/
def Obligations.HostReadOfUnwrittenIsDraw : Prop :=
  (∀ (s : State) (r : Reg), Reg.contents s r = none →
    ∃ t, step (before (.regRead (Reg.number r)) s) = .next t
      ∧ t.readData = BitVec.ofNat 64 ((Config.hostDraw s.hostDraws).toNat % 2 ^ Reg.width r)
      ∧ t.readData.toNat < 2 ^ Reg.width r
      ∧ t = { s with readData := t.readData, hostDraws := s.hostDraws + 1 })
  ∧ (∀ (s : State) (a : ArrId) (i : Nat), a ≠ .buf → i < ArrId.size a → Memory.read (s.arr a) i = none →
    ∃ t, step (before (.arrRead (ArrId.id a) i) s) = .next t
      ∧ t.readData = BitVec.ofNat 64 ((Config.hostDraw s.hostDraws).toNat % 2 ^ 8)
      ∧ t.readData.toNat < 2 ^ 8
      ∧ t = { s with readData := t.readData, hostDraws := s.hostDraws + 1 })

/-- R63: a host write and then a host read of the same register return the value written, modulo 2^N. -/
def Obligations.WriteThenReadReturnsValue : Prop :=
  ∀ (s : State) (r : Reg) (v : Nat), 8 ≤ Reg.number r →
    ∃ u t, step (before (.regWrite (Reg.number r) v) (before (.regRead (Reg.number r)) s)) = .next u
      ∧ step u = .next t ∧ t.readData.toNat = v % 2 ^ Reg.width r ∧ t.pending = s.pending

/-- R34: an array write inside the range stores one byte, and every other byte of every array reads as before; out of range
a write has no effect and a read returns 0. The value is taken modulo 2^8 (log 14). -/
def Obligations.ArrayAccessesByIndex : Prop :=
  (∀ (s : State) (a : ArrId) (i v : Nat), i < ArrId.size a →
    ∃ t, step (before (.arrWrite (ArrId.id a) i v) s) = .next t
      ∧ t.byteContents a i = some (BitVec.ofNat 8 v)
      ∧ (∀ b j, (b, j) ≠ (a, i) → t.byteContents b j = s.byteContents b j)
      ∧ t = s.setArr a (t.arr a))
  ∧ (∀ (s : State) (a : ArrId) (i v : Nat), ArrId.size a ≤ i →
    step (before (.arrWrite (ArrId.id a) i v) s) = .next s
    ∧ step (before (.arrRead (ArrId.id a) i) s) = .next { s with readData := 0 })
  ∧ (∀ (s : State) (a : ArrId) (i : Nat) (b : Byte), i < ArrId.size a → s.byteContents a i = some b →
    step (before (.arrRead (ArrId.id a) i) s) = .next { s with readData := BitVec.ofNat 64 b.toNat })

/-- R78: PUTBITS is its writes of SRC and then the issue of ENCBITS. For a length up to 8 it writes the value to SRC[0], whose
byte has the value's low bits; for 16, 24 or 32 it writes the value's bytes from SRC[0] on, most significant first, which
together have the value's low bits. -/
def Obligations.PutbitsBytesAreValue : Prop :=
  ∀ len off v k : Nat, off < 65536 →
    (len ≤ 8 →
      Line.events k (.putbits len off v) = [.arrWrite 0 0 v, .regWrite 0 (off * 65536 + len * 256 + 0x01)]
      ∧ fieldBits (len, v % 2 ^ 8) = fieldBits (len, v))
    ∧ (len = 16 ∨ len = 24 ∨ len = 32 →
      Line.events k (.putbits len off v)
        = (List.range (len / 8)).map (fun j => .arrWrite 0 j (v / 2 ^ (len - 8 - 8 * j) % 2 ^ 8))
          ++ [.regWrite 0 (off * 65536 + len * 256 + 0x01)]
      ∧ (putbitsBytes len v).flatMap (fun b => fieldBits (8, b)) = fieldBits (len, v))

/-- R78: the host operations of `CLRBUF n` for an `n` up to 140 run in `n` steps to a next state with BUF[0] to BUF[n-1] zero,
every other byte of BUF as before, and nothing else changed. -/
def Obligations.ClrbufClearsItsBytes : Prop :=
  ∀ (s : State) (k n : Nat), n ≤ 140 → s.pending = Line.events k (.clrbuf n) →
    ∃ t : State, Host.Core.run Sys2Proof.core n s = .next t
      ∧ (∀ i, t.bufByte i = if i < n then 0 else s.bufByte i)
      ∧ t = { s with buf := t.buf, pending := [] }

/-! ## Reset -/

/-- R230: after reset the outcome and result registers are 0, every input register and every byte of SRC, VIN, OID and DATA
is unwritten, and BUF is a draw. -/
def Obligations.ResetValues : Prop :=
  State.reset.status = 0 ∧ State.reset.cause = 0 ∧ State.reset.causeIndex = 0
  ∧ State.reset.resOffset = 0 ∧ State.reset.resBits = 0 ∧ State.reset.resBytes = 0 ∧ State.reset.resCode = 0
  ∧ Reg.contents State.reset .cmd = some 0
  ∧ (∀ r, 8 ≤ Reg.number r → Reg.contents State.reset r = none)
  ∧ (∀ a i, a ≠ .buf → Memory.read (State.reset.arr a) i = none)
  ∧ ∃ n, ∀ i, State.reset.bufByte i = Config.bufDraw n i

/-- R230, R232: the platform's reset gives the state after reset with a new draw in BUF, and leaves the parameters. That what
the host has pending and has read stays is the model's choice (log 12). -/
def Obligations.PlatformResetGivesResetState : Prop :=
  ∀ s : State, step (before .reset s)
    = .next { State.reset with bufEpoch := s.bufEpoch + 1, hostDraws := s.hostDraws, readData := s.readData,
                               pending := s.pending, cfg := s.cfg }

/-! ## The bit serializer -/

/-- R53: PutBit at a position of BUF makes the bit there `b` (OVERWRITE) or `old OR b` (OR), and changes no other bit. -/
def Obligations.PutBitWritesOneBit : Prop :=
  ∀ (mode : WriteMode) (epoch : Nat) (m : Memory) (p : Nat) (b : Bool), p ≤ 1119 →
    bufBitOf epoch (putBit mode epoch m p b) p = storedBit mode (bufBitOf epoch m p) b
    ∧ ∀ q, q ≠ p → bufBitOf epoch (putBit mode epoch m p b) q = bufBitOf epoch m q

/-- R55: a 32-bit value goes into the stream as its four bytes, the most significant first. -/
def Obligations.WordIsEmittedMostSignificantByteFirst : Prop :=
  ∀ v : BitVec 32, bitsOf 32 v.toNat
    = bitsOf 8 (v.extractLsb' 24 8).toNat ++ bitsOf 8 (v.extractLsb' 16 8).toNat
      ++ bitsOf 8 (v.extractLsb' 8 8).toNat ++ bitsOf 8 (v.extractLsb' 0 8).toNat

/-- R101, R53, R54: ENCBITS with a legal length, an offset that fits and the SRC bytes it needs completes: the stream
positions from the offset on, as far as BUF has them, get the low bits of SRC[0] or whole bytes from SRC[0] on, RES_OFFSET
the new offset, and nothing else changes. -/
def Obligations.EncbitsAppendsSourceBits : Prop :=
  ∀ (s : State) (len off : Nat) (bs : List Byte),
    (len ≤ 8 ∨ len = 16 ∨ len = 24 ∨ len = 32) → off + len ≤ 0xFFFF →
    bs.length = (if len = 0 then 0 else if len ≤ 8 then 1 else len / 8) → holds s.src bs →
    ∃ t, exec (.encbits len off) s = .next t
      ∧ (∀ p, p < 1120 → t.bufBit p =
          if off ≤ p ∧ p < off + len then
            storedBit s.cfg.writeMode (s.bufBit p)
              (if len ≤ 8 then (bs[0]?.getD 0).getLsbD (len - 1 - (p - off)) else bitOfBytes bs (p - off))
          else s.bufBit p)
      ∧ (∀ i, 140 ≤ i → Memory.read t.buf i = Memory.read s.buf i)
      ∧ t = { completed s with buf := t.buf, resOffset := BitVec.ofNat 16 (off + len) }

/-- R102, R205: an ENCBITS length other than 0 to 8, 16, 24, 32 is BAD_LEN; a legal one with an offset that overflows is
OFFSET_OVERFLOW; each writes the outcome registers and nothing else, whatever SRC holds. -/
def Obligations.EncbitsArgumentErrors : Prop :=
  ∀ (s : State) (len off : Nat),
    (¬(len ≤ 8 ∨ len = 16 ∨ len = 24 ∨ len = 32) → exec (.encbits len off) s = .next (refusedWith 0x03 0x10 s))
    ∧ ((len ≤ 8 ∨ len = 16 ∨ len = 24 ∨ len = 32) → 0xFFFF < off + len →
        exec (.encbits len off) s = .next (refusedWith 0x03 0x11 s))

/-- R33, R207: ENCBITS with legal arguments faults at the first SRC byte it needs that is unwritten. -/
def Obligations.EncbitsFaultsOnUnwrittenSource : Prop :=
  ∀ (s : State) (len off k : Nat),
    (1 ≤ len ∧ len ≤ 8 ∧ k = 0 ∨ (len = 16 ∨ len = 24 ∨ len = 32) ∧ k < len / 8) → off + len ≤ 0xFFFF →
    (∀ j, j < k → Memory.read s.src j ≠ none) → Memory.read s.src k = none →
    exec (.encbits len off) s = .fault (.unwrittenInput (.byte .src k))

/-- R104, R53, R54: ENCWIDE with a length of 0 to 16, an offset that fits and WIDE written (if the length is not 0) completes:
the stream positions from the offset on get WIDE's low bits, the highest first, RES_OFFSET the new offset, and nothing else
changes. -/
def Obligations.EncwideAppendsWideBits : Prop :=
  ∀ (s : State) (len off : Nat) (v : BitVec 16),
    len ≤ 16 → off + len ≤ 0xFFFF → (1 ≤ len → s.inp.wide = some v) →
    ∃ t, exec (.encwide len off) s = .next t
      ∧ (∀ p, p < 1120 → t.bufBit p =
          if off ≤ p ∧ p < off + len then
            storedBit s.cfg.writeMode (s.bufBit p) (v.getLsbD (len - 1 - (p - off)))
          else s.bufBit p)
      ∧ (∀ i, 140 ≤ i → Memory.read t.buf i = Memory.read s.buf i)
      ∧ t = { completed s with buf := t.buf, resOffset := BitVec.ofNat 16 (off + len) }

/-- R105, R205: an ENCWIDE length above 16 is BAD_LEN; a legal one with an offset that overflows is OFFSET_OVERFLOW; each
writes the outcome registers and nothing else. -/
def Obligations.EncwideArgumentErrors : Prop :=
  ∀ (s : State) (len off : Nat),
    (16 < len → exec (.encwide len off) s = .next (refusedWith 0x03 0x10 s))
    ∧ (len ≤ 16 → 0xFFFF < off + len → exec (.encwide len off) s = .next (refusedWith 0x03 0x11 s))

/-- R106: for a length of 1 to 8 and a value below 256, ENCWIDE on WIDE and ENCBITS on SRC[0] end in the same state. -/
def Obligations.EncwideAndEncbitsAgree : Prop :=
  ∀ (s : State) (len off : Nat) (v : Byte), 1 ≤ len → len ≤ 8 → off + len ≤ 0xFFFF →
    s.inp.wide = some (v.setWidth 16) → Memory.read s.src 0 = some v →
    ∃ t, exec (.encbits len off) s = .next t ∧ exec (.encwide len off) s = .next t

/-! ## The field units -/

/-- R120, R121: ALNUM completes for every character: RES_CODE is the index of the character in the table, or 0xFF if it is
not in it, the outcome is OK either way, and nothing else changes. -/
def Obligations.AlnumReturnsTableIndex : Prop :=
  ∀ (s : State) (c : Byte), s.cfg.valid = true →
    ∃ t, exec (.alnum c) s = .next t
      ∧ (∀ i, i < 33 → s.cfg.alnumTable[i]? = some c → t.resCode.toNat = i)
      ∧ (c ∉ s.cfg.alnumTable → t.resCode = 0xFF)
      ∧ t = { completed s with resCode := t.resCode }

/-- R120: with the default table a digit has its value, U has 27, W 29 and Z 32, and I, O, Q, a lowercase letter and
punctuation have none. -/
def Obligations.DefaultTableCodes : Prop :=
  alnumCode Config.defaultAlnumTable 0x30 = some 0 ∧ alnumCode Config.defaultAlnumTable 0x39 = some 9
  ∧ alnumCode Config.defaultAlnumTable 0x55 = some 27 ∧ alnumCode Config.defaultAlnumTable 0x57 = some 29
  ∧ alnumCode Config.defaultAlnumTable 0x5A = some 32 ∧ alnumCode Config.defaultAlnumTable 0x49 = none
  ∧ alnumCode Config.defaultAlnumTable 0x4F = none ∧ alnumCode Config.defaultAlnumTable 0x51 = none
  ∧ alnumCode Config.defaultAlnumTable 0x61 = none ∧ alnumCode Config.defaultAlnumTable 0x21 = none

/-- R124: a coordinate passes exactly when it is the sentinel or within its bounds, both included. -/
def Obligations.PositionsInBoundsOrUnknown : Prop :=
  ∀ v : BitVec 32,
    (posOk latLim v.toInt = true ↔ v = 0x7FFFFFFF ∨ -324000000 ≤ v.toInt ∧ v.toInt ≤ 324000000)
    ∧ (posOk lonLim v.toInt = true ↔ v = 0x7FFFFFFF ∨ -648000000 ≤ v.toInt ∧ v.toInt ≤ 648000000)

/-- R125: the position code is the register with bit 31 inverted. -/
def Obligations.PosCodeInvertsBit31 : Prop :=
  ∀ (v : BitVec 32) (j : Nat), j < 32 → (posCode v).testBit j = (v.getLsbD j != decide (j = 31))

/-- R122, R123, R126, R127: the other validators pass exactly the values the rules name, and a passing delta has a code of
ten bits that is the delta plus 512. -/
def Obligations.ValidatorsPassExactlyTheirRanges : Prop :=
  (∀ v : BitVec 8, versionOk v = true ↔ v = 1)
  ∧ (∀ (n : Nat) (t : BitVec 8), vtypeOk n t = true ↔ 1 ≤ t.toNat ∧ t.toNat ≤ n)
  ∧ (∀ d : BitVec 8, dirOk d = true ↔ d.toNat ≤ 179 ∨ d.toNat = 255)
  ∧ (∀ v : BitVec 16, deltaOk v.toInt = true ↔ -512 ≤ v.toInt ∧ v.toInt ≤ 511)
  ∧ (∀ v : BitVec 16, deltaOk v.toInt = true →
      (deltaCode v.toInt : Int) = v.toInt + 512 ∧ deltaCode v.toInt < 1024)

/-! ## The message encoder -/

/-- R79, R152, R153, R157: with a message loaded whose checks all hold, ENCMSD completes: RES_BITS is the length of the fields
of R79, RES_BYTES its eighth rounded down, the stream positions below it hold the fields' bits in order (each written over
the old bit as R53 says), every other position keeps its bit, and nothing else changes. -/
def Obligations.EncmsdWritesMessageLayout : Prop :=
  ∀ (s : State) (m : Msd), m.loaded s → m.failure s.cfg = none →
    ∃ t, exec .encmsd s = .next t
      ∧ (∀ p, p < 1120 → t.bufBit p =
          match (m.bits s.cfg)[p]? with
          | some b => storedBit s.cfg.writeMode (s.bufBit p) b
          | none => s.bufBit p)
      ∧ (∀ i, 140 ≤ i → Memory.read t.buf i = Memory.read s.buf i)
      ∧ t = { completed s with
                buf := t.buf, resBits := BitVec.ofNat 16 (m.bits s.cfg).length,
                resBytes := BitVec.ofNat 8 ((m.bits s.cfg).length / 8) }

/-- R79: the length of a message, for a VIN of 17 characters. -/
def Obligations.MessageLengthFormula : Prop :=
  ∀ (c : Config) (m : Msd), m.vin.length = 17 →
    (m.bits c).length = 239
      + (match m.opt with
        | none => 0
        | some (oid, data) => 16 + 8 * (oid.length + data.length))
      + setFlags m.prop + 20 * m.n1.isSome.toNat + 20 * m.n2.isSome.toNat + 8 * m.pax.isSome.toNat

/-- R81, R79: a receiver can read the message back. Two ENCMSD that succeed, each over a cleared BUF and with the same
parameters, and leave the same RES_BITS and the same bits in BUF, had the same message loaded. -/
def Obligations.EncodedBitsDetermineMessage : Prop :=
  ∀ (s u t v : State) (m n : Msd), s.cfg.valid = true → u.cfg = s.cfg → m.loaded s → n.loaded u →
    (∀ p, p < 1120 → s.bufBit p = false) → (∀ p, p < 1120 → u.bufBit p = false) →
    exec .encmsd s = .next t → exec .encmsd u = .next v → t.status = 0 → v.status = 0 →
    t.resBits = v.resBits → (∀ p, p < 1120 → t.bufBit p = v.bufBit p) → m = n

/-- R155, R206: with a message loaded that a check refuses, ENCMSD reports the first check of the schema order that does not
hold, the length last: FAIL, its cause and index, RES_BITS and RES_BYTES 0, every byte of BUF a byte of a draw, and nothing
else changes. That the draw has a number of its own, `bufEpoch`, and that the number is a new one, is log 4's. -/
def Obligations.EncmsdFailsAtFirstInvalidField : Prop :=
  ∀ (s : State) (m : Msd) (c : Cause) (i : Nat), m.loaded s → m.failure s.cfg = some (c, i) →
    ∃ t, exec .encmsd s = .next t
      ∧ (c ≠ .vin → t.causeIndex = 0)
      ∧ t.bufEpoch ≠ s.bufEpoch ∧ (∀ k, t.bufByte k = Config.bufDraw t.bufEpoch k)
      ∧ t = { s with status := 0x01, cause := c.code, causeIndex := BitVec.ofNat 8 i, resBits := 0, resBytes := 0,
                     buf := t.buf, bufEpoch := t.bufEpoch }

/-- R207: the version is read and checked first: unwritten it is the fault, and a version other than 1 is the failure
VERSION, whatever else is unwritten or invalid. The next statement says the same of every input of R154. -/
def Obligations.EncmsdChecksVersionFirst : Prop :=
  ∀ s : State,
    (s.inp.version = none → exec .encmsd s = .fault (.unwrittenInput (.reg .version)))
    ∧ (∀ v, s.inp.version = some v → v ≠ 1 →
        ∃ t, exec .encmsd s = .next t
          ∧ t = { s with status := 0x01, cause := 0x01, causeIndex := 0, resBits := 0, resBytes := 0,
                         buf := t.buf, bufEpoch := t.bufEpoch })

/-- R154, R206, R207: in every state ENCMSD ends as its reads and checks, taken in step order, say: at the first that stops it,
with the fault that names the input if that is an unwritten read, with FAIL, its cause and its index if that is a check that
does not hold (so that an invalid field of an earlier step wins over an unwritten read of a later one, and the other way
round); and with success, the length in RES_BITS and RES_BYTES, if none does. In the last two cases nothing else changes but
BUF and, after FAIL, the number of its draw (log 4). -/
def Obligations.EncmsdEndsAtFirstStop : Prop :=
  ∀ s : State,
    match firstStop s (msdActs s) with
    | some (.fault f) => exec .encmsd s = .fault f
    | some (.fail c i) =>
      ∃ t, exec .encmsd s = .next t
        ∧ t = { s with status := 0x01, cause := c.code, causeIndex := BitVec.ofNat 8 i, resBits := 0, resBytes := 0,
                       buf := t.buf, bufEpoch := t.bufEpoch }
    | none =>
      ∃ t, exec .encmsd s = .next t
        ∧ t = { completed s with
                  buf := t.buf, resBits := BitVec.ofNat 16 (msdLength s), resBytes := BitVec.ofNat 8 (msdLength s / 8) }

/-- R151: if the stream positions that a successful ENCMSD writes were all 0 before it, it ends the same in either write mode.
(R151 asks for the bytes the message reaches to be cleared, which gives this and more.) -/
def Obligations.ClearedBufHidesWriteMode : Prop :=
  ∀ (s t : State) (mode : WriteMode), exec .encmsd s = .next t → t.status = 0 →
    (∀ p, p < t.resBits.toNat → s.bufBit p = false) →
    ∃ u, exec .encmsd { s with cfg := { s.cfg with writeMode := mode } } = .next u
      ∧ (∀ p, p < 1120 → u.bufBit p = t.bufBit p) ∧ u.resBits = t.resBits ∧ u.resBytes = t.resBytes
      ∧ u.status = t.status

/-- R159: a second ENCMSD straight after one that succeeded leaves every bit of BUF and everything else as it is, in either
write mode. -/
def Obligations.SecondEncmsdChangesNothing : Prop :=
  ∀ s t : State, exec .encmsd s = .next t → t.status = 0 →
    ∃ u, exec .encmsd t = .next u ∧ (∀ p, u.bufBit p = t.bufBit p) ∧ u = { t with buf := u.buf }

/-- R154, R159: ENCMSD depends on its read set, on BUF and on the parameters only. The read set in `s` is every input that the
acts of R154 read there until one of them ends the command: OID and DATA bytes below their length, VIN up to the first
character without a code, an optional part only if its presence bit is 1, and nothing after the step that fails. Two states
with the same parameters whose values agree on it end alike, bit for bit where their BUFs agreed. -/
def Obligations.EncmsdDependsOnReadSetOnly : Prop :=
  ∀ s u : State, s.cfg = u.cfg →
    (∀ src, src ∈ readsUntilStop s (msdActs s) → inputValue s src = inputValue u src) →
    sameMsdEnd s u (exec .encmsd s) (exec .encmsd u)

/-! ## The ERA-GLONASS encoder and the mask mappers -/

/-- R183: with a sub-message loaded, ENCERA completes: DATA[0] to DATA[4] are written with the fields of R80 and 0 after them,
whatever they held, every other byte of DATA reads as before, RES_BITS is the length, and nothing else changes. -/
def Obligations.EnceraWritesSubMessage : Prop :=
  ∀ (s : State) (m : Era), m.loaded s →
    ∃ t, exec .encera s = .next t
      ∧ (∀ p, p < 40 → arrBit t.data p = some ((m.bits[p]?).getD false))
      ∧ (∀ j, 5 ≤ j → Memory.read t.data j = Memory.read s.data j)
      ∧ t = { completed s with data := t.data, resBits := BitVec.ofNat 16 m.bits.length }

/-- R80: the length of a sub-message is 11, and 21 and 6 more for the groups present. -/
def Obligations.SubMessageLengthFormula : Prop :=
  ∀ m : Era, m.bits.length = 11 + 21 * m.diag.isSome.toNat + 6 * m.crash.isSome.toNat

/-- R33, R180, R207: in every state ENCERA faults at the first input it needs that is unwritten, in the order of R181 (for the two
vectors of one group that order is log 16's), and completes with OK if all that it needs are written: the three presence and
severity registers, and the two vectors of each group that is present. A group that is absent is not read. -/
def Obligations.EnceraFaultsOnUnwrittenGroup : Prop :=
  ∀ s : State,
    match firstStop s (eraActs s) with
    | some (.fault f) => exec .encera s = .fault f
    | some (.fail _ _) => False
    | none => ∃ t, exec .encera s = .next t ∧ t.status = 0

/-- R191: with MASK written, MAPDIAG completes: bit k of ERA_DIAG_PRES and of ERA_DIAG_VAL is the mask bit that the tables
name, ERA_DIAG_PRESENT is 1, and nothing else changes. -/
def Obligations.MapdiagSpreadsMask : Prop :=
  ∀ (s : State) (m : BitVec 64), s.cfg.valid = true → s.inp.mask = some m →
    ∃ t pres val, exec .mapdiag s = .next t
      ∧ (∀ k, k < 21 → pres.getLsbD k = m.getLsbD (s.cfg.diagPresBit[k]?.getD 0))
      ∧ (∀ k, k < 21 → val.getLsbD k = m.getLsbD (s.cfg.diagValBit[k]?.getD 0))
      ∧ t = { completed s with
                inp := { s.inp with eraDiagPres := some pres, eraDiagVal := some val, eraDiagPresent := some 1 } }

/-- R193: with MASK written, MAPCRASH completes: bit k of ERA_CRASH_PRES and of ERA_CRASH_VAL is the bit of MASK[15:0] that
the tables name, ERA_CRASH_PRESENT is 1, and nothing else changes. -/
def Obligations.MapcrashSpreadsMask : Prop :=
  ∀ (s : State) (m : BitVec 64), s.cfg.valid = true → s.inp.mask = some m →
    ∃ t pres val, exec .mapcrash s = .next t
      ∧ (∀ k, k < 6 → pres.getLsbD k = m.getLsbD (s.cfg.crashPresBit[k]?.getD 0))
      ∧ (∀ k, k < 6 → val.getLsbD k = m.getLsbD (s.cfg.crashValBit[k]?.getD 0))
      ∧ t = { completed s with
                inp := { s.inp with eraCrashPres := some pres, eraCrashVal := some val, eraCrashPresent := some 1 } }

/-- R193: MASK[63:16] has no effect on MAPCRASH, whatever the tables hold. -/
def Obligations.MapcrashIgnoresHighMask : Prop :=
  ∀ (s : State) (m n : BitVec 64), m.extractLsb' 0 16 = n.extractLsb' 0 16 →
    ∃ t, exec .mapcrash { s with inp := { s.inp with mask := some m } } = .next t
      ∧ exec .mapcrash { s with inp := { s.inp with mask := some n } }
          = .next { t with inp := { t.inp with mask := some n } }

/-- R33: the commands that read one register fault when it is unwritten: ENCWIDE (with legal arguments and a length that is
not 0) on WIDE, the mappers on MASK. -/
def Obligations.UnwrittenWideOrMaskFaults : Prop :=
  ∀ s : State,
    (∀ len off, 1 ≤ len → len ≤ 16 → off + len ≤ 0xFFFF → s.inp.wide = none →
      exec (.encwide len off) s = .fault (.unwrittenInput (.reg .wide)))
    ∧ (s.inp.mask = none → exec .mapdiag s = .fault (.unwrittenInput (.reg .mask))
        ∧ exec .mapcrash s = .fault (.unwrittenInput (.reg .mask)))

/-! ## Rules over all commands -/

/-- R22: no command writes an input register, except that MAPDIAG writes its three and MAPCRASH its three. -/
def Obligations.CommandsWriteNoOtherInputRegister : Prop :=
  ∀ (i : Instr) (s t : State), exec i s = .next t →
    (i ≠ .mapdiag → i ≠ .mapcrash → t.inp = s.inp)
    ∧ (i = .mapdiag → ∀ r, Reg.number r ∉ [0x31, 0x32, 0x33] → 8 ≤ Reg.number r → Reg.contents t r = Reg.contents s r)
    ∧ (i = .mapcrash → ∀ r, Reg.number r ∉ [0x34, 0x35, 0x36] → 8 ≤ Reg.number r → Reg.contents t r = Reg.contents s r)

/-- R38: every command writes STATUS, CAUSE and CAUSE_INDEX and none reads them: a command ends the same whatever they held.
That the draw which a failing ENCMSD leaves in BUF is the same on both sides is log 4's, since both start from one state. -/
def Obligations.CommandsForgetOldOutcome : Prop :=
  ∀ (i : Instr) (s : State) (a b c : BitVec 8),
    exec i { s with status := a, cause := b, causeIndex := c } = exec i s

/-- R30: a command writes no array but its own: BUF is ENCBITS's, ENCWIDE's and ENCMSD's, DATA is ENCERA's, and SRC, VIN and
OID no command's. -/
def Obligations.CommandsWriteOnlyTheirArrays : Prop :=
  ∀ (i : Instr) (s t : State), exec i s = .next t →
    t.src = s.src ∧ t.vin = s.vin ∧ t.oid = s.oid
    ∧ (i ≠ .encera → t.data = s.data)
    ∧ ((∀ l o, i ≠ .encbits l o) → (∀ l o, i ≠ .encwide l o) → i ≠ .encmsd →
        t.buf = s.buf ∧ t.bufEpoch = s.bufEpoch)

/-- R21, R29: a command leaves every result register that is not its own. -/
def Obligations.CommandsWriteOnlyTheirResults : Prop :=
  ∀ (i : Instr) (s t : State), exec i s = .next t →
    ((∀ l o, i ≠ .encbits l o) → (∀ l o, i ≠ .encwide l o) → t.resOffset = s.resOffset)
    ∧ (i ≠ .encmsd → i ≠ .encera → t.resBits = s.resBits)
    ∧ (i ≠ .encmsd → t.resBytes = s.resBytes)
    ∧ ((∀ c, i ≠ .alnum c) → t.resCode = s.resCode)

/-- R203: only ENCMSD raises a validation failure, and R128: none is PROPULSION. -/
def Obligations.OnlyEncmsdRaisesFail : Prop :=
  ∀ (i : Instr) (s t : State), exec i s = .next t → (t.status = 0x01 → i = .encmsd) ∧ t.cause ≠ 0x04

/-- R33, R154, R207: a fault of a command names an input that the command may read and that no write has defined. -/
def Obligations.FaultNamesUnwrittenInput : Prop :=
  ∀ (i : Instr) (s : State) (f : Fault), exec i s = .fault f →
    ∃ src, f = .unwrittenInput src ∧ mayRead i src ∧ unwritten s src

/-- Every step ends in a next state or in the fault of R207 on a command's read: nothing is refused. -/
def Obligations.NoStepIsRefused : Prop :=
  ∀ (s : State) (x : Refusal), step s ≠ .refused x

/-- R34, R37: a command leaves what stands outside MSDENC: the operations to come, what the host has read, the draws of host
reads. -/
def Obligations.CommandsLeaveHostSide : Prop :=
  ∀ (i : Instr) (s t : State), exec i s = .next t →
    t.pending = s.pending ∧ t.readData = s.readData ∧ t.hostDraws = s.hostDraws

/-- R232: the parameters are fixed for life: no step changes them, a reset included. -/
def Obligations.StepKeepsParameters : Prop :=
  ∀ s t : State, step s = .next t → t.cfg = s.cfg

/-- The invariant holds after reset, whatever values the OPEN parameters have. The form of an array, the defaults that the
parameters adopt and their conditions are the model's (log 4, 6, 7, 11). -/
def Obligations.ResetMeetsInvariant : Prop := Safety.Inv State.reset

/-- Every step keeps the invariant: STATUS, CAUSE and CAUSE_INDEX stay a combination that R200 to R202 allow, RES_BITS stays at
most 1120 (R153, R156) and RES_BYTES and RES_CODE in the ranges of R21; and, the model's own, the arrays stay in the canonical
form of log 4 below their sizes (R30, R50), and the parameters keep `Config.valid` (R120, R123, R190, with log 11). -/
def Obligations.StepKeepsInvariant : Prop :=
  ∀ s t : State, Safety.Inv s → step s = .next t → Safety.Inv t
end

