-- ==== Sys2Proof/Laws/PerInstr.lean ====
section
/-! SUPPORT. A fact about every command as syntax, one lemma per constructor: the word of a command has the command's opcode
in its field OP (30_encoding.md R72), whatever its operands. -/

namespace Sys2Proof.Laws.OpcodeField

/-- Field OP of the word of `i` holds the opcode of `i`. -/
def Statement (i : Instr) : Prop := opField (encode i) = i.opcode

theorem opField_cmdWord (op a b : Nat) (h : op < 2 ^ 8) : opField (cmdWord op a b) = op := by
  simp only [opField, cmdWord, BitVec.extractLsb'_toNat, BitVec.toNat_ofNat, Nat.shiftRight_zero]
  omega

theorem encbits (len off : Nat) : Statement (.encbits len off) := opField_cmdWord _ _ _ (by decide)

theorem encwide (len off : Nat) : Statement (.encwide len off) := opField_cmdWord _ _ _ (by decide)

theorem alnum (c : Byte) : Statement (.alnum c) := opField_cmdWord _ _ _ (by decide)

theorem encmsd : Statement .encmsd := opField_cmdWord _ _ _ (by decide)

theorem encera : Statement .encera := opField_cmdWord _ _ _ (by decide)

theorem mapdiag : Statement .mapdiag := opField_cmdWord _ _ _ (by decide)

theorem mapcrash : Statement .mapcrash := opField_cmdWord _ _ _ (by decide)

end Sys2Proof.Laws.OpcodeField
end

