-- ==== Sys2Proof/Tests/Slice0.lean ====
section
/-! SUPPORT. Tests. Expected results come from spec/95_test_vectors.md (the vector is named in the comment) or are worked out by
hand from the rule named. The last part holds, for each statement with hypotheses, states and operands that meet them. -/

namespace Sys2Proof.Tests

-- The tests are checked one after the other: a thread for each that waits would take more memory than the check has.
set_option Elab.async false

open Sys2Proof.Machine Sys2Proof.Safety

/-! ## Helpers -/

/-- BUF after CLRBUF: every byte written as 0 (R78). -/
def zeros : Memory := (List.range 140).map (fun i => (i, 0))

/-- The cells of bytes from index 0 on. -/
def cells (i : Nat) : List Byte → Memory
  | [] => []
  | b :: bs => (i, b) :: cells (i + 1) bs

/-- The platform's parameters with the mask positions at R190's defaults, as 95_test_vectors.md has them. -/
def defaults : Config :=
  { Config.platform with
    diagPresBit := Config.defaultPresBit 21, diagValBit := Config.defaultValBit 21
    crashPresBit := Config.defaultPresBit 6, crashValBit := Config.defaultValBit 6 }

/-- The state after reset with these parameters and BUF cleared. -/
def cleared : State := { State.reset with cfg := defaults, buf := zeros }

/-- The codes of the VIN that 95_test_vectors.md uses throughout. -/
def vinBytes : List Byte :=
  [0x57, 0x56, 0x57, 0x5A, 0x5A, 0x5A, 0x31, 0x4A, 0x5A, 0x33, 0x57, 0x33, 0x38, 0x36, 0x37, 0x35, 0x32]

/-- The input registers of the base message B0 of 95_test_vectors.md 2.4. -/
def inputsB0 : Inputs :=
  { Inputs.unwritten with
    version := some 1, optPresent := some 0, msgid := some 1, ctrlAuto := some 0, ctrlTest := some 0, ctrlTrust := some 1,
    vtype := some 1, prop := some 0, timestamp := some 0, lat := some 0, lon := some 0, dir := some 0,
    n1Present := some 0, n2Present := some 0, paxPresent := some 0 }

/-- B0 loaded over a cleared BUF. -/
def b0 : State := { cleared with inp := inputsB0, vin := cells 0 vinBytes }

/-- The state that an outcome holds. -/
def after : Host.Outcome State Fault Refusal → State
  | .next t => t
  | _ => State.reset

/-- The outcome is a next state. -/
def runs : Host.Outcome State Fault Refusal → Bool
  | .next _ => true
  | _ => false

theorem next_of_runs {o : Host.Outcome State Fault Refusal} (h : runs o = true) : o = .next (after o) := by
  cases o with
  | next t => rfl
  | fault f => cases h
  | refused r => cases h

/-- The outcome, and the first `n` bytes of BUF, if it is a next state. -/
def bufOf (n : Nat) (o : Host.Outcome State Fault Refusal) : Option (BitVec 8 × List Byte) :=
  match o with
  | .next t => some (t.status, (List.range n).map t.bufByte)
  | _ => none

/-- STATUS, CAUSE, CAUSE_INDEX and RES_BITS, if the outcome is a next state. -/
def flagsOf (o : Host.Outcome State Fault Refusal) : Option (List Nat) :=
  match o with
  | .next t => some [t.status.toNat, t.cause.toNat, t.causeIndex.toNat, t.resBits.toNat]
  | _ => none

/-! ## WellFormed: an ill-formed term for each check -/

theorem test_wf_refuses_encbits_len : (Instr.encbits 256 0).wf = false := by decide
theorem test_wf_refuses_encbits_off : (Instr.encbits 0 65536).wf = false := by decide
theorem test_wf_refuses_encwide_len : (Instr.encwide 256 0).wf = false := by decide
theorem test_wf_refuses_encwide_off : (Instr.encwide 0 65536).wf = false := by decide
theorem test_wf_takes_largest : (Instr.encbits 255 65535).wf = true := by decide

/-! ## Decode: a word of each constructor, from R70 to R72 and the words of 95_test_vectors.md -/

/-- V-B1. -/
theorem test_decode_encbits : decode 0x00060601 = .ok (.encbits 6 6) := rfl
/-- V-W7: A = 10, B = 1115. -/
theorem test_decode_encwide : decode 0x045B0A02 = .ok (.encwide 10 1115) := rfl
/-- V-A10: 'W' is 0x57. -/
theorem test_decode_alnum : decode 0x00005703 = .ok (.alnum 0x57) := rfl
/-- R77. -/
theorem test_decode_encmsd : decode 0x00000010 = .ok .encmsd := rfl
/-- R77. -/
theorem test_decode_encera : decode 0x00000011 = .ok .encera := rfl
/-- R77. -/
theorem test_decode_mapdiag : decode 0x00000020 = .ok .mapdiag := rfl
/-- R77. -/
theorem test_decode_mapcrash : decode 0x00000021 = .ok .mapcrash := rfl
/-- V-D4: OP is checked first. -/
theorem test_decode_bad_opcode : decode 0x12345604 = .error .badOpcode := rfl
/-- V-D7. -/
theorem test_decode_alnum_reserved : decode 0x00015703 = .error .reservedBits := rfl
/-- V-D5. -/
theorem test_decode_encmsd_reserved : decode 0x00000110 = .error .reservedBits := rfl
/-- V-D6. -/
theorem test_decode_encera_reserved : decode 0x00010011 = .error .reservedBits := rfl
/-- V-D8. -/
theorem test_decode_mapdiag_reserved : decode 0x00000120 = .error .reservedBits := rfl
/-- V-D9. -/
theorem test_decode_mapcrash_reserved : decode 0x80000021 = .error .reservedBits := rfl
/-- R77: `ENCBITS 8, 0xFFF7`, the word of V-B10. -/
theorem test_encode_encbits : encode (.encbits 8 0xFFF7) = 0xFFF70801 := by decide

/-! ## ENCBITS and ENCWIDE -/

/-- V-B1: six bits at position 6 straddle two bytes. -/
theorem test_encbits_straddles :
    bufOf 2 (exec (.encbits 6 6) { cleared with src := [(0, 0x2D)] }) = some (0, [0x02, 0xD0]) := by decide +kernel

/-- V-B9: the bits at positions 1120 and above are dropped, and RES_OFFSET is 1126. -/
theorem test_encbits_drops_past_buf :
    (after (exec (.encbits 8 1118) { cleared with src := [(0, 0xFF)] })).bufByte 139 = 0x03
    ∧ (after (exec (.encbits 8 1118) { cleared with src := [(0, 0xFF)] })).resOffset = 1126 := by decide +kernel

/-- V-W3: ten bits of 0x0200 at position 3. -/
theorem test_encwide_bits :
    bufOf 2 (exec (.encwide 10 3) { cleared with inp := { Inputs.unwritten with wide := some 0x0200 } })
      = some (0, [0x10, 0x00]) := by decide +kernel

/-- V-W9: 16 bits at 0xFFF0 pass the 16-bit offset. -/
theorem test_encwide_overflow : flagsOf (exec (.encwide 16 0xFFF0) cleared) = some [3, 0x11, 0, 0] := by decide +kernel

/-- The write-mode vector of 2.2: 0x01 over 0xFF. -/
theorem test_write_modes :
    (after (exec (.encbits 8 0) { State.reset with
        cfg := { Config.platform with writeMode := .overwrite }, src := [(0, 1)], buf := [(0, 0xFF)] })).bufByte 0 = 0x01
    ∧ (after (exec (.encbits 8 0) { State.reset with
        cfg := { Config.platform with writeMode := .or }, src := [(0, 1)], buf := [(0, 0xFF)] })).bufByte 0 = 0xFF := by
  decide +kernel

/-! ## ALNUM -/

/-- V-A9 and V-A10: U and W, on either side of the letters the table leaves out. -/
theorem test_alnum_letters :
    (after (exec (.alnum 0x55) State.reset)).resCode = 0x1B ∧ (after (exec (.alnum 0x57) State.reset)).resCode = 0x1D := by
  decide +kernel

/-- V-A12: I is not in the table, and that is no error. -/
theorem test_alnum_unsupported :
    (after (exec (.alnum 0x49) State.reset)).resCode = 0xFF
    ∧ flagsOf (exec (.alnum 0x49) State.reset) = some [0, 0, 0, 0] := by decide +kernel

/-! ## ENCMSD -/

/-- V-M1: the message B0. -/
theorem test_encmsd_b0 :
    bufOf 31 (exec .encmsd b0) = some (0,
      [0x01, 0x00, 0x90, 0x75, 0xC7, 0x60, 0x82, 0x00, 0x52, 0x80, 0x37, 0x43, 0x20, 0x61, 0xC5, 0x08, 0x00, 0x00, 0x00,
       0x00, 0x08, 0x00, 0x00, 0x00, 0x08, 0x00, 0x00, 0x00, 0x00, 0x00, 0x00]) := by decide +kernel

/-- The registers of V-M2. -/
def inputsM2 : Inputs :=
  { inputsB0 with
    msgid := some 2, ctrlAuto := some 1, vtype := some 2, prop := some 0x11, timestamp := some 0x5A0B1C2D,
    lat := some 0x09A7EC80, lon := some 0xF055FD80, dir := some 45, n1Present := some 1, n1Dlat := some 0xFE00,
    n1Dlon := some 0x01FF, n2Present := some 1, n2Dlat := some 0, n2Dlon := some 0xFFFF, paxPresent := some 1,
    pax := some 3 }

/-- V-M2: two propulsion flags doubled, positions biased, both deltas and the passengers present. -/
theorem test_encmsd_full :
    bufOf 37 (exec .encmsd { b0 with inp := inputsM2 }) = some (0,
      [0x01, 0x01, 0x51, 0x75, 0xC7, 0x60, 0x82, 0x00, 0x52, 0x80, 0x37, 0x43, 0x20, 0x61, 0xC5, 0x0B, 0x19, 0x68, 0x2C,
       0x70, 0xB6, 0x26, 0x9F, 0xB2, 0x01, 0xC1, 0x57, 0xF6, 0x00, 0xB6, 0x00, 0x7F, 0xF8, 0x01, 0xFF, 0x81, 0x80]) := by
  decide +kernel

/-! ## ENCERA, MAPDIAG, MAPCRASH -/

/-- V-E3: both groups; the last bits of DATA[4] are 0 whatever DATA held. -/
theorem test_encera_groups :
    (List.range 6).map (Memory.read (after (exec .encera { cleared with
        data := [(4, 0xFF), (5, 0xAA)],
        inp := { Inputs.unwritten with
          eraSevere := some 1, eraDiagPresent := some 1, eraDiagPres := some 0x1FFFFF, eraDiagVal := some 0x100001,
          eraCrashPresent := some 1, eraCrashPres := some 0x3F, eraCrashVal := some 0x22 } })).data)
      = [some 0x01, some 0xF0, some 0x00, some 0x01, some 0x44, some 0xAA] := by decide +kernel

/-- V-E7: the diagnostic group absent, its registers unwritten and not read. -/
theorem test_encera_crash_only :
    flagsOf (exec .encera { cleared with
        inp := { Inputs.unwritten with
          eraSevere := some 0, eraDiagPresent := some 0, eraCrashPresent := some 1, eraCrashPres := some 0x3F,
          eraCrashVal := some 0x21 } }) = some [0, 0, 0, 17] := by decide +kernel

/-- V-P7. -/
theorem test_mapdiag :
    (after (exec .mapdiag { cleared with
      inp := { Inputs.unwritten with mask := some 0x0000035555555557 } })).inp
      = { Inputs.unwritten with
          mask := some 0x0000035555555557, eraDiagPres := some 0x1FFFFF, eraDiagVal := some 0x100001,
          eraDiagPresent := some 1 } := by decide +kernel

/-- V-C6. -/
theorem test_mapcrash :
    (after (exec .mapcrash { cleared with inp := { Inputs.unwritten with mask := some 0x0D5D } })).inp
      = { Inputs.unwritten with
          mask := some 0x0D5D, eraCrashPres := some 0x3F, eraCrashVal := some 0x22, eraCrashPresent := some 1 } := by
  decide +kernel

/-! ## Failures and faults -/

/-- V-M42: VTYPE 0 is reported before the character O at VIN[9]. -/
theorem test_fail_first_in_schema_order :
    flagsOf (exec .encmsd { b0 with inp := { inputsB0 with vtype := some 0 }, vin := Memory.write b0.vin 9 0x4F })
      = some [1, 2, 0, 0] := by decide +kernel

/-- V-M25: the character O at VIN[9]. -/
theorem test_fail_vin_index :
    flagsOf (exec .encmsd { b0 with vin := Memory.write b0.vin 9 0x4F }) = some [1, 3, 9, 0] := by decide +kernel

/-- P5: OID 1, 4, 1, 105 bytes of data and one propulsion flag make 1120 bits; a second flag makes 1121. -/
theorem test_length_bound :
    flagsOf (exec .encmsd { b0 with
      inp := { inputsB0 with optPresent := some 1, oidLen := some 3, dataLen := some 105, prop := some 1 },
      oid := cells 0 [1, 4, 1], data := cells 0 (List.replicate 105 0xA5) }) = some [0, 0, 0, 1120]
    ∧ flagsOf (exec .encmsd { b0 with
      inp := { inputsB0 with optPresent := some 1, oidLen := some 3, dataLen := some 105, prop := some 3 },
      oid := cells 0 [1, 4, 1], data := cells 0 (List.replicate 105 0xA5) }) = some [1, 12, 0, 0] := by decide +kernel

/-- 2.7: ENCMSD issued straight after reset is the model's fault at VERSION. -/
theorem test_encmsd_from_reset :
    step (State.reset.withFetchWord 32 0x00000010) = .fault (.unwrittenInput (.reg .version)) := rfl

/-- V-D5 through the host interface. -/
theorem test_step_reserved_word : flagsOf (step (b0.withFetchWord 32 0x00000110)) = some [2, 0x21, 0, 0] := by
  decide +kernel

/-! ## The assembler syntax -/

/-- R77: the word of `ENCBITS 6, 6`, V-B1. -/
theorem test_line_encbits :
    (readLine (ascii "  ENCBITS 6, 6 ; six bits")).map (Line.events 0) = some [.regWrite 0 0x00060601] := by
  decide +kernel

/-- R77, R121: a quoted character is its code, V-A10. -/
theorem test_line_alnum :
    (readLine (ascii "ALNUM 'W'")).map (Line.events 0) = some [.regWrite 0 0x00005703] := by decide +kernel

/-- R77: hexadecimal. -/
theorem test_line_wr : (readLine (ascii "WR LAT, 0x09A7EC80")).map (Line.events 0) = some [.regWrite 0x1B 162000000] := by
  decide +kernel

/-- Log 15: a blank line and a bare comment are no line; SETOID with no bytes writes the length 0. -/
theorem test_line_choices :
    readLine (ascii "  ") = none ∧ readLine (ascii "; six bits") = none
    ∧ (readLine (ascii "SETOID")).map (Line.events 0) = some [.regWrite 0x12 0] := by decide +kernel

/-- P3 line 8: ERA2OPT after a RES_BITS of 38. -/
theorem test_line_era2opt :
    (readLine (ascii "ERA2OPT")).map (Line.events 38)
      = some [.regWrite 0x11 1, .regWrite 0x12 3, .arrWrite 2 0 1, .arrWrite 2 1 4, .arrWrite 2 2 1, .regWrite 0x13 5] := by
  decide +kernel

/-! ## Hypotheses that can be met

For each statement with hypotheses, a state and operands that meet them all; for one with several clauses, each clause, at a
boundary of its range. -/

theorem met_DecodeEncodeAgree : (Instr.encwide 255 65535).wf = true ∧ (Instr.alnum 0xFF).wf = true := by decide
theorem met_EncodeDecodeAgree : decode 0xFFFFFF02 = .ok (.encwide 255 65535) := rfl
theorem met_CommandWordsOfSyntax : 255 < 256 ∧ 65535 < 65536 := by decide

theorem met_BadOpcodeWordOnlyReportsIt :
    (0x00000000#32).toNat % 256 ∉ [0x01, 0x02, 0x03, 0x10, 0x11, 0x20, 0x21]
    ∧ (0x12345604#32).toNat % 256 ∉ [0x01, 0x02, 0x03, 0x10, 0x11, 0x20, 0x21]
    ∧ (0x000000FF#32).toNat % 256 ∉ [0x01, 0x02, 0x03, 0x10, 0x11, 0x20, 0x21] := by decide

theorem met_ReservedBitsWordOnlyReportsIt :
    ((0x00010003#32).toNat % 256 = 0x03 ∧ (0x00010003#32).toNat / 65536 ≠ 0)
    ∧ ((0x00000110#32).toNat % 256 ∈ [0x10, 0x11, 0x20, 0x21] ∧ (0x00000110#32).toNat / 256 ≠ 0)
    ∧ ((0x80000021#32).toNat % 256 ∈ [0x10, 0x11, 0x20, 0x21] ∧ (0x80000021#32).toNat / 256 ≠ 0) := by decide

theorem met_StepRunsIssuedCommand :
    (b0.withFetchWord 32 0x10).pending = .regWrite 0 0x10 :: [] ∧ decode (BitVec.ofNat 32 0x10) = .ok .encmsd := ⟨rfl, rfl⟩

theorem met_FetchWordRunsNext :
    decodeTableWord 32 0x00005703 = some (.alnum 0x57) ∧ decodeTableWord 8 0x10 = some .encmsd := ⟨rfl, rfl⟩

theorem met_IdleStepHoldsState : b0.pending = [] := rfl

theorem met_HostWriteStoresModuloWidth : 8 ≤ Reg.number .wide ∧ 8 ≤ Reg.number .eraCrashVal := by decide

theorem met_HostAccessesWithoutEffect :
    (∀ rn ∈ [0x01, 0x07, 0x0A, 0x0F, 0x26, 0x2F, 0x37, 0xFF],
      1 ≤ rn ∧ rn ≤ 7 ∨ 0x0A ≤ rn ∧ rn ≤ 0x0F ∨ 0x26 ≤ rn ∧ rn ≤ 0x2F ∨ 0x37 ≤ rn ∧ rn ≤ 0xFF)
    ∧ (∀ rn ∈ [0x00, 0x0A, 0x0F, 0x26, 0x2F, 0x37, 0xFF],
      rn = 0 ∨ 0x0A ≤ rn ∧ rn ≤ 0x0F ∨ 0x26 ≤ rn ∧ rn ≤ 0x2F ∨ 0x37 ≤ rn ∧ rn ≤ 0xFF)
    ∧ 0xFF < 0x100 := by decide

theorem met_HostReadReturnsRegister :
    Reg.contents b0 .ctrlTrust = some 1 ∧ Reg.contents State.reset .resBits = some 0 := ⟨rfl, rfl⟩

theorem met_HostReadOfUnwrittenIsDraw :
    (Reg.contents State.reset .version = none ∧ Reg.contents State.reset .mask = none)
    ∧ ∀ a ∈ [ArrId.src, .vin, .oid, .data], a ≠ .buf ∧ 0 < ArrId.size a
      ∧ Memory.read (State.reset.arr a) 0 = none ∧ Memory.read (State.reset.arr a) (ArrId.size a - 1) = none := by
  decide

theorem met_WriteThenReadReturnsValue : 8 ≤ Reg.number .wide ∧ 8 ≤ Reg.number .mask := by decide

theorem met_ArrayAccessesByIndex :
    (3 < ArrId.size .src ∧ 139 < ArrId.size .buf) ∧ (ArrId.size .src ≤ 4 ∧ ArrId.size .oid ≤ 255)
    ∧ (16 < ArrId.size .vin ∧ b0.byteContents .vin 16 = some 0x32)
    ∧ (139 < ArrId.size .buf ∧ b0.byteContents .buf 139 = some 0) := by decide +kernel

theorem met_PutbitsBytesAreValue :
    65535 < 65536 ∧ 0 ≤ 8 ∧ 8 ≤ 8
    ∧ ∀ len ∈ [16, 24, 32], len = 16 ∨ len = 24 ∨ len = 32 := by decide

theorem met_ClrbufClearsItsBytes :
    ({ b0 with pending := Line.events 0 (.clrbuf 140) } : State).pending = Line.events 0 (.clrbuf 140)
    ∧ (Line.events 0 (.clrbuf 140)).length = 140 ∧ Line.events 0 (.clrbuf 0) = [] := ⟨rfl, rfl, rfl⟩

theorem met_PutBitWritesOneBit : 0 ≤ 1119 ∧ 1119 ≤ 1119 ∧ (1118 : Nat) ≠ 1119 := by decide

/-- SRC written with four bytes. -/
def sourced : State := { cleared with src := cells 0 [0x12, 0x34, 0x56, 0x78] }

theorem met_EncbitsAppendsSourceBits :
    (0 + 0xFFFF ≤ 0xFFFF ∧ ([] : List Byte).length = 0 ∧ holds sourced.src [])
    ∧ (8 ≤ 8 ∧ 0xFFF7 + 8 ≤ 0xFFFF ∧ holds sourced.src [0x12])
    ∧ (0xFFDF + 32 ≤ 0xFFFF ∧ [0x12, 0x34, 0x56, 0x78].length = 32 / 8 ∧ holds sourced.src [0x12, 0x34, 0x56, 0x78]) := by
  unfold holds
  decide +kernel

theorem met_EncbitsArgumentErrors :
    ¬(9 ≤ 8 ∨ 9 = 16 ∨ 9 = 24 ∨ 9 = 32) ∧ ¬(33 ≤ 8 ∨ 33 = 16 ∨ 33 = 24 ∨ 33 = 32)
    ∧ ((8 ≤ 8 ∨ 8 = 16 ∨ 8 = 24 ∨ 8 = 32) ∧ 0xFFFF < 0xFFF8 + 8) := by decide

theorem met_EncbitsFaultsOnUnwrittenSource :
    (Memory.read State.reset.src 0 = none ∧ 0xFFFE + 1 ≤ 0xFFFF)
    ∧ ((∀ j, j < 3 → Memory.read (cells 0 [0x12, 0x34, 0x56]) j ≠ none)
        ∧ Memory.read (cells 0 [0x12, 0x34, 0x56]) 3 = none ∧ 3 < 32 / 8) := by decide

/-- WIDE written, and the same value in SRC[0]. -/
def widened : State :=
  { cleared with inp := { Inputs.unwritten with wide := some 0x00A5 }, src := [(0, 0xA5)] }

theorem met_EncwideAppendsWideBits :
    widened.inp.wide = some 0x00A5 ∧ 16 ≤ 16 ∧ 0xFFEF + 16 ≤ 0xFFFF ∧ 0xFFFF + 0 ≤ 0xFFFF := by decide +kernel

theorem met_EncwideArgumentErrors : 16 < 17 ∧ 16 < 255 ∧ (16 ≤ 16 ∧ 0xFFFF < 0xFFF0 + 16) := by decide

theorem met_EncwideAndEncbitsAgree :
    widened.inp.wide = some ((0xA5 : Byte).setWidth 16) ∧ Memory.read widened.src 0 = some 0xA5
    ∧ (1 ≤ 1 ∧ 8 ≤ 8) ∧ 0xFFF7 + 8 ≤ 0xFFFF := by decide +kernel

theorem met_AlnumReturnsTableIndex :
    b0.cfg.valid = true ∧ b0.cfg.alnumTable[32]? = some 0x5A ∧ 0x49 ∉ b0.cfg.alnumTable := by decide +kernel

theorem met_ValidatorsPassExactlyTheirRanges :
    deltaOk (0xFE00#16).toInt = true ∧ deltaOk (0x01FF#16).toInt = true := by decide

/-- The message B0 of 95_test_vectors.md. -/
def messageB0 : Msd :=
  { version := 1, opt := none, msgid := 1, auto := 0, test := 0, trust := 1, vtype := 1, vin := vinBytes, prop := 0,
    timestamp := 0, lat := 0, lon := 0, dir := 0, n1 := none, n2 := none, pax := none }

theorem met_EncmsdWritesMessageLayout : messageB0.loaded b0 ∧ messageB0.failure b0.cfg = none :=
  ⟨⟨rfl, rfl, rfl, rfl, rfl, rfl, rfl, by unfold holds; decide +kernel, rfl, rfl, rfl, rfl, rfl, rfl, rfl, rfl, rfl⟩,
    by decide +kernel⟩

theorem met_MessageLengthFormula : messageB0.vin.length = 17 := rfl

/-- A message with everything optional: V-M2's fields, OID 1, 4, 1 and two bytes of data. -/
def messageFull : Msd :=
  { version := 1, opt := some ([1, 4, 1], [0xAA, 0x55]), msgid := 2, auto := 1, test := 0, trust := 1, vtype := 2,
    vin := vinBytes, prop := 0x11, timestamp := 0x5A0B1C2D, lat := 0x09A7EC80, lon := 0xF055FD80, dir := 45,
    n1 := some (0xFE00, 0x01FF), n2 := some (0, 0xFFFF), pax := some 3 }

/-- The state that holds it. -/
def full : State :=
  { b0 with
    inp := { inputsM2 with optPresent := some 1, oidLen := some 3, dataLen := some 2 },
    oid := cells 0 [1, 4, 1], data := cells 0 [0xAA, 0x55] }

theorem met_EncmsdWritesMessageLayout_optional :
    messageFull.loaded full ∧ messageFull.failure full.cfg = none :=
  ⟨⟨rfl, rfl, rfl, rfl, rfl, rfl, rfl, by unfold holds; decide +kernel, rfl, rfl, rfl, rfl, rfl,
      ⟨rfl, by decide, by decide, rfl, by unfold holds; decide +kernel, rfl, by unfold holds; decide +kernel⟩,
      ⟨rfl, rfl, rfl⟩, ⟨rfl, rfl, rfl⟩, ⟨rfl, rfl⟩⟩,
    by decide +kernel⟩

/-- V-M27: the character a at VIN[16]. -/
theorem met_EncmsdFailsAtFirstInvalidField :
    ({ messageB0 with vin := vinBytes.take 16 ++ [0x61] } : Msd).loaded { b0 with vin := Memory.write b0.vin 16 0x61 }
    ∧ ({ messageB0 with vin := vinBytes.take 16 ++ [0x61] } : Msd).failure b0.cfg = some (.vin, 16) :=
  ⟨⟨rfl, rfl, rfl, rfl, rfl, rfl, rfl, by unfold holds; decide +kernel, rfl, rfl, rfl, rfl, rfl, rfl, rfl, rfl, rfl⟩,
    by decide +kernel⟩

/-- V-M33: direction 180. -/
theorem met_EncmsdFailsAtFirstInvalidField_dir :
    ({ messageB0 with dir := 180 } : Msd).loaded { b0 with inp := { inputsB0 with dir := some 180 } }
    ∧ ({ messageB0 with dir := 180 } : Msd).failure b0.cfg = some (.dir, 0) :=
  ⟨⟨rfl, rfl, rfl, rfl, rfl, rfl, rfl, by unfold holds; decide +kernel, rfl, rfl, rfl, rfl, rfl, rfl, rfl, rfl, rfl⟩,
    by decide +kernel⟩

theorem met_EncmsdChecksVersionFirst :
    State.reset.inp.version = none
    ∧ ({ b0 with inp := { inputsB0 with version := some 2 } } : State).inp.version = some 2 ∧ (2 : BitVec 8) ≠ 1 := by
  decide +kernel

/-- Each way `firstStop` can end, at the ends of the list of acts: the first read; an invalid field of an earlier step before an
unwritten read of a later one, and the other way round; the last read (PAX); the length; and no stop. -/
theorem met_EncmsdEndsAtFirstStop :
    firstStop State.reset (msdActs State.reset) = some (.fault (.unwrittenInput (.reg .version)))
    ∧ firstStop { b0 with inp := { inputsB0 with vtype := some 0 }, vin := [] }
        (msdActs { b0 with inp := { inputsB0 with vtype := some 0 }, vin := [] }) = some (.fail .vtype 0)
    ∧ firstStop { b0 with inp := { inputsB0 with vtype := none, dir := some 180 } }
        (msdActs { b0 with inp := { inputsB0 with vtype := none, dir := some 180 } })
        = some (.fault (.unwrittenInput (.reg .vtype)))
    ∧ firstStop { b0 with inp := { inputsB0 with paxPresent := some 1 } }
        (msdActs { b0 with inp := { inputsB0 with paxPresent := some 1 } }) = some (.fault (.unwrittenInput (.reg .pax)))
    ∧ firstStop b0 (msdActs b0) = none := by decide +kernel

/-- P5's message with a second propulsion flag is 1121 bits: the length is the first act that stops it. -/
theorem met_EncmsdEndsAtFirstStop_length :
    firstStop
      { b0 with
        inp := { inputsB0 with optPresent := some 1, oidLen := some 3, dataLen := some 105, prop := some 3 },
        oid := cells 0 [1, 4, 1], data := cells 0 (List.replicate 105 0xA5) }
      (msdActs
        { b0 with
          inp := { inputsB0 with optPresent := some 1, oidLen := some 3, dataLen := some 105, prop := some 3 },
          oid := cells 0 [1, 4, 1], data := cells 0 (List.replicate 105 0xA5) }) = some (.fail .length 0) := by
  decide +kernel

theorem b0_runs : exec .encmsd b0 = .next (after (exec .encmsd b0)) := next_of_runs (by decide +kernel)

/-- Bytes of BUF that are 0 make its stream positions 0. -/
theorem bits_of_zero_bytes {s : State} {n : Nat} (h : ∀ i, i < n → s.bufByte i = 0) (p : Nat) (hp : p / 8 < n) :
    s.bufBit p = false := by
  show (s.bufByte (p / 8)).getLsbD (7 - p % 8) = false
  rw [h _ hp]
  simp

/-- B0 over a BUF whose bytes past the message hold 0xFF: R151 asks nothing of them. -/
def b0Dirty : State := { b0 with buf := (List.range 140).map (fun i => (i, if i < 31 then 0 else 0xFF)) }

theorem met_ClearedBufHidesWriteMode :
    exec .encmsd b0Dirty = .next (after (exec .encmsd b0Dirty)) ∧ (after (exec .encmsd b0Dirty)).status = 0
    ∧ (∀ p, p < (after (exec .encmsd b0Dirty)).resBits.toNat → b0Dirty.bufBit p = false) := by
  have len : (after (exec .encmsd b0Dirty)).resBits.toNat = 239 := by decide +kernel
  have zero : ∀ i, i < 30 → b0Dirty.bufByte i = 0 := by decide +kernel
  exact ⟨next_of_runs (by decide +kernel), by decide +kernel, fun p hp => bits_of_zero_bytes zero p (by omega)⟩

/-- B0 loaded in two states that differ where ENCMSD does not look. -/
theorem met_EncodedBitsDetermineMessage :
    b0.cfg.valid = true ∧ messageB0.loaded b0 ∧ messageB0.loaded { b0 with resOffset := 5 }
    ∧ (∀ p, p < 1120 → b0.bufBit p = false)
    ∧ exec .encmsd b0 = .next (after (exec .encmsd b0))
    ∧ exec .encmsd { b0 with resOffset := 5 } = .next (after (exec .encmsd { b0 with resOffset := 5 }))
    ∧ (after (exec .encmsd b0)).status = 0 ∧ (after (exec .encmsd { b0 with resOffset := 5 })).status = 0
    ∧ (after (exec .encmsd b0)).resBits = (after (exec .encmsd { b0 with resOffset := 5 })).resBits
    ∧ (after (exec .encmsd b0)).buf = (after (exec .encmsd { b0 with resOffset := 5 })).buf :=
  ⟨by decide +kernel, met_EncmsdWritesMessageLayout.1, met_EncmsdWritesMessageLayout.1,
    fun p hp => bits_of_zero_bytes (n := 140) (by decide +kernel) p (by omega), b0_runs,
    next_of_runs (by decide +kernel), by decide +kernel, by decide +kernel, by decide +kernel, by decide +kernel⟩

theorem met_SecondEncmsdChangesNothing :
    exec .encmsd full = .next (after (exec .encmsd full)) ∧ (after (exec .encmsd full)).status = 0 :=
  ⟨next_of_runs (by decide +kernel), by decide +kernel⟩

/-- Two states that differ in registers and bytes that R154 says are not read in `full` or `b0`: the optional parts that are
absent, OID and DATA at and past their length, the other commands' inputs, the outcome (V-M45). -/
theorem met_EncmsdDependsOnReadSetOnly :
    (∀ src ∈ readsUntilStop b0 (msdActs b0),
      inputValue b0 src = inputValue { b0 with
        inp := { inputsB0 with n1Dlat := some 600, oidLen := some 9, pax := some 7, mask := some 5 },
        src := [(0, 1)], data := [(3, 3)], status := 3, resOffset := 17 } src)
    ∧ (∀ src ∈ readsUntilStop full (msdActs full),
      inputValue full src = inputValue { full with oid := cells 0 [1, 4, 1, 7], data := cells 0 [0xAA, 0x55, 9] } src) := by
  decide +kernel

/-- V-E3's registers. -/
def eraBoth : State :=
  { b0 with
    inp := { inputsB0 with
      eraSevere := some 1, eraDiagPresent := some 1, eraDiagPres := some 0x1FFFFF, eraDiagVal := some 0x100001,
      eraCrashPresent := some 1, eraCrashPres := some 0x3F, eraCrashVal := some 0x22 } }

/-- Neither group present, their registers unwritten. -/
def eraNone : State :=
  { b0 with inp := { inputsB0 with eraSevere := some 0, eraDiagPresent := some 0, eraCrashPresent := some 0 } }

/-- A state with one of ENCERA's registers unwritten. -/
def without (r : Reg) (s : State) : State :=
  { s with
    inp := { s.inp with
      eraSevere := if r = .eraSevere then none else s.inp.eraSevere
      eraDiagPresent := if r = .eraDiagPresent then none else s.inp.eraDiagPresent
      eraDiagPres := if r = .eraDiagPres then none else s.inp.eraDiagPres
      eraDiagVal := if r = .eraDiagVal then none else s.inp.eraDiagVal
      eraCrashPresent := if r = .eraCrashPresent then none else s.inp.eraCrashPresent
      eraCrashPres := if r = .eraCrashPres then none else s.inp.eraCrashPres
      eraCrashVal := if r = .eraCrashVal then none else s.inp.eraCrashVal } }

theorem met_EnceraWritesSubMessage :
    ({ severe := 1, diag := some (0x1FFFFF, 0x100001), crash := some (0x3F, 0x22) } : Era).loaded eraBoth
    ∧ ({ severe := 0, diag := none, crash := none } : Era).loaded eraNone :=
  ⟨⟨rfl, ⟨rfl, rfl, rfl⟩, ⟨rfl, rfl, rfl⟩⟩, ⟨rfl, rfl, rfl⟩⟩

/-- Every register of R180, unwritten where it is needed, is a first stop; none is where all that is needed is written, an
absent group's registers unwritten. -/
theorem met_EnceraFaultsOnUnwrittenGroup :
    (∀ r ∈ [Reg.eraDiagPresent, .eraCrashPresent, .eraSevere, .eraDiagPres, .eraDiagVal, .eraCrashPres, .eraCrashVal],
      firstStop (without r eraBoth) (eraActs (without r eraBoth)) = some (.fault (.unwrittenInput (.reg r))))
    ∧ firstStop eraBoth (eraActs eraBoth) = none
    ∧ firstStop eraNone (eraActs eraNone) = none := by
  decide +kernel

/-- MASK written. -/
def masked : State := { b0 with inp := { inputsB0 with mask := some 0x0000035555555557 } }

theorem met_MapdiagSpreadsMask : masked.cfg.valid = true ∧ masked.inp.mask = some 0x0000035555555557 := by decide +kernel

theorem met_MapcrashSpreadsMask : masked.cfg.valid = true ∧ masked.inp.mask = some 0x0000035555555557 := by decide +kernel

/-- V-C1's mask and 0 agree below bit 16. -/
theorem met_MapcrashIgnoresHighMask : (0x00000000FFFF0000#64).extractLsb' 0 16 = (0#64).extractLsb' 0 16 := by decide

theorem met_UnwrittenWideOrMaskFaults :
    b0.inp.wide = none ∧ b0.inp.mask = none ∧ (1 ≤ 1 ∧ 0xFFFE + 1 ≤ 0xFFFF) ∧ (16 ≤ 16 ∧ 0xFFEF + 16 ≤ 0xFFFF) := by
  decide +kernel

/-- A next state of every command: what the statements over all commands speak of. -/
theorem met_every_command :
    exec (.encbits 32 0) sourced = .next (after (exec (.encbits 32 0) sourced))
    ∧ exec (.encwide 16 0) widened = .next (after (exec (.encwide 16 0) widened))
    ∧ exec (.alnum 0x41) b0 = .next (after (exec (.alnum 0x41) b0))
    ∧ exec .encmsd b0 = .next (after (exec .encmsd b0))
    ∧ exec .encera eraBoth = .next (after (exec .encera eraBoth))
    ∧ exec .mapdiag masked = .next (after (exec .mapdiag masked))
    ∧ exec .mapcrash masked = .next (after (exec .mapcrash masked)) :=
  ⟨next_of_runs (by decide +kernel), next_of_runs (by decide +kernel), next_of_runs (by decide +kernel), b0_runs,
    next_of_runs (by decide +kernel), next_of_runs (by decide +kernel), next_of_runs (by decide +kernel)⟩

theorem met_CommandsWriteNoOtherInputRegister :
    exec .mapdiag masked = .next (after (exec .mapdiag masked))
    ∧ (Reg.number .eraCrashVal ∉ [0x31, 0x32, 0x33] ∧ 8 ≤ Reg.number .wide)
    ∧ (Reg.number .eraDiagVal ∉ [0x34, 0x35, 0x36] ∧ 8 ≤ Reg.number .eraDiagVal) :=
  ⟨met_every_command.2.2.2.2.2.1, by decide, by decide⟩

theorem met_CommandsWriteOnlyTheirArrays : exec .encera eraBoth = .next (after (exec .encera eraBoth)) :=
  met_every_command.2.2.2.2.1

theorem met_CommandsWriteOnlyTheirResults : exec (.alnum 0x41) b0 = .next (after (exec (.alnum 0x41) b0)) :=
  met_every_command.2.2.1

/-- V-M20: a failure, so that the premise on STATUS holds too. -/
theorem met_OnlyEncmsdRaisesFail :
    runs (exec .encmsd { b0 with inp := { inputsB0 with version := some 2 } }) = true
    ∧ (after (exec .encmsd { b0 with inp := { inputsB0 with version := some 2 } })).status = 0x01 := by decide +kernel

theorem met_FaultNamesUnwrittenInput :
    exec .encmsd State.reset = .fault (.unwrittenInput (.reg .version))
    ∧ exec .mapdiag b0 = .fault (.unwrittenInput (.reg .mask)) := ⟨rfl, rfl⟩

theorem met_CommandsLeaveHostSide : exec .mapcrash masked = .next (after (exec .mapcrash masked)) :=
  met_every_command.2.2.2.2.2.2

theorem met_StepKeepsParameters :
    step (before .reset b0) = .next (after (step (before .reset b0))) := next_of_runs (by decide +kernel)

theorem met_StepKeepsInvariant :
    Safety.Inv (b0.withFetchWord 32 0x10)
    ∧ step (b0.withFetchWord 32 0x10) = .next (after (step (b0.withFetchWord 32 0x10))) := by
  refine ⟨?_, next_of_runs (by decide +kernel)⟩
  unfold Safety.Inv
  decide +kernel

end Sys2Proof.Tests
end

/-! Host accesses: a step whose next operation is known, and what that operation gives for each number, register and byte. -/

namespace Sys2Proof.Machine

open Sys2Proof.Safety

/-- A step performs the operation put before those pending. -/
@[simp] theorem step_before (e : Event) (s : State) : step (before e s) = perform e s := rfl

/-! ## Register numbers -/

/-- R21 assigns no register to these numbers, nor to any above 0xFF (log 13). -/
theorem Reg.ofNumber_unassigned {rn : Nat} (h : 0x0A ≤ rn ∧ rn ≤ 0x0F ∨ 0x26 ≤ rn ∧ rn ≤ 0x2F ∨ 0x37 ≤ rn) :
    Reg.ofNumber rn = none := by
  cases hr : Reg.ofNumber rn with
  | none => rfl
  | some r =>
    have hnum := Reg.number_of_ofNumber hr
    cases r <;> simp only [Reg.number] at hnum <;> omega

/-! ## Register accesses -/

theorem regWrite_unassigned {rn : Nat} (h : Reg.ofNumber rn = none) (v : Nat) (s : State) :
    regWrite rn v s = .next s := by
  simp only [regWrite, h]

/-- A write to a register other than CMD stores it. -/
theorem regWrite_number {r : Reg} (h : r ≠ .cmd) (v : Nat) (s : State) :
    regWrite (Reg.number r) v s = .next { s with inp := Reg.store r v s.inp } := by
  rcases regWrite_cases (Reg.number r) v s with ⟨hnone, _⟩ | ⟨hcmd, _⟩ | ⟨q, hq, _, hw⟩
  · simp at hnone
  · simp [h] at hcmd
  · rw [Reg.ofNumber_number, Option.some.injEq] at hq
    rw [hw, hq]

/-- A write to a read-only register changes nothing (R24). -/
theorem regWrite_readOnly {rn : Nat} (h : 1 ≤ rn ∧ rn ≤ 7) (v : Nat) (s : State) : regWrite rn v s = .next s := by
  rcases regWrite_cases rn v s with ⟨_, hw⟩ | ⟨hcmd, _⟩ | ⟨r, hr, _, hw⟩
  · exact hw
  · have hzero : 0 = rn := Reg.number_of_ofNumber hcmd
    omega
  · have hnum := Reg.number_of_ofNumber hr
    rw [hw, Reg.store_readOnly (by omega)]

theorem regRead_unassigned {rn : Nat} (h : Reg.ofNumber rn = none) (s : State) : regRead rn s = s.returnRead 0 := by
  simp only [regRead, h]

theorem regRead_of_contents {s : State} {r : Reg} {v : Nat} (h : Reg.contents s r = some v) :
    regRead (Reg.number r) s = s.returnRead v := by
  simp only [regRead, Reg.ofNumber_number, h]

theorem regRead_of_unwritten {s : State} {r : Reg} (h : Reg.contents s r = none) :
    regRead (Reg.number r) s = s.drawRead (Reg.width r) := by
  simp only [regRead, Reg.ofNumber_number, h]

/-- No register is wider than the value a host read returns (R21). -/
theorem Reg.width_le (r : Reg) : Reg.width r ≤ 64 := by
  cases r <;> decide

/-- The value of a draw fits the width read. -/
theorem readData_drawRead_lt (w : Nat) (s : State) : (s.drawRead w).readData.toNat < 2 ^ w := by
  have hdraw : (Config.hostDraw s.hostDraws).toNat % 2 ^ w < 2 ^ w := Nat.mod_lt _ (Nat.two_pow_pos w)
  rw [State.drawRead_readData, BitVec.toNat_ofNat]
  exact (Nat.mod_le _ _).trans_lt hdraw

/-! ## Array accesses -/

@[simp] theorem ArrId.ofId_id (a : ArrId) : ArrId.ofId (ArrId.id a) = some a := by
  cases a <;> rfl

theorem arrTarget_in {a : ArrId} {i : Nat} (h : i < ArrId.size a) : arrTarget (ArrId.id a) i = some a := by
  simp only [arrTarget, ArrId.ofId_id, if_pos h]

theorem arrTarget_out {a : ArrId} {i : Nat} (h : ArrId.size a ≤ i) : arrTarget (ArrId.id a) i = none := by
  simp only [arrTarget, ArrId.ofId_id, if_neg (Nat.not_lt.2 h)]

theorem arrWrite_in {a : ArrId} {i : Nat} (h : i < ArrId.size a) (v : Nat) (s : State) :
    arrWrite (ArrId.id a) i v s = s.setArr a (Memory.write (s.arr a) i (BitVec.ofNat 8 v)) := by
  simp only [arrWrite, arrTarget_in h]

theorem arrWrite_out {a : ArrId} {i : Nat} (h : ArrId.size a ≤ i) (v : Nat) (s : State) :
    arrWrite (ArrId.id a) i v s = s := by
  simp only [arrWrite, arrTarget_out h]

theorem arrRead_out {a : ArrId} {i : Nat} (h : ArrId.size a ≤ i) (s : State) :
    arrRead (ArrId.id a) i s = s.returnRead 0 := by
  simp only [arrRead, arrTarget_out h]

theorem arrRead_of_byteContents {s : State} {a : ArrId} {i : Nat} {b : Byte} (h : i < ArrId.size a)
    (hb : s.byteContents a i = some b) : arrRead (ArrId.id a) i s = s.returnRead b.toNat := by
  simp only [arrRead, arrTarget_in h, hb]

theorem arrRead_of_unwritten {s : State} {a : ArrId} {i : Nat} (h : i < ArrId.size a)
    (hb : s.byteContents a i = none) : arrRead (ArrId.id a) i s = s.drawRead 8 := by
  simp only [arrRead, arrTarget_in h, hb]

/-- What an array byte holds: the byte listed, or in BUF that of the current draw. -/
theorem byteContents_eq (s : State) (a : ArrId) (i : Nat) :
    s.byteContents a i
      = (Memory.read (s.arr a) i).or (if a = .buf then some (Config.bufDraw s.bufEpoch i) else none) := by
  cases a with
  | buf => simp only [State.byteContents, State.bufByte, bufByteOf, State.arr]; cases Memory.read s.buf i <;> rfl
  | src | vin | oid | data => exact (Option.or_none).symm

/-- Every byte after one byte of one array is written. -/
theorem byteContents_setArr_write (s : State) (a b : ArrId) (i j : Nat) (v : Byte) :
    (s.setArr a (Memory.write (s.arr a) i v)).byteContents b j
      = if (b, j) = (a, i) then some v else s.byteContents b j := by
  simp only [byteContents_eq, State.arr_setArr, State.setArr_bufEpoch, Prod.mk.injEq]
  by_cases hab : a = b
  · subst hab
    rw [if_pos rfl, Memory.read_write]
    by_cases hij : i = j
    · subst hij; simp
    · simp [hij, Ne.symm hij]
  · simp [hab, Ne.symm hab]

/-! ## The obligations -/

/-- Settles O7: the step performs the write of CMD, which issues the word. -/
theorem stepRunsIssuedCommand : Obligations.StepRunsIssuedCommand := by
  unfold Obligations.StepRunsIssuedCommand
  intro s v rest i hpending hdecode
  rcases step_cases s with ⟨hnil, _⟩ | ⟨e, rest', hcons, hstep⟩
  · simp [hpending] at hnil
  · obtain ⟨rfl, rfl⟩ := List.cons.inj (hpending.symm.trans hcons)
    rw [hstep]
    exact issue_of_decode hdecode _

/-- A word of the opcode table that is a command decodes to it. -/
theorem decode_of_decodeTableWord {nbits w : Nat} {i : Instr} (h : decodeTableWord nbits w = some i) :
    decode (BitVec.ofNat 32 (w % 2 ^ nbits)) = .ok i := by
  unfold decodeTableWord at h
  split at h
  · cases h
  · cases hdecode : decode (BitVec.ofNat 32 (w % 2 ^ nbits)) with
    | ok j => rw [hdecode] at h; cases h; rfl
    | error e => rw [hdecode] at h; cases h

/-- Settles O8: the word placed is the next operation's, so that O7 speaks of the step. -/
theorem fetchWordRunsNext : Obligations.FetchWordRunsNext := by
  unfold Obligations.FetchWordRunsNext
  intro s nbits w i h
  exact stepRunsIssuedCommand (s.withFetchWord nbits w) _ s.pending i rfl (decode_of_decodeTableWord h)

/-- Settles O10, by what `Reg.store` does to its own register and to every other. -/
theorem hostWriteStoresModuloWidth : Obligations.HostWriteStoresModuloWidth := by
  unfold Obligations.HostWriteStoresModuloWidth
  intro s r v hr
  have hcmd : r ≠ .cmd := by rintro rfl; simp [Reg.number] at hr
  exact ⟨{ s with inp := Reg.store r v s.inp }, regWrite_number hcmd v s, Reg.contents_store r hr v s,
    fun q hq => Reg.contents_store_other r q hq.symm v s, rfl⟩

/-- Settles O11: by the kind of the number for writes and for reads that return 0, and by the frames of the two reads. -/
theorem hostAccessesWithoutEffect : Obligations.HostAccessesWithoutEffect := by
  unfold Obligations.HostAccessesWithoutEffect
  simp only [step_before, perform, Host.Outcome.next.injEq]
  refine ⟨fun s rn v h => ?_, fun s rn h => ?_, fun s rn v h => ?_, fun s rn => ?_, fun s id i => ?_⟩
  · rcases h with hro | hun
    · exact regWrite_readOnly hro v s
    · exact regWrite_unassigned (Reg.ofNumber_unassigned (by omega)) v s
  · rcases h with rfl | hun
    · exact regRead_of_contents (r := .cmd) rfl
    · exact regRead_unassigned (Reg.ofNumber_unassigned (by omega)) s
  · have hun : Reg.ofNumber rn = none := Reg.ofNumber_unassigned (by omega)
    exact ⟨regWrite_unassigned hun v s, regRead_unassigned hun s⟩
  · exact ⟨_, rfl, regRead_frame rn s⟩
  · exact ⟨_, rfl, arrRead_frame id i s⟩

/-- Settles O12: a register's value fits the value that a host read returns. -/
theorem hostReadReturnsRegister : Obligations.HostReadReturnsRegister := by
  unfold Obligations.HostReadReturnsRegister
  intro s r v hv
  refine ⟨s.returnRead v, congrArg _ (regRead_of_contents hv), rfl, ?_⟩
  have hlt : v < 2 ^ 64 := (Reg.contents_lt hv).trans_le (Nat.pow_le_pow_right (by decide) (Reg.width_le r))
  rw [State.returnRead_readData, BitVec.toNat_ofNat, Nat.mod_eq_of_lt hlt]

/-- Settles O13: register and byte alike are read by `State.drawRead`. -/
theorem hostReadOfUnwrittenIsDraw : Obligations.HostReadOfUnwrittenIsDraw := by
  unfold Obligations.HostReadOfUnwrittenIsDraw
  refine ⟨fun s r hr => ?_, fun s a i ha hi hbyte => ?_⟩
  · exact ⟨s.drawRead (Reg.width r), congrArg _ (regRead_of_unwritten hr), rfl,
      readData_drawRead_lt _ s, rfl⟩
  · have hnone : s.byteContents a i = none := by rw [byteContents_eq, hbyte, if_neg ha]; rfl
    exact ⟨s.drawRead 8, congrArg _ (arrRead_of_unwritten hi hnone), rfl, readData_drawRead_lt 8 s, rfl⟩

/-- Settles O15, by whether the index is inside the array. -/
theorem arrayAccessesByIndex : Obligations.ArrayAccessesByIndex := by
  unfold Obligations.ArrayAccessesByIndex
  refine ⟨fun s a i v hi => ?_, fun s a i v hi => ?_, fun s a i b hi hb => ?_⟩
  · refine ⟨_, congrArg _ (arrWrite_in hi v s), ?_, fun b j hbj => ?_, ?_⟩
    · rw [byteContents_setArr_write, if_pos rfl]
    · rw [byteContents_setArr_write, if_neg hbj]
    · rw [State.arr_setArr, if_pos rfl]
  · exact ⟨congrArg _ (arrWrite_out hi v s), congrArg _ (arrRead_out hi s)⟩
  · exact congrArg _ (arrRead_of_byteContents hi hb)

end Sys2Proof.Machine

/-! Rules over all commands: what each leaves as it was, what its fault names, and that the old outcome has no part in it. -/

namespace Sys2Proof.Machine

open Sys2Proof.Safety

/-! ## Faults -/

/-- With arguments that pass both checks, a bit writer ends as its field does. -/
theorem appendField_of_legal {len off : Nat} (hoff : offsetOk len off = true) (field : Enc (List Bool)) (s : State) :
    appendField true len off field s
      = conclude field s (fun bs => ((s.emit off bs).setOffset (off + len)).succeed) := by
  simp [appendField, hoff]

/-- A bit writer faults only where its field does, and only after the length has passed its check. -/
theorem appendField_eq_fault {ok : Bool} {len off : Nat} {field : Enc (List Bool)} {s : State} {f : Fault}
    (h : appendField ok len off field s = .fault f) : ok = true ∧ field = .error (.fault f) := by
  unfold appendField at h
  split at h
  · cases h
  · next hok =>
    split at h
    · cases h
    · exact ⟨by simpa using hok, conclude_eq_fault.1 h⟩

/-- A fault of a command names an input that the command may read and that is unwritten. -/
theorem exec_fault {i : Instr} {s : State} {src : Source} (h : exec i s = .fault (.unwrittenInput src)) :
    Missing i s src := by
  cases i with
  | encbits len off =>
    obtain ⟨hlen, hfield⟩ := appendField_eq_fault h
    exact (Ends_encbitsField len off s hlen).of_fault hfield
  | encwide len off => exact (Ends_encwideField len off s).of_fault (appendField_eq_fault h).2
  | alnum c => cases h
  | encmsd => exact (Ends_msdMessage s).of_fault (conclude_eq_fault.1 h)
  | encera => exact (Ends_eraMessage s).of_fault (conclude_eq_fault.1 h)
  | mapdiag => exact (Ends_needMask .mapdiag (.inl rfl) s).of_fault (conclude_eq_fault.1 h)
  | mapcrash => exact (Ends_needMask .mapcrash (.inr rfl) s).of_fault (conclude_eq_fault.1 h)

/-- Settles O54: for each command, by the ends of the computation it concludes. -/
theorem faultNamesUnwrittenInput : Obligations.FaultNamesUnwrittenInput := by
  unfold Obligations.FaultNamesUnwrittenInput
  rintro i s ⟨src⟩ h
  obtain ⟨hread, hnone⟩ := exec_fault h
  exact ⟨src, rfl, hread, hnone⟩

/-- ENCBITS reads one byte for a length of 1 to 8, and whole bytes for 16, 24 and 32: where the first of them that is
unwritten is byte `k`, the field is the fault that names it. -/
theorem encbitsField_fault {s : State} {len k : Nat}
    (hk : 1 ≤ len ∧ len ≤ 8 ∧ k = 0 ∨ (len = 16 ∨ len = 24 ∨ len = 32) ∧ k < len / 8)
    (hwritten : ∀ j, j < k → Memory.read s.src j ≠ none) (hnone : Memory.read s.src k = none) :
    encbitsField len s = .error (.fault (.unwrittenInput (.byte .src k))) := by
  unfold encbitsField
  rw [if_neg (by omega)]
  rcases hk with ⟨_, h8, rfl⟩ | ⟨hlen, hk⟩
  · have hbyte : readByte .src s 0 = .error (.fault (.unwrittenInput (.byte .src 0))) := by
      simp [readByte, State.arr, hnone]
    rw [if_pos h8, hbyte, error_bind]
  · have hbytes := readBytes_fault (a := .src) (s := s) (len / 8) 0 k hk (by simpa [State.arr] using hwritten)
      (by simpa [State.arr] using hnone)
    rw [Nat.zero_add] at hbytes
    rw [if_neg (by omega), hbytes, error_bind]

/-- Settles O24: both argument checks pass, and the field is the fault. -/
theorem encbitsFaultsOnUnwrittenSource : Obligations.EncbitsFaultsOnUnwrittenSource := by
  unfold Obligations.EncbitsFaultsOnUnwrittenSource
  intro s len off k hk hoff hwritten hnone
  have hlen : encbitsLenOk len = true := (encbitsLenOk_iff len).2 (by omega)
  simp only [exec, execEncbits, hlen, appendField_of_legal ((offsetOk_iff len off).2 hoff),
    encbitsField_fault hk hwritten hnone, conclude]

/-- Settles O48: each of the three commands reads its one register first. -/
theorem unwrittenWideOrMaskFaults : Obligations.UnwrittenWideOrMaskFaults := by
  unfold Obligations.UnwrittenWideOrMaskFaults
  intro s
  refine ⟨fun len off hpos hmax hoff hwide => ?_, fun hmask => ⟨?_, ?_⟩⟩
  · have hfield : encwideField len s = .error (.fault (.unwrittenInput (.reg .wide))) := by
      rw [encwideField, if_neg (by omega), hwide, need_none, error_bind]
    simp only [exec, execEncwide, (encwideLenOk_iff len).2 hmax, appendField_of_legal ((offsetOk_iff len off).2 hoff),
      hfield, conclude]
  · simp only [exec, execMapdiag, hmask, need_none, conclude]
  · simp only [exec, execMapcrash, hmask, need_none, conclude]

/-! ## What a command leaves as it was -/

/-- The input registers after a command: as before, or rewritten by a mapper. -/
theorem exec_inp {i : Instr} {s t : State} (h : exec i s = .next t) :
    (i ≠ .mapdiag ∧ i ≠ .mapcrash ∧ t.inp = s.inp)
    ∨ (i = .mapdiag ∧ ∃ p v, t.inp = (s.setDiag p v).inp)
    ∨ (i = .mapcrash ∧ ∃ p v, t.inp = (s.setCrash p v).inp) := by
  rcases exec_next h with ⟨len, off, rfl | rfl, ⟨c, _, rfl⟩ | ⟨bs, _, rfl⟩⟩ | ⟨c, rfl, rfl⟩
    | ⟨rfl, ⟨bs, _, _, rfl⟩ | ⟨c, k, _, rfl⟩⟩ | ⟨rfl, bs, _, rfl⟩ | ⟨rfl, p, v, rfl⟩ | ⟨rfl, p, v, rfl⟩
  case inr.inr.inr.inr.inl => exact .inr (.inl ⟨rfl, p, v, rfl⟩)
  case inr.inr.inr.inr.inr => exact .inr (.inr ⟨rfl, p, v, rfl⟩)
  all_goals exact .inl ⟨nofun, nofun, rfl⟩

/-- What an input register holds depends on the input registers only. -/
theorem Reg.contents_congr {s t : State} (h : t.inp = s.inp) (r : Reg) (hr : 8 ≤ Reg.number r) :
    Reg.contents t r = Reg.contents s r := by
  have hinp : Reg.contents t r = Reg.contents { s with inp := t.inp } r := by
    cases r <;> first | rfl | (simp [Reg.number] at hr)
  rw [hinp, h]

/-- MAPDIAG's registers apart, the diagnostic pairs' rewriting leaves every register (R22). -/
theorem Reg.contents_setDiag (s : State) (p v : BitVec 21) {r : Reg} (h : Reg.number r ∉ [0x31, 0x32, 0x33]) :
    Reg.contents (s.setDiag p v) r = Reg.contents s r := by
  cases r <;> first | rfl | (simp [Reg.number] at h)

/-- MAPCRASH's registers apart, the crash pairs' rewriting leaves every register (R22). -/
theorem Reg.contents_setCrash (s : State) (p v : BitVec 6) {r : Reg} (h : Reg.number r ∉ [0x34, 0x35, 0x36]) :
    Reg.contents (s.setCrash p v) r = Reg.contents s r := by
  cases r <;> first | rfl | (simp [Reg.number] at h)

/-- Settles O49, by what a command can do to the input registers. -/
theorem commandsWriteNoOtherInputRegister : Obligations.CommandsWriteNoOtherInputRegister := by
  unfold Obligations.CommandsWriteNoOtherInputRegister
  intro i s t h
  rcases exec_inp h with ⟨hdiag, hcrash, hinp⟩ | ⟨rfl, p, v, hinp⟩ | ⟨rfl, p, v, hinp⟩
  · exact ⟨fun _ _ => hinp, fun hi => absurd hi hdiag, fun hi => absurd hi hcrash⟩
  · refine ⟨fun hi => absurd rfl hi, fun _ r hr h8 => ?_, nofun⟩
    rw [Reg.contents_congr hinp r h8, Reg.contents_setDiag s p v hr]
  · refine ⟨fun _ hi => absurd rfl hi, nofun, fun _ r hr h8 => ?_⟩
    rw [Reg.contents_congr hinp r h8, Reg.contents_setCrash s p v hr]

/-- Settles O51: of the updates a command makes, only `emit` and `raiseFail` write BUF and only ENCERA's store writes DATA. -/
theorem commandsWriteOnlyTheirArrays : Obligations.CommandsWriteOnlyTheirArrays := by
  unfold Obligations.CommandsWriteOnlyTheirArrays
  intro i s t h
  rcases exec_next h with ⟨len, off, rfl | rfl, ⟨c, _, rfl⟩ | ⟨bs, _, rfl⟩⟩ | ⟨c, rfl, rfl⟩
    | ⟨rfl, ⟨bs, _, _, rfl⟩ | ⟨c, k, _, rfl⟩⟩ | ⟨rfl, bs, _, rfl⟩ | ⟨rfl, p, v, rfl⟩ | ⟨rfl, p, v, rfl⟩
  case inl.inl.inl | inl.inl.inr => exact ⟨rfl, rfl, rfl, fun _ => rfl, fun hbits => absurd rfl (hbits len off)⟩
  case inl.inr.inl | inl.inr.inr => exact ⟨rfl, rfl, rfl, fun _ => rfl, fun _ hwide => absurd rfl (hwide len off)⟩
  case inr.inr.inl.inl | inr.inr.inl.inr => exact ⟨rfl, rfl, rfl, fun _ => rfl, fun _ _ hmsd => absurd rfl hmsd⟩
  case inr.inr.inr.inl => exact ⟨rfl, rfl, rfl, fun hera => absurd rfl hera, fun _ _ _ => ⟨rfl, rfl⟩⟩
  all_goals exact ⟨rfl, rfl, rfl, fun _ => rfl, fun _ _ _ => ⟨rfl, rfl⟩⟩

/-- Settles O52: each result register is written by the updates of its own commands only. -/
theorem commandsWriteOnlyTheirResults : Obligations.CommandsWriteOnlyTheirResults := by
  unfold Obligations.CommandsWriteOnlyTheirResults
  intro i s t h
  rcases exec_next h with ⟨len, off, rfl | rfl, ⟨c, _, rfl⟩ | ⟨bs, _, rfl⟩⟩ | ⟨c, rfl, rfl⟩
    | ⟨rfl, ⟨bs, _, _, rfl⟩ | ⟨c, k, _, rfl⟩⟩ | ⟨rfl, bs, _, rfl⟩ | ⟨rfl, p, v, rfl⟩ | ⟨rfl, p, v, rfl⟩
  case inl.inl.inl | inl.inl.inr =>
    exact ⟨fun hbits => absurd rfl (hbits len off), fun _ _ => rfl, fun _ => rfl, fun _ => rfl⟩
  case inl.inr.inl | inl.inr.inr =>
    exact ⟨fun _ hwide => absurd rfl (hwide len off), fun _ _ => rfl, fun _ => rfl, fun _ => rfl⟩
  case inr.inl => exact ⟨fun _ _ => rfl, fun _ _ => rfl, fun _ => rfl, fun halnum => absurd rfl (halnum c)⟩
  case inr.inr.inl.inl | inr.inr.inl.inr =>
    exact ⟨fun _ _ => rfl, fun hmsd => absurd rfl hmsd, fun hmsd => absurd rfl hmsd, fun _ => rfl⟩
  case inr.inr.inr.inl => exact ⟨fun _ _ => rfl, fun _ hera => absurd rfl hera, fun _ => rfl, fun _ => rfl⟩
  all_goals exact ⟨fun _ _ => rfl, fun _ _ => rfl, fun _ => rfl, fun _ => rfl⟩

/-- Settles O56: no update that a command makes touches the three fields of the host's side. -/
theorem commandsLeaveHostSide : Obligations.CommandsLeaveHostSide := by
  unfold Obligations.CommandsLeaveHostSide
  intro i s t h
  rcases exec_next h with ⟨len, off, _, ⟨c, _, rfl⟩ | ⟨bs, _, rfl⟩⟩ | ⟨c, _, rfl⟩
    | ⟨_, ⟨bs, _, _, rfl⟩ | ⟨c, k, _, rfl⟩⟩ | ⟨_, bs, _, rfl⟩ | ⟨_, p, v, rfl⟩ | ⟨_, p, v, rfl⟩
  all_goals exact ⟨rfl, rfl, rfl⟩

/-! ## What a command reads -/

theorem encbitsField_congr {s u : State} (hsrc : s.src = u.src) (len : Nat) :
    encbitsField len s = encbitsField len u := by
  have harr : s.arr .src = u.arr .src := hsrc
  simp only [encbitsField, readByte, harr, readBytes_congr harr]

theorem encwideField_congr {s u : State} (hinp : s.inp = u.inp) (len : Nat) :
    encwideField len s = encwideField len u := by
  simp only [encwideField, hinp]

theorem eraMessage_congr {s u : State} (hinp : s.inp = u.inp) : eraMessage s = eraMessage u := by
  simp only [eraMessage, hinp]

theorem msdVinFrom_congr {s u : State} (hvin : s.vin = u.vin) (hcfg : s.cfg = u.cfg) (i n : Nat) :
    msdVinFrom s i n = msdVinFrom u i n := by
  have harr : s.arr .vin = u.arr .vin := hvin
  induction n generalizing i with
  | zero => rfl
  | succ n ih => simp only [msdVinFrom, readByte, harr, hcfg, ih]

/-- ENCMSD's message depends on the input registers, on VIN, OID and DATA, and on the parameters (R154). -/
theorem msdMessage_congr {s u : State} (hinp : s.inp = u.inp) (hvin : s.vin = u.vin) (hoid : s.oid = u.oid)
    (hdata : s.data = u.data) (hcfg : s.cfg = u.cfg) : msdMessage s = msdMessage u := by
  have hoid' : s.arr .oid = u.arr .oid := hoid
  have hdata' : s.arr .data = u.arr .data := hdata
  have hlen (a : ArrId) (ha : s.arr a = u.arr a) (n : Nat) : lenPrefixed a n s = lenPrefixed a n u := by
    simp only [lenPrefixed, readBytes_congr ha]
  have hopt : msdOptional s = msdOptional u := by
    simp only [msdOptional, msdOptionalBody, hinp, hlen .oid hoid', hlen .data hdata']
  have hsteps : msdSteps s = msdSteps u := by
    simp only [msdSteps, msdVersion, hopt, msdMsgid, msdControl, msdVin, msdVinFrom_congr hvin hcfg, msdPropulsion,
      msdTimestamp, msdLocation, msdDirection, msdRecent1, msdRecent2, msdPassengers, hinp, hcfg]
  simp only [msdMessage, hsteps]

/-- Two ends with the same value, whose completions and failures agree, are the same. -/
theorem conclude_congr {α : Type} {r r' : Enc α} {s u : State} {k k' : α → State} (hr : r = r')
    (hk : ∀ a, k a = k' a) (hfail : ∀ c i, s.raiseFail c i = u.raiseFail c i) : conclude r s k = conclude r' u k' := by
  subst hr
  rcases r with (⟨c, i⟩ | f) | a
  · simp only [conclude, hfail]
  · rfl
  · simp only [conclude, hk]

/-- Settles O50: a command's inputs are none of the three outcome registers, and each of its ends writes all three. -/
theorem commandsForgetOldOutcome : Obligations.CommandsForgetOldOutcome := by
  unfold Obligations.CommandsForgetOldOutcome
  intro i s a b c
  have hbits (ok : Bool) (len off : Nat) {field field' : Enc (List Bool)} (hfield : field = field') :
      appendField ok len off field { s with status := a, cause := b, causeIndex := c }
        = appendField ok len off field' s := by subst hfield; rfl
  cases i with
  | encbits len off => exact hbits _ len off (encbitsField_congr (by rfl) len)
  | encwide len off => exact hbits _ len off (encwideField_congr (by rfl) len)
  | alnum ch => rfl
  | encmsd => exact conclude_congr (msdMessage_congr rfl rfl rfl rfl rfl) (fun _ => rfl) (fun _ _ => rfl)
  | encera => exact conclude_congr (eraMessage_congr rfl) (fun _ => rfl) (fun _ _ => rfl)
  | mapdiag => exact conclude_congr rfl (fun _ => rfl) (fun _ _ => rfl)
  | mapcrash => exact conclude_congr rfl (fun _ => rfl) (fun _ _ => rfl)

end Sys2Proof.Machine

/-! A command that ends as its reads and checks say: one predicate over the list of acts with a rule for each operation, and
from it the ends of ENCERA and of ENCMSD. -/

namespace Sys2Proof.Machine

open Sys2Proof.Safety

/-- `r` ends as `acts` say: with the first stop among them, and, if none stops it, with a value that satisfies `R`. -/
def Follows {α : Type} (s : State) (acts : List Act) (R : α → Prop) (r : Enc α) : Prop :=
  match firstStop s acts with
  | some e => r = .error e
  | none => ∃ a, r = .ok a ∧ R a

section

variable {α β : Type} {s : State} {acts acts' : List Act} {R : α → Prop} {R' : β → Prop} {r : Enc α}

theorem Follows.of_stop {e : Stop} (h : Follows s acts R r) (hstop : firstStop s acts = some e) : r = .error e := by
  rw [Follows, hstop] at h
  exact h

theorem Follows.of_none (h : Follows s acts R r) (hstop : firstStop s acts = none) : ∃ a, r = .ok a ∧ R a := by
  rw [Follows, hstop] at h
  exact h

theorem Follows.mono {Q : α → Prop} (h : Follows s acts R r) (hR : ∀ a, R a → Q a) : Follows s acts Q r := by
  unfold Follows at h ⊢
  split at h
  · exact h
  · obtain ⟨a, ha, hRa⟩ := h
    exact ⟨a, ha, hR a hRa⟩

@[simp] theorem Follows_pure {a : α} : Follows s [] R (pure a) ↔ R a :=
  ⟨fun ⟨_, hb, hRb⟩ => (Except.ok.inj hb) ▸ hRb, fun h => ⟨a, rfl, h⟩⟩

/-- Acts one part after the other: the second part's computation starts from the value of the first. -/
theorem Follows.bind {f : α → Enc β} (h : Follows s acts R r) (hf : ∀ a, R a → Follows s acts' R' (f a)) :
    Follows s (acts ++ acts') R' (r >>= f) := by
  unfold Follows
  rw [firstStop_append]
  cases hstop : firstStop s acts with
  | some e =>
    rw [h.of_stop hstop]
    rfl
  | none =>
    obtain ⟨a, rfl, hRa⟩ := h.of_none hstop
    exact hf a hRa

/-- A value made from what a computation gives: the same acts. -/
theorem Follows.bind_pure {f : α → β} (h : Follows s acts R r) (hf : ∀ a, R a → R' (f a)) :
    Follows s acts R' (r >>= fun a => pure (f a)) := by
  rw [← List.append_nil acts]
  exact h.bind (fun a ha => Follows_pure.2 (hf a ha))

/-- One read: its value is what the input holds. -/
theorem Follows_need {w : Nat} {src : Source} {v : Option (BitVec w)} (hv : inputValue s src = v.map BitVec.toNat) :
    Follows s [.read src] (fun a => v = some a) (need src v) := by
  cases v <;> simp [Follows, firstStop, Act.stop, hv]

theorem Follows.need_bind {w : Nat} {src : Source} {v : Option (BitVec w)} {f : BitVec w → Enc β}
    (hv : inputValue s src = v.map BitVec.toNat) (hf : ∀ a, v = some a → Follows s acts R' (f a)) :
    Follows s (.read src :: acts) R' (need src v >>= f) :=
  (Follows_need hv).bind hf

theorem Follows.check_pass {passes : Bool} {c : Cause} {i : Nat} (hp : passes = true) (h : Follows s acts R r) :
    Follows s (.check passes c i :: acts) R r := by
  subst hp
  exact h

theorem Follows.check_fail {passes : Bool} {c : Cause} {i : Nat} (hp : passes = false) :
    Follows s (.check passes c i :: acts) R (throw (.fail c i) : Enc α) := by
  subst hp
  rfl

/-- One check and what follows it. -/
theorem Follows.check {p : Prop} [Decidable p] {passes : Bool} {c : Cause} {i : Nat} (hp : p ↔ passes = true)
    (h : p → Follows s acts R r) :
    Follows s (.check passes c i :: acts) R (if p then r else throw (.fail c i)) := by
  by_cases hpass : p
  · rw [if_pos hpass]
    exact Follows.check_pass (hp.1 hpass) (h hpass)
  · rw [if_neg hpass]
    exact Follows.check_fail (by simpa [hp] using hpass)

/-- Acts and computation that branch on the same condition. -/
theorem Follows.ite {p q : Prop} [Decidable p] [Decidable q] {r' : Enc α} (hpq : p ↔ q)
    (h : q → Follows s acts R r) (h' : ¬q → Follows s acts' R r') :
    Follows s (if p then acts else acts') R (if q then r else r') := by
  by_cases hq : q
  · rw [if_pos (hpq.2 hq), if_pos hq]; exact h hq
  · rw [if_neg (fun hp => hq (hpq.1 hp)), if_neg hq]; exact h' hq

end

/-! ## ENCERA -/

/-- A group of ENCERA: its presence booleans, then its value booleans, if its presence register is 1 (R181; log 16). -/
theorem Follows_eraOptional {s : State} {n : Nat} {rp rv : Reg} {present : Option (BitVec 1)} {d : BitVec 1}
    {pres val : Option (BitVec n)} (hd : present = some d)
    (hp : inputValue s (.reg rp) = pres.map BitVec.toNat) (hv : inputValue s (.reg rv) = val.map BitVec.toNat) :
    Follows s (if present = some 1 then readRegs [rp, rv] else []) (fun _ => True)
      (eraOptional d (need (.reg rp) pres) (need (.reg rv) val)) := by
  subst hd
  refine Follows.ite (by simp) (fun _ => ?_) (fun _ => by simp)
  exact Follows.need_bind hp (fun _ _ => Follows.need_bind hv (fun _ _ => by simp))

/-- ENCERA's sub-message ends as its reads say. -/
theorem Follows_eraMessage (s : State) : Follows s (eraActs s) (fun _ => True) (eraMessage s) := by
  rw [eraActs, List.append_assoc]
  refine Follows.need_bind rfl (fun d hd => Follows.need_bind rfl (fun c hc => Follows.need_bind rfl (fun e _ => ?_)))
  change Follows s (ite _ _ _ ++ ite _ _ _) _ _
  refine Follows.bind (Follows_eraOptional hd rfl rfl) (fun diag _ => ?_)
  exact Follows.bind_pure (Follows_eraOptional hc rfl rfl) (fun crash _ => trivial)

/-- Settles O44: the sub-message ends as its reads say, and raises no failure. -/
theorem enceraFaultsOnUnwrittenGroup : Obligations.EnceraFaultsOnUnwrittenGroup := by
  unfold Obligations.EnceraFaultsOnUnwrittenGroup
  intro s
  have hfollows := Follows_eraMessage s
  simp only [exec, execEncera]
  split
  · next f hstop => rw [hfollows.of_stop hstop]; rfl
  · next c i hstop => exact (Ends_eraMessage s).ne_fail c i (hfollows.of_stop hstop)
  · next hstop =>
    obtain ⟨bs, hbs, _⟩ := hfollows.of_none hstop
    rw [hbs]
    exact ⟨_, rfl, rfl⟩

/-! ## The reads and checks of ENCMSD's steps -/

/-- Bytes read in index order (R57). -/
theorem Follows_readBytes (a : ArrId) (s : State) (i n : Nat) :
    Follows s ((List.range' i n).map (fun k => .read (.byte a k))) (fun bs => bs.length = n) (readBytes a s i n) := by
  induction n generalizing i with
  | zero => exact Follows_pure.2 rfl
  | succ n ih =>
    refine Follows.need_bind rfl (fun b _ => ?_)
    exact (ih (i + 1)).bind_pure (fun bs hbs => by simp [hbs])

/-- A length-prefixed array reads its bytes from index 0 on (R130). -/
theorem Follows_lenPrefixed (a : ArrId) (s : State) (n : Nat) :
    Follows s (readFirst a n) (fun bs => bs.length = 8 + 8 * n) (lenPrefixed a n s) := by
  rw [readFirst, List.range_eq_range']
  exact (Follows_readBytes a s 0 n).bind_pure (fun bs hbs => by simp [hbs])

/-- The two tests of a coordinate agree (R124). -/
theorem posOk_iff_coordinateOk (lim : Int) (v : BitVec 32) : posOk lim v.toInt = true ↔ coordinateOk lim v = true := by
  have hunknown : v.toInt = posUnknown ↔ v = 0x7FFFFFFF := by
    rw [← BitVec.toInt_inj]
    rfl
  simp [posOk, coordinateOk, hunknown]

theorem versionOk_iff (v : BitVec 8) : versionOk v = true ↔ v = 1 := by
  rw [versionOk, decide_eq_true_eq, ← BitVec.toNat_inj]
  rfl

section

variable (s : State)

/-- An input that is read and then checked. -/
theorem Follows_checked {w n : Nat} {src : Source} {v : Option (BitVec w)} {ok : BitVec w → Bool} {passes : Bool}
    {c : Cause} {i : Nat} {f : BitVec w → List Bool} (hv : inputValue s src = v.map BitVec.toNat)
    (hok : ∀ x, v = some x → (ok x = true ↔ passes = true)) (hf : ∀ x, (f x).length = n) :
    Follows s [.read src, .check passes c i] (fun bs => bs.length = n)
      (do let x ← need src v; if ok x then return f x else throw (.fail c i)) :=
  Follows.need_bind hv (fun x hx => Follows.check (hok x hx) (fun _ => Follows_pure.2 (hf x)))

theorem Follows_msdVersion :
    Follows s [.read (.reg .version), .check (decide (s.inp.version = some 1)) .version 0] (fun bs => bs.length = 8)
      (msdVersion s) :=
  Follows_checked s rfl (fun v hv => by simp [hv, versionOk_iff]) (by simp)

/-- A presence register, and what is read and emitted after it if it is 1. -/
theorem Follows_present {src : Source} {present : Option (BitVec 1)} {acts : List Act} {n : Nat}
    {body : BitVec 1 → Enc (List Bool)} (hp : inputValue s src = present.map BitVec.toNat)
    (hbody : ∀ p, Follows s acts (fun bs => bs.length = 1 + n) (body p)) :
    Follows s (.read src :: if present = some 1 then acts else [])
      (fun bs => bs.length = 1 + if present = some 1 then n else 0)
      (do let p ← need src present; if p = 1 then body p else return bitsOfFlag p) := by
  refine Follows.need_bind hp (fun p hv => ?_)
  subst hv
  refine Follows.ite (by simp) (fun h1 => ?_) (fun h1 => ?_)
  · exact (hbody p).mono (fun bs hbs => by simp [h1, hbs])
  · rw [Follows_pure, if_neg (by simpa using h1)]
    simp [bitsOfFlag]

/-- The acts of OID and raw data: each length before its bytes. -/
def optionalActs : List Act :=
  .read (.reg .oidLen) :: (readFirst .oid (s.inp.oidLen.getD 0).toNat
    ++ .read (.reg .dataLen) :: readFirst .data (s.inp.dataLen.getD 0).toNat)

theorem Follows_msdOptionalBody :
    Follows s (optionalActs s)
      (fun bs => bs.length = 16 + 8 * ((s.inp.oidLen.getD 0).toNat + (s.inp.dataLen.getD 0).toNat))
      (msdOptionalBody s) := by
  refine Follows.need_bind rfl (fun n hn => ?_)
  simp only [hn, Option.getD_some]
  refine (Follows_lenPrefixed .oid s n.toNat).bind (fun oid hoid => Follows.need_bind rfl (fun m hm => ?_))
  simp only [hm, Option.getD_some]
  refine (Follows_lenPrefixed .data s m.toNat).bind_pure (fun data hdata => ?_)
  simp only [List.length_append, hoid, hdata]
  omega

theorem Follows_msdOptional :
    Follows s (.read (.reg .optPresent) :: if s.inp.optPresent = some 1 then optionalActs s else [])
      (fun bs => bs.length = 1 + if s.inp.optPresent = some 1
        then 16 + 8 * ((s.inp.oidLen.getD 0).toNat + (s.inp.dataLen.getD 0).toNat) else 0)
      (msdOptional s) := by
  refine Follows_present s rfl (fun p => ?_)
  exact (Follows_msdOptionalBody s).bind_pure (fun bs hbs => by simp [bitsOfFlag, hbs])

theorem Follows_msdMsgid : Follows s (readRegs [.msgid]) (fun bs => bs.length = 8) (msdMsgid s) :=
  Follows.need_bind rfl (fun _ _ => by simp)

/-- The test of the vehicle type (R123). -/
abbrev vtypeCheck : Act :=
  .check (decide (1 ≤ (s.inp.vtype.getD 0).toNat) && decide ((s.inp.vtype.getD 0).toNat ≤ s.cfg.vtMax)) .vtype 0

theorem Follows_msdControl :
    Follows s (readRegs [.ctrlAuto, .ctrlTest, .ctrlTrust, .vtype] ++ [vtypeCheck s]) (fun bs => bs.length = 7)
      (msdControl s) := by
  refine Follows.need_bind rfl (fun a _ => Follows.need_bind rfl (fun t _ => Follows.need_bind rfl (fun p _ =>
    Follows.need_bind rfl (fun v hv => Follows.check ?_ (fun _ => ?_)))))
  · rw [hv]; rfl
  · simp [bitsOfFlag]

/-- One character of the VIN: its read, and whether the table has it (R120). -/
def vinActs (i : Nat) : List Act :=
  [.read (.byte .vin i), .check (decide ((Memory.read s.vin i).getD 0 ∈ s.cfg.alnumTable)) .vin i]

theorem Follows_msdVinFrom (i n : Nat) :
    Follows s ((List.range' i n).flatMap (vinActs s)) (fun bs => bs.length = 6 * n) (msdVinFrom s i n) := by
  induction n generalizing i with
  | zero => exact Follows_pure.2 rfl
  | succ n ih =>
    refine Follows.need_bind rfl (fun ch hch => ?_)
    have hread : Memory.read s.vin i = some ch := hch
    rw [alnumCode_eq]
    by_cases hmem : ch ∈ s.cfg.alnumTable
    · rw [if_pos hmem]
      refine Follows.check_pass (by simpa [hread] using hmem) ((ih (i + 1)).bind_pure (fun bs hbs => ?_))
      rw [List.length_append, bitsOf_length, hbs]
      omega
    · rw [if_neg hmem]
      exact Follows.check_fail (by simpa [hread] using hmem)

theorem Follows_msdVin :
    Follows s ((List.range 17).flatMap (vinActs s)) (fun bs => bs.length = 102) (msdVin s) := by
  rw [List.range_eq_range']
  exact Follows_msdVinFrom s 0 17

/-- A flag of a list is emitted once, and once more if it is set (R128). -/
theorem propFields_length (flag : Nat → Bool) (l : List Nat) :
    (l.flatMap (fun i => propField (flag i))).length = l.length + (l.filter flag).length := by
  induction l with
  | nil => rfl
  | cons i l ih =>
    rw [List.flatMap_cons, List.length_append, ih, List.filter_cons]
    cases flag i <;> simp [propField] <;> omega

theorem Follows_msdPropulsion :
    Follows s (readRegs [.prop]) (fun bs => bs.length = 6 + setFlags (s.inp.prop.getD 0)) (msdPropulsion s) := by
  refine Follows.need_bind rfl (fun v hv => Follows_pure.2 ?_)
  rw [hv, propFields_length, List.length_range]
  rfl

theorem Follows_msdTimestamp : Follows s (readRegs [.timestamp]) (fun bs => bs.length = 32) (msdTimestamp s) :=
  Follows.need_bind rfl (fun _ _ => by simp)

theorem Follows_msdPosition {r : Reg} {v : Option (BitVec 32)} (hv : inputValue s (.reg r) = v.map BitVec.toNat)
    (lim : Int) (c : Cause) :
    Follows s [.read (.reg r), .check (coordinateOk lim (v.getD 0)) c 0] (fun bs => bs.length = 32)
      (msdPosition r v lim c) :=
  Follows_checked s hv (fun x hx => by rw [hx]; exact posOk_iff_coordinateOk lim x) (by simp)

theorem Follows_msdLocation :
    Follows s
      ([.read (.reg .lat), .check (coordinateOk 324000000 (s.inp.lat.getD 0)) .lat 0]
        ++ [.read (.reg .lon), .check (coordinateOk 648000000 (s.inp.lon.getD 0)) .lon 0])
      (fun bs => bs.length = 64) (msdLocation s) := by
  refine (Follows_msdPosition s rfl latLim .lat).bind (fun lat hlat => ?_)
  exact (Follows_msdPosition s rfl lonLim .lon).bind_pure (fun lon hlon => by simp [hlat, hlon])

theorem Follows_msdDirection :
    Follows s
      [.read (.reg .dir),
       .check (decide ((s.inp.dir.getD 0).toNat ≤ 179) || decide ((s.inp.dir.getD 0).toNat = 255)) .dir 0]
      (fun bs => bs.length = 8) (msdDirection s) :=
  Follows_checked s rfl (fun v hv => by rw [hv]; rfl) (by simp)

theorem Follows_msdDelta {r : Reg} {v : Option (BitVec 16)} (hv : inputValue s (.reg r) = v.map BitVec.toNat)
    (c : Cause) :
    Follows s [.read (.reg r), .check (deltaInRange (v.getD 0)) c 0] (fun bs => bs.length = 10) (msdDelta r v c) :=
  Follows_checked s hv (fun x hx => by rw [hx]; rfl) (by simp)

theorem Follows_msdRecent {r ra rb : Reg} {p : Option (BitVec 1)} {a b : Option (BitVec 16)} (ca cb : Cause)
    (hp : inputValue s (.reg r) = p.map BitVec.toNat) (ha : inputValue s (.reg ra) = a.map BitVec.toNat)
    (hb : inputValue s (.reg rb) = b.map BitVec.toNat) :
    Follows s (.read (.reg r) :: recentActs p ra rb a b ca cb)
      (fun bs => bs.length = 1 + if p = some 1 then 20 else 0)
      (msdRecent r p (msdDelta ra a ca) (msdDelta rb b cb)) := by
  refine Follows_present s hp (fun q => ?_)
  refine (Follows_msdDelta s ha ca).bind (acts' := [_, _]) (fun x hx => ?_)
  exact (Follows_msdDelta s hb cb).bind_pure (fun y hy => by simp [bitsOfFlag, hx, hy])

theorem Follows_msdPassengers :
    Follows s (.read (.reg .paxPresent) :: if s.inp.paxPresent = some 1 then readRegs [.pax] else [])
      (fun bs => bs.length = 1 + if s.inp.paxPresent = some 1 then 8 else 0) (msdPassengers s) :=
  Follows_present s rfl (fun _ => Follows.need_bind rfl (fun _ _ => by simp [bitsOfFlag]))

/-! ## ENCMSD -/

/-- The acts of ENCMSD step by step (R152), without the length check. -/
def msdStepActs : List (List Act) :=
  [[.read (.reg .version), .check (decide (s.inp.version = some 1)) .version 0],
   .read (.reg .optPresent) :: (if s.inp.optPresent = some 1 then optionalActs s else []),
   readRegs [.msgid],
   readRegs [.ctrlAuto, .ctrlTest, .ctrlTrust, .vtype] ++ [vtypeCheck s],
   (List.range 17).flatMap (vinActs s),
   readRegs [.prop],
   readRegs [.timestamp],
   [.read (.reg .lat), .check (coordinateOk 324000000 (s.inp.lat.getD 0)) .lat 0]
     ++ [.read (.reg .lon), .check (coordinateOk 648000000 (s.inp.lon.getD 0)) .lon 0],
   [.read (.reg .dir),
    .check (decide ((s.inp.dir.getD 0).toNat ≤ 179) || decide ((s.inp.dir.getD 0).toNat = 255)) .dir 0],
   .read (.reg .n1Present) :: recentActs s.inp.n1Present .n1Dlat .n1Dlon s.inp.n1Dlat s.inp.n1Dlon .n1Dlat .n1Dlon,
   .read (.reg .n2Present) :: recentActs s.inp.n2Present .n2Dlat .n2Dlon s.inp.n2Dlat s.inp.n2Dlon .n2Dlat .n2Dlon,
   .read (.reg .paxPresent) :: (if s.inp.paxPresent = some 1 then readRegs [.pax] else [])]

/-- The acts of ENCMSD are those of its steps in order, and then the length check (R156). -/
theorem msdActs_eq : msdActs s = (msdStepActs s).flatten ++ [.check (decide (msdLength s ≤ 1120)) .length 0] := by
  simp only [msdActs, msdStepActs, optionalActs, readRegs, List.map_cons, List.map_nil, List.flatten_cons,
    List.flatten_nil, List.cons_append, List.nil_append, List.append_nil, List.append_assoc]
  rfl

/-- Steps in order follow their acts in order, and their lengths add up. -/
theorem Follows_inOrder_cons {n n' : Nat} {acts : List Act} {rest : List (List Act)} {e : Enc (List Bool)}
    {es : List (Enc (List Bool))} (h : Follows s acts (fun bs => bs.length = n) e)
    (hs : Follows s rest.flatten (fun bs => bs.length = n') (inOrder es)) :
    Follows s (acts :: rest).flatten (fun bs => bs.length = n + n') (inOrder (e :: es)) := by
  refine h.bind (fun a ha => ?_)
  exact hs.bind_pure (fun b hb => by simp [ha, hb])

theorem Follows_msdSteps :
    Follows s (msdStepActs s).flatten (fun bs => bs.length = msdLength s) (inOrder (msdSteps s)) := by
  have hnil : Follows s [] (fun bs => bs.length = 0) (inOrder []) := Follows_pure.2 rfl
  refine Follows.mono (Follows_inOrder_cons s (Follows_msdVersion s) <|
    Follows_inOrder_cons s (Follows_msdOptional s) <| Follows_inOrder_cons s (Follows_msdMsgid s) <|
    Follows_inOrder_cons s (Follows_msdControl s) <| Follows_inOrder_cons s (Follows_msdVin s) <|
    Follows_inOrder_cons s (Follows_msdPropulsion s) <| Follows_inOrder_cons s (Follows_msdTimestamp s) <|
    Follows_inOrder_cons s (Follows_msdLocation s) <| Follows_inOrder_cons s (Follows_msdDirection s) <|
    Follows_inOrder_cons s (Follows_msdRecent s .n1Dlat .n1Dlon rfl rfl rfl) <|
    Follows_inOrder_cons s (Follows_msdRecent s .n2Dlat .n2Dlon rfl rfl rfl) <|
    Follows_inOrder_cons s (Follows_msdPassengers s) hnil) (fun bs hbs => ?_)
  rw [hbs, msdLength]
  omega

/-- ENCMSD's message ends as its reads and checks say, with the length of R79. -/
theorem Follows_msdMessage : Follows s (msdActs s) (fun bs => bs.length = msdLength s) (msdMessage s) := by
  rw [msdActs_eq]
  exact (Follows_msdSteps s).bind (fun bs hbs => Follows.check (by simp [hbs]) (fun _ => Follows_pure.2 hbs))

end

/-- Settles O38: the message ends as its reads and checks say, and has the length of R79 where none stops it. -/
theorem encmsdEndsAtFirstStop : Obligations.EncmsdEndsAtFirstStop := by
  unfold Obligations.EncmsdEndsAtFirstStop
  intro s
  have hfollows := Follows_msdMessage s
  simp only [exec, execEncmsd]
  split
  · next f hstop => rw [hfollows.of_stop hstop]; rfl
  · next c i hstop => rw [hfollows.of_stop hstop]; exact ⟨_, rfl, rfl⟩
  · next hstop =>
    obtain ⟨bs, hbs, hlen⟩ := hfollows.of_none hstop
    rw [hbs, ← hlen]
    exact ⟨_, rfl, rfl⟩

end Sys2Proof.Machine

/-! The invariant of a state: what each named update of the state does to it, and that every step keeps it. -/

namespace Sys2Proof.Machine

open Sys2Proof.Safety

section

variable {s : State}

/-- What `memWf` asks, array by array. -/
theorem memWf_iff : memWf s = true ↔ ∀ a : ArrId, Memory.wf (ArrId.size a) (s.arr a) = true := by
  simp only [memWf, Bool.and_eq_true, and_assoc]
  constructor
  · rintro ⟨hsrc, hvin, hoid, hdata, hbuf⟩ a
    cases a <;> assumption
  · intro h
    exact ⟨h .src, h .vin, h .oid, h .data, h .buf⟩

/-- What `resultsLegal` asks, register by register. -/
theorem resultsLegal_iff :
    resultsLegal s = true ↔
      s.resBits.toNat ≤ 1120 ∧ s.resBytes.toNat ≤ 140 ∧ (s.resCode.toNat ≤ 32 ∨ s.resCode = 0xFF) := by
  simp only [resultsLegal, Bool.and_eq_true, Bool.or_eq_true, decide_eq_true_eq, and_assoc]

theorem memWf_setArr (h : memWf s = true) {a : ArrId} {m : Memory} (hm : Memory.wf (ArrId.size a) m = true) :
    memWf (s.setArr a m) = true := by
  rw [memWf_iff] at h ⊢
  intro b
  rw [State.arr_setArr]
  split
  · next hab => subst hab; exact hm
  · exact h b

/-- The outcome of an argument error is one that R200 to R202 allow. -/
theorem outcomeLegal_argError {c : Cause} (hc : c = .badLen ∨ c = .offsetOverflow) :
    outcomeLegal Status.errArg.code c.code 0 = true := by
  rcases hc with rfl | rfl <;> decide

/-- The outcome of an illegal word is one that R200 to R202 allow. -/
theorem outcomeLegal_cmdError {c : Cause} (hc : c = .badOpcode ∨ c = .reservedBits) :
    outcomeLegal Status.errCmd.code c.code 0 = true := by
  rcases hc with rfl | rfl <;> decide

/-- The outcome of every failure of ENCMSD is one that R200 to R202 allow. -/
theorem outcomeLegal_fail {c : Cause} {i : Nat} (h : MsdFail c i) :
    outcomeLegal Status.fail.code c.code (BitVec.ofNat 8 i) = true := by
  rcases h with ⟨rfl, hi⟩ | ⟨rfl, hc⟩
  · have hmod : i % 256 ≤ 16 := by omega
    simp [outcomeLegal, Status.code, Cause.code, hmod]
  · rcases hc with rfl | rfl | rfl | rfl | rfl | rfl | rfl | rfl | rfl | rfl <;> decide

/-- A lookup in a table of 33 characters gives a code that RES_CODE may hold (R21, R121). -/
theorem resCodeOf_alnumCode_legal {t : List Byte} (ht : t.length = 33) (c : Byte) :
    (resCodeOf (alnumCode t c)).toNat ≤ 32 ∨ resCodeOf (alnumCode t c) = 0xFF := by
  rw [alnumCode_eq]
  split
  · next hmem =>
    have hidx : t.idxOf c < t.length := List.idxOf_lt_length_iff.2 hmem
    left
    simp only [resCodeOf, BitVec.toNat_ofNat]
    omega
  · exact .inr rfl

/-! ## What each update of the state does to the invariant -/

/-- An outcome that R200 to R202 allow may be written. -/
theorem Inv_setOutcome {st : Status} {c : Cause} {i : Nat} (h : Inv s)
    (hout : outcomeLegal st.code c.code (BitVec.ofNat 8 i) = true) : Inv (s.setOutcome st c i) := by
  obtain ⟨hcfg, hmem, _, hres⟩ := h
  exact ⟨hcfg, hmem, hout, hres⟩

theorem Inv_succeed (h : Inv s) : Inv s.succeed := Inv_setOutcome h (by decide)

theorem Inv_setArr {a : ArrId} {m : Memory} (h : Inv s) (hm : Memory.wf (ArrId.size a) m = true) :
    Inv (s.setArr a m) := by
  obtain ⟨hcfg, hmem, hout, hres⟩ := h
  refine ⟨?_, memWf_setArr hmem hm, ?_, ?_⟩
  · rwa [State.setArr_cfg]
  · rwa [State.setArr_status, State.setArr_cause, State.setArr_causeIndex]
  · rw [resultsLegal_iff] at hres ⊢
    rwa [State.setArr_resBits, State.setArr_resBytes, State.setArr_resCode]

/-- In a state that meets the invariant every array is in its canonical form. -/
theorem wf_arr_of_inv (h : Inv s) (a : ArrId) : Memory.wf (ArrId.size a) (s.arr a) = true :=
  memWf_iff.1 h.2.1 a

theorem Inv_emit (h : Inv s) (p : Nat) (bs : List Bool) : Inv (s.emit p bs) :=
  Inv_setArr (a := .buf) h (wf_putBits p bs (wf_arr_of_inv h .buf))

theorem Inv_setBits {n : Nat} (h : Inv s) (hn : n ≤ 1120) : Inv (s.setBits n) := by
  obtain ⟨hcfg, hmem, hout, hres⟩ := h
  refine ⟨hcfg, hmem, hout, ?_⟩
  rw [resultsLegal_iff] at hres ⊢
  refine ⟨?_, hres.2⟩
  simp only [State.setBits_resBits, BitVec.toNat_ofNat]
  omega

theorem Inv_setBytes {n : Nat} (h : Inv s) (hn : n ≤ 140) : Inv (s.setBytes n) := by
  obtain ⟨hcfg, hmem, hout, hres⟩ := h
  refine ⟨hcfg, hmem, hout, ?_⟩
  rw [resultsLegal_iff] at hres ⊢
  refine ⟨hres.1, ?_, hres.2.2⟩
  simp only [State.setBytes_resBytes, BitVec.toNat_ofNat]
  omega

theorem Inv_setCode {c : BitVec 8} (h : Inv s) (hc : c.toNat ≤ 32 ∨ c = 0xFF) : Inv (s.setCode c) := by
  obtain ⟨hcfg, hmem, hout, hres⟩ := h
  refine ⟨hcfg, hmem, hout, ?_⟩
  rw [resultsLegal_iff] at hres ⊢
  exact ⟨hres.1, hres.2.1, hc⟩

/-- A failure of ENCMSD leaves the invariant: BUF, a draw, lists nothing (R203). -/
theorem Inv_raiseFail {c : Cause} {i : Nat} (h : Inv s) (hf : MsdFail c i) : Inv (s.raiseFail c i) :=
  have hbuf : Inv (s.setArr .buf []) := Inv_setArr h (Memory.wf_nil _)
  Inv_setBytes (Inv_setBits (Inv_setOutcome hbuf (outcomeLegal_fail hf)) (by decide)) (by decide)

/-! ## What each host operation and each command does to it -/

theorem Inv_arrWrite (h : Inv s) (id i v : Nat) : Inv (arrWrite id i v s) := by
  unfold arrWrite
  cases htarget : arrTarget id i with
  | none => exact h
  | some a => exact Inv_setArr h (Memory.wf_write _ (wf_arr_of_inv h a) (arrTarget_some htarget).2)

/-- The platform's reset leaves the parameters, and everything else that the invariant speaks of is at its reset value. -/
theorem Inv_platformReset (h : Inv s) : Inv (platformReset s) :=
  ⟨h.1, rfl, rfl, rfl⟩

theorem exec_keeps_inv {i : Instr} {t : State} (h : Inv s) (hexec : exec i s = .next t) : Inv t := by
  rcases exec_next hexec with ⟨len, off, _, ⟨c, hc, rfl⟩ | ⟨bs, _, rfl⟩⟩ | ⟨c, _, rfl⟩
    | ⟨_, ⟨bs, _, hmax, rfl⟩ | ⟨c, k, hfail, rfl⟩⟩ | ⟨_, bs, hmax, rfl⟩ | ⟨_, p, v, rfl⟩ | ⟨_, p, v, rfl⟩
  case inl.inl => exact Inv_setOutcome h (outcomeLegal_argError hc)
  case inl.inr =>
    have hemit : Inv ((s.emit off bs).setOffset (off + len)) := Inv_emit h off bs
    exact Inv_succeed hemit
  case inr.inl =>
    have htable : s.cfg.alnumTable.length = 33 := (Config.valid_iff.1 h.1).1
    exact Inv_succeed (Inv_setCode h (resCodeOf_alnumCode_legal htable c))
  case inr.inr.inl.inl => exact Inv_succeed (Inv_setBytes (Inv_setBits (Inv_emit h 0 bs) hmax) (by omega))
  case inr.inr.inl.inr => exact Inv_raiseFail h hfail
  case inr.inr.inr.inl =>
    have hdata := Inv_setArr (a := .data) h (wf_storeStream bs 5 (wf_arr_of_inv h .data) (by decide))
    exact Inv_succeed (Inv_setBits hdata (by omega))
  case inr.inr.inr.inr.inl =>
    have hdiag : Inv (s.setDiag p v) := h
    exact Inv_succeed hdiag
  case inr.inr.inr.inr.inr =>
    have hcrash : Inv (s.setCrash p v) := h
    exact Inv_succeed hcrash

end

/-- Settles O59: each single thing that a step can do keeps the invariant, a command by what its next state can be. -/
theorem stepKeepsInvariant : Obligations.StepKeepsInvariant := by
  unfold Obligations.StepKeepsInvariant
  intro s t hinv hstep
  refine step_rel (P := fun s t => Inv s → Inv t) ?_ ?_ ?_ ?_ ?_ ?_ ?_ ?_ hstep hinv
  case refine_1 => exact fun s h => h
  case refine_2 => exact fun s t rest hrest h => hrest h
  case refine_3 => exact fun i s t hexec h => exec_keeps_inv h hexec
  case refine_4 => exact fun c s hc h => Inv_setOutcome h (outcomeLegal_cmdError hc)
  case refine_5 => exact fun s r v h => h
  case refine_6 => exact fun s a b h => h
  case refine_7 => exact fun s id i v h => Inv_arrWrite h id i v
  case refine_8 => exact fun s h => Inv_platformReset h

end Sys2Proof.Machine

/-! Bits in BUF and in the stream: one bit put, and a word in its bytes; a host write and the host read after it. -/

namespace Sys2Proof.Machine

open Sys2Proof.Safety

/-- The stream of a part of a word is that of the word's value shifted down to the part's lowest bit. -/
theorem bitsOf_extractLsb' {w : Nat} (v : BitVec w) (start len : Nat) :
    bitsOf len (v.extractLsb' start len).toNat = bitsOf len (v.toNat / 2 ^ start) := by
  simp only [bitsOf_eq_map, BitVec.extractLsb'_toNat, Nat.shiftRight_eq_div_pow]
  refine List.map_congr_left fun j hj => ?_
  have hlow : len - 1 - j < len := by have := List.mem_range.1 hj; omega
  rw [Nat.testBit_mod_two_pow, decide_eq_true hlow, Bool.true_and]

/-- Settles O14: the read finds what the write stored (O10), which the value returned has room for (O12). -/
theorem writeThenReadReturnsValue : Obligations.WriteThenReadReturnsValue := by
  unfold Obligations.WriteThenReadReturnsValue
  intro s r v hr
  obtain ⟨u, hwrite, hcontents, -, hframe⟩ := hostWriteStoresModuloWidth (before (.regRead (Reg.number r)) s) r v hr
  have hpending : u = before (.regRead (Reg.number r)) { u with pending := s.pending } := by rw [hframe]; rfl
  obtain ⟨t, hread, ht, hvalue⟩ := hostReadReturnsRegister { u with pending := s.pending } r (v % 2 ^ Reg.width r)
    ((Reg.contents_congr rfl r hr).trans hcontents)
  rw [← hpending] at hread
  exact ⟨u, t, hwrite, hread, hvalue, by rw [ht]⟩

/-- Settles O20: the machine's bit write is the one R53 words, and it touches its own position only. -/
theorem putBitWritesOneBit : Obligations.PutBitWritesOneBit := by
  unfold Obligations.PutBitWritesOneBit
  intro mode epoch m p b hp
  refine ⟨?_, fun q hq => ?_⟩
  · rw [bufBitOf_putBit, if_pos ⟨rfl, by omega⟩, writtenBit_eq_storedBit]
  · rw [bufBitOf_putBit, if_neg fun h => hq h.1.symm]

/-- Settles O21: the stream of the word is split in front of its low 24, 16 and 8 bits, and each part is one byte's. -/
theorem wordIsEmittedMostSignificantByteFirst : Obligations.WordIsEmittedMostSignificantByteFirst := by
  unfold Obligations.WordIsEmittedMostSignificantByteFirst
  intro v
  calc bitsOf 32 v.toNat
      = bitsOf 8 (v.toNat / 2 ^ 24) ++ (bitsOf 8 (v.toNat / 2 ^ 16)
          ++ (bitsOf 8 (v.toNat / 2 ^ 8) ++ bitsOf 8 v.toNat)) := by
        rw [bitsOf_add 8 24, bitsOf_add 8 16, bitsOf_add 8 8]
    _ = _ := by simp only [bitsOf_extractLsb', pow_zero, Nat.div_one, List.append_assoc]

end Sys2Proof.Machine

/-! Command words: the fields of a word and the word of its fields, what the decoder answers for each opcode, and what the issue
of an illegal word does. -/

namespace Sys2Proof.Machine

open Sys2Proof.Safety
open Sys2Proof.Laws.OpcodeField (opField_cmdWord)

/-! ## The fields of a word -/

/-- Field OP as a number (R71). -/
theorem opField_eq (w : CmdWord) : opField w = w.toNat % 256 := by
  simp [opField, BitVec.extractLsb'_toNat]

/-- Field A as a number (R71). -/
theorem aField_eq (w : CmdWord) : aField w = w.toNat / 256 % 256 := by
  simp [aField, BitVec.extractLsb'_toNat, Nat.shiftRight_eq_div_pow]

/-- Field B as a number (R71): it is the top field, so nothing is cut off above it. -/
theorem bField_eq (w : CmdWord) : bField w = w.toNat / 65536 := by
  have hw := w.isLt
  simp only [bField, BitVec.extractLsb'_toNat, Nat.shiftRight_eq_div_pow]
  omega

theorem aField_lt (w : CmdWord) : aField w < 2 ^ 8 := BitVec.isLt _

theorem bField_lt (w : CmdWord) : bField w < 2 ^ 16 := BitVec.isLt _

/-- Fields that fit stand side by side in the word (R70). -/
theorem cmdWord_toNat {op a b : Nat} (hop : op < 256) (ha : a < 256) (hb : b < 65536) :
    (cmdWord op a b).toNat = b * 65536 + a * 256 + op := by
  simp only [cmdWord, BitVec.toNat_ofNat]
  omega

/-- The word's field A holds the value given for it (R70), as `OpcodeField.opField_cmdWord` says of OP. -/
theorem aField_cmdWord (op a b : Nat) : aField (cmdWord op a b) = a % 2 ^ 8 := by
  simp only [aField_eq, cmdWord, BitVec.toNat_ofNat]
  omega

theorem bField_cmdWord (op a b : Nat) : bField (cmdWord op a b) = b % 2 ^ 16 := by
  simp only [bField_eq, cmdWord, BitVec.toNat_ofNat]
  omega

/-- A word is the word of its fields: the three leave no bit out (R70). -/
theorem cmdWord_fields (w : CmdWord) : cmdWord (opField w) (aField w) (bField w) = w := by
  apply BitVec.eq_of_toNat_eq
  rw [opField_eq, aField_eq, bField_eq, cmdWord_toNat (by omega) (by omega) (by omega)]
  omega

/-! ## The decoder -/

/-- A word without operands decodes to its command exactly if A and B are 0, and else is RESERVED_BITS (R74). -/
theorem decodePlain_of_zero {i : Instr} {w : CmdWord} (ha : aField w = 0) (hb : bField w = 0) :
    decodePlain i w = .ok i := if_pos ⟨ha, hb⟩

theorem decodePlain_of_ne {i : Instr} {w : CmdWord} (h : aField w ≠ 0 ∨ bField w ≠ 0) :
    decodePlain i w = .error .reservedBits := if_neg (by omega)

theorem decodePlain_eq_ok {i j : Instr} {w : CmdWord} (h : decodePlain i w = .ok j) :
    j = i ∧ aField w = 0 ∧ bField w = 0 := by
  unfold decodePlain at h
  split at h
  · next hzero => exact ⟨(Except.ok.inj h).symm, hzero⟩
  · cases h

/-- What a word that decodes is like, command by command: its opcode is the command's, the operands are its fields, and a
field that R72 marks 0 is 0. -/
theorem decode_ok {w : CmdWord} {i : Instr} (h : decode w = .ok i) :
    (opField w = 0x01 ∧ i = .encbits (aField w) (bField w))
    ∨ (opField w = 0x02 ∧ i = .encwide (aField w) (bField w))
    ∨ (opField w = 0x03 ∧ bField w = 0 ∧ i = .alnum (BitVec.ofNat 8 (aField w)))
    ∨ (aField w = 0 ∧ bField w = 0 ∧ opField w = i.opcode
        ∧ (i = .encmsd ∨ i = .encera ∨ i = .mapdiag ∨ i = .mapcrash)) := by
  unfold decode at h
  split at h
  case h_1 hop => exact .inl ⟨hop, (Except.ok.inj h).symm⟩
  case h_2 hop => exact .inr (.inl ⟨hop, (Except.ok.inj h).symm⟩)
  case h_3 hop =>
    split at h
    · next hb => exact .inr (.inr (.inl ⟨hop, hb, (Except.ok.inj h).symm⟩))
    · cases h
  case h_8 => cases h
  all_goals
    next hop =>
    obtain ⟨rfl, ha, hb⟩ := decodePlain_eq_ok h
    exact .inr (.inr (.inr ⟨ha, hb, hop, by simp⟩))

/-- A word whose OP is none of the seven opcodes is no command (R73). -/
theorem decode_badOpcode {w : CmdWord} (h : opField w ∉ [0x01, 0x02, 0x03, 0x10, 0x11, 0x20, 0x21]) :
    decode w = .error .badOpcode := by
  simp only [List.mem_cons, List.not_mem_nil, or_false, not_or] at h
  unfold decode
  split
  case h_8 => rfl
  all_goals omega

/-- An ALNUM word with B not 0, or a word without operands with A or B not 0, is no command (R74). -/
theorem decode_reservedBits {w : CmdWord}
    (h : opField w = 0x03 ∧ bField w ≠ 0
      ∨ opField w ∈ [0x10, 0x11, 0x20, 0x21] ∧ (aField w ≠ 0 ∨ bField w ≠ 0)) :
    decode w = .error .reservedBits := by
  simp only [List.mem_cons, List.not_mem_nil, or_false] at h
  unfold decode
  rcases h with ⟨hop, hb⟩ | ⟨hop | hop | hop | hop, hne⟩
  · simp only [hop, if_neg hb]
  all_goals simp only [hop, decodePlain_of_ne hne]

/-- Settles O2: the word's fields are the command's opcode and operands, and the decoder reads them. -/
theorem decodeEncodeAgree : Obligations.DecodeEncodeAgree := by
  unfold Obligations.DecodeEncodeAgree
  intro i hwf
  have hplain (j : Instr) (op : Nat) : decodePlain j (cmdWord op 0 0) = .ok j :=
    decodePlain_of_zero (aField_cmdWord op 0 0) (bField_cmdWord op 0 0)
  cases i with
  | encbits len off | encwide len off =>
    simp only [Instr.wf, lenFits, offFits, Bool.and_eq_true, decide_eq_true_eq, Nat.reducePow] at hwf
    obtain ⟨hlen, hoff⟩ := hwf
    simp only [encode, decode, opField_cmdWord, Nat.reducePow, Nat.reduceLT, aField_cmdWord, bField_cmdWord,
      Nat.mod_eq_of_lt hlen, Nat.mod_eq_of_lt hoff]
  | alnum c =>
    simp only [encode, decode, opField_cmdWord, Nat.reducePow, Nat.reduceLT, aField_cmdWord, bField_cmdWord,
      Nat.mod_eq_of_lt c.isLt, Nat.zero_mod, if_true, BitVec.ofNat_toNat, BitVec.setWidth_eq]
  | encmsd => exact hplain .encmsd 0x10
  | encera => exact hplain .encera 0x11
  | mapdiag => exact hplain .mapdiag 0x20
  | mapcrash => exact hplain .mapcrash 0x21

/-- Settles O3: the word of the command is the word of the fields it was decoded from, which is the word. -/
theorem encodeDecodeAgree : Obligations.EncodeDecodeAgree := by
  unfold Obligations.EncodeDecodeAgree
  intro w i h
  have hfields := cmdWord_fields w
  have hfits : (lenFits (aField w) && offFits (bField w)) = true := by
    simp only [lenFits, offFits, aField_lt, bField_lt, decide_true, Bool.and_true]
  rcases decode_ok h with ⟨hop, rfl⟩ | ⟨hop, rfl⟩ | ⟨hop, hb, rfl⟩ | ⟨ha, hb, hop, hi⟩
  · exact ⟨hfits, by rw [hop] at hfields; exact hfields⟩
  · exact ⟨hfits, by rw [hop] at hfields; exact hfields⟩
  · refine ⟨rfl, ?_⟩
    rw [hop, hb] at hfields
    rw [encode, BitVec.toNat_ofNat, Nat.mod_eq_of_lt (aField_lt w)]
    exact hfields
  · rw [hop, ha, hb] at hfields
    rcases hi with rfl | rfl | rfl | rfl <;> exact ⟨rfl, hfields⟩

/-- Settles O4: the fields of each command fit. -/
theorem commandWordsOfSyntax : Obligations.CommandWordsOfSyntax := by
  unfold Obligations.CommandWordsOfSyntax
  refine ⟨fun l off hl hoff => ⟨cmdWord_toNat (by decide) hl hoff, cmdWord_toNat (by decide) hl hoff⟩,
    fun c => ?_, rfl, rfl, rfl, rfl⟩
  rw [encode, cmdWord_toNat (by decide) c.isLt (by decide), Nat.zero_mul, Nat.zero_add]

/-! ## The issue of an illegal word -/

/-- A step whose next operation writes a word to CMD issues it. -/
theorem step_before_cmd (w : CmdWord) (s : State) : step (before (.regWrite 0 w.toNat) s) = issue w s := by
  change issue (BitVec.ofNat 32 w.toNat) s = issue w s
  rw [BitVec.ofNat_toNat, BitVec.setWidth_eq]

/-- Settles O5: the word is BAD_OPCODE to the decoder, and its issue writes that outcome (R204). -/
theorem badOpcodeWordOnlyReportsIt : Obligations.BadOpcodeWordOnlyReportsIt := by
  unfold Obligations.BadOpcodeWordOnlyReportsIt
  intro s w h
  rw [← opField_eq] at h
  rw [step_before_cmd, issue, decode_badOpcode h]
  rfl

/-- Settles O6: the word is RESERVED_BITS to the decoder, and its issue writes that outcome (R204). -/
theorem reservedBitsWordOnlyReportsIt : Obligations.ReservedBitsWordOnlyReportsIt := by
  unfold Obligations.ReservedBitsWordOnlyReportsIt
  intro s w h
  have hab : w.toNat / 256 ≠ 0 → aField w ≠ 0 ∨ bField w ≠ 0 := by
    rw [aField_eq, bField_eq]
    omega
  rw [← opField_eq, ← bField_eq] at h
  rw [step_before_cmd, issue, decode_reservedBits (h.imp_right (And.imp_right hab))]
  rfl

/-- No command is refused: each ends with a next state or as what it concludes ends. -/
theorem exec_ne_refused (i : Instr) (s : State) (x : Refusal) : exec i s ≠ .refused x := by
  have hbits (ok : Bool) (len off : Nat) (field : Enc (List Bool)) : appendField ok len off field s ≠ .refused x := by
    unfold appendField
    split
    · nofun
    · split
      · nofun
      · exact conclude_ne_refused
  cases i with
  | encbits len off => exact hbits _ len off _
  | encwide len off => exact hbits _ len off _
  | alnum c => nofun
  | encmsd | encera | mapdiag | mapcrash => exact conclude_ne_refused

/-- Settles O55, by the kinds of host operation: only the issue of a legal word runs a command, and no command is refused. -/
theorem noStepIsRefused : Obligations.NoStepIsRefused := by
  unfold Obligations.NoStepIsRefused
  intro s x
  rcases step_cases s with ⟨_, h⟩ | ⟨e, rest, _, h⟩ <;> rw [h]
  · nofun
  · cases e with
    | regWrite rn v =>
      rcases regWrite_cases rn v { s with pending := rest } with ⟨_, hw⟩ | ⟨_, hw⟩ | ⟨r, _, _, hw⟩ <;>
        rw [perform, hw]
      · nofun
      · rcases issue_cases (BitVec.ofNat 32 v) { s with pending := rest } with ⟨i, _, hi⟩ | ⟨_, hi⟩ | ⟨_, hi⟩ <;>
          rw [hi]
        · exact exec_ne_refused i _ x
        · nofun
        · nofun
      · nofun
    | regRead rn | arrWrite id i v | arrRead id i | reset => nofun

/-- Settles O1: the decoder runs on each written word. -/
theorem writtenWordsDecode : Obligations.WrittenWordsDecode := by
  unfold Obligations.WrittenWordsDecode
  exact ⟨rfl, rfl, rfl, rfl, rfl, rfl, rfl, rfl, rfl, rfl⟩

end Sys2Proof.Machine

/-! Pseudo-instructions: array writes at consecutive indices as operations and as a run, and the bytes of PUTBITS. -/

namespace Sys2Proof.Machine

open Sys2Proof.Safety

/-! ## Array writes at consecutive indices -/

/-- An array after values are written at consecutive indices from `i`. -/
def Memory.writeFrom : Memory → Nat → List Nat → Memory
  | m, _, [] => m
  | m, i, v :: vs => Memory.writeFrom (Memory.write m i (BitVec.ofNat 8 v)) (i + 1) vs

/-- Values written from `i` on are read back modulo 2^8 (log 14), and every other index reads as before. -/
theorem Memory.read_writeFrom (m : Memory) (i : Nat) (vs : List Nat) (j : Nat) :
    Memory.read (Memory.writeFrom m i vs) j
      = if i ≤ j ∧ j < i + vs.length then vs[j - i]?.map (BitVec.ofNat 8) else Memory.read m j := by
  induction vs generalizing m i with
  | nil =>
    rw [if_neg (by rw [List.length_nil]; omega)]
    rfl
  | cons v vs ih =>
    rw [Memory.writeFrom, ih, Memory.read_write, List.length_cons]
    by_cases hij : i = j
    · subst hij
      rw [if_neg (by omega), if_pos rfl, if_pos (by omega), Nat.sub_self]
      rfl
    · rw [if_neg hij]
      by_cases hin : i + 1 ≤ j ∧ j < i + 1 + vs.length
      · rw [if_pos hin, if_pos (by omega), show j - i = j - (i + 1) + 1 by omega, List.getElem?_cons_succ]
      · rw [if_neg hin, if_neg (by omega)]

/-- A step performs the first operation pending, on the state without it. -/
theorem step_of_pending {s : State} {e : Event} {rest : List Event} (h : s.pending = e :: rest) :
    step s = perform e { s with pending := rest } := by
  simp only [step, advance, h]

/-- A run goes on from the state that its first step gives. -/
theorem run_succ {s u : State} (h : step s = .next u) (n : Nat) :
    Host.Core.run core (n + 1) s = Host.Core.run core n u := by
  have hcore : core.step s = .next u := h
  simp only [Host.Core.run, hcore]

/-- Pending array writes inside the array run, one step each, to the array with the values written, and nothing else
changed (R34). -/
theorem run_arrEvents {a : ArrId} {s : State} {vs : List Nat} {i : Nat} {rest : List Event}
    (hsize : i + vs.length ≤ ArrId.size a) (hpending : s.pending = arrEvents a i vs ++ rest) :
    Host.Core.run core vs.length s
      = .next { s.setArr a (Memory.writeFrom (s.arr a) i vs) with pending := rest } := by
  induction vs generalizing s i with
  | nil =>
    have hrest : rest = s.pending := hpending.symm
    subst hrest
    cases a <;> rfl
  | cons v vs ih =>
    rw [List.length_cons] at hsize
    have hstep := step_of_pending hpending
    rw [perform, arrWrite_in (by omega)] at hstep
    rw [List.length_cons, run_succ hstep, ih (by omega) (State.setArr_pending _ _ _)]
    cases a <;> rfl

/-- Settles O17: the operations of CLRBUF are zeros written from BUF[0] on. -/
theorem clrbufClearsItsBytes : Obligations.ClrbufClearsItsBytes := by
  unfold Obligations.ClrbufClearsItsBytes
  intro s k n hn hpending
  have hlen : (List.replicate n 0).length = n := List.length_replicate
  have hrun := run_arrEvents (a := .buf) (i := 0) (rest := []) (vs := List.replicate n 0)
    (by rw [hlen, Nat.zero_add]; exact hn) (hpending.trans (List.append_nil _).symm)
  rw [hlen] at hrun
  refine ⟨_, hrun, fun i => ?_, rfl⟩
  change (Memory.read (Memory.writeFrom s.buf 0 (List.replicate n 0)) i).getD _ = _
  rw [Memory.read_writeFrom, hlen, Nat.zero_add]
  by_cases hi : i < n
  · simp [hi]
  · rw [if_neg (by omega), if_neg hi]
    rfl

/-! ## PUTBITS -/

/-- Writes of values given by their index, as operations. -/
theorem arrEvents_map_range' (a : ArrId) (f : Nat → Nat) (i n : Nat) :
    arrEvents a i ((List.range' i n).map f) = (List.range' i n).map (fun j => .arrWrite (ArrId.id a) j (f j)) := by
  induction n generalizing i with
  | zero => rfl
  | succ n ih => rw [List.range'_succ, List.map_cons, List.map_cons, arrEvents, ih]

/-- The low bits of a value are those of its value modulo a power of two that has room for them. -/
theorem bitsOf_mod_two_pow {n k : Nat} (h : n ≤ k) (v : Nat) : bitsOf n (v % 2 ^ k) = bitsOf n v := by
  rw [bitsOf_eq_map, bitsOf_eq_map]
  refine List.map_congr_left fun j hj => ?_
  have hlow : n - 1 - j < k := by have := List.mem_range.1 hj; omega
  rw [Nat.testBit_mod_two_pow, decide_eq_true hlow, Bool.true_and]

/-- A value's bytes from the most significant on are together its bits (R55). -/
theorem flatMap_bytes_eq_bitsOf (n v : Nat) :
    (List.range n).flatMap (fun k => bitsOf 8 (v / 2 ^ (8 * n - 8 - 8 * k) % 2 ^ 8)) = bitsOf (8 * n) v := by
  induction n with
  | zero => rfl
  | succ n ih =>
    have hshift (k : Nat) : 8 * (n + 1) - 8 - 8 * (k + 1) = 8 * n - 8 - 8 * k := by omega
    rw [List.range_succ_eq_map, List.flatMap_cons, List.flatMap_map]
    simp only [hshift, ih]
    rw [show 8 * (n + 1) = 8 + 8 * n by omega, bitsOf_add 8 (8 * n), bitsOf_mod_two_pow (Nat.le_refl 8)]
    congr 4
    omega

/-- Settles O16: the issue's word is the one of R77 (O4), and the bytes written are the value's. -/
theorem putbitsBytesAreValue : Obligations.PutbitsBytesAreValue := by
  unfold Obligations.PutbitsBytesAreValue
  intro len off v k hoff
  have hissue (hlen : len < 256) : issueEvent (.encbits len off) = .regWrite 0 (off * 65536 + len * 256 + 0x01) :=
    congrArg (Event.regWrite 0) (commandWordsOfSyntax.1 len off hlen hoff).1
  refine ⟨fun hlen => ⟨?_, ?_⟩, fun hlen => ⟨?_, ?_⟩⟩
  · rw [Line.events, putbitsBytes, if_pos hlen, hissue (by omega)]
    rfl
  · rw [fieldBits_eq_bitsOf, fieldBits_eq_bitsOf, bitsOf_mod_two_pow hlen]
  · rw [Line.events, putbitsBytes, if_neg (by omega), hissue (by omega), List.range_eq_range', arrEvents_map_range']
    rfl
  · have hbytes : len = 8 * (len / 8) := by omega
    rw [putbitsBytes, if_neg (by omega), List.flatMap_map]
    simp only [fieldBits_eq_bitsOf]
    conv_rhs => rw [hbytes, ← flatMap_bytes_eq_bitsOf]
    rw [← hbytes]

end Sys2Proof.Machine

/-! The message of ENCMSD as R79 lists it: the bits of the layout step by step, the checks and the value that each of the
machine's steps gives for a message that is loaded, and from them what ENCMSD does with it. -/

namespace Sys2Proof.Machine

open Sys2Proof.Safety

/-! ## A value behind checks -/

/-- A value behind checks: the failure of the first check that does not hold, else the value. -/
def checked {α : Type} (checks : List (Bool × Cause × Nat)) (a : α) : Enc α :=
  match (checks.find? (fun k => !k.1)).map (fun k => k.2) with
  | some (c, i) => .error (.fail c i)
  | none => .ok a

section

variable {α β : Type} {cs ds : List (Bool × Cause × Nat)} {a : α} {b : β} {c : Cause} {i : Nat}

theorem checked_fail : checked ((false, c, i) :: cs) a = throw (.fail c i) := rfl

theorem checked_pass : checked ((true, c, i) :: cs) a = checked cs a := rfl

/-- A value that one test stands before. -/
theorem checked_one {p : Prop} [Decidable p] {passes : Bool} (h : p ↔ passes = true) :
    (if p then pure a else throw (.fail c i) : Enc α) = checked [(passes, c, i)] a := by
  cases passes with
  | true => rw [if_pos (h.2 rfl)]; rfl
  | false => rw [if_neg fun hp => Bool.noConfusion (h.1 hp)]; rfl

/-- What follows a value behind checks has its checks after them. -/
theorem checked_bind {f : α → Enc β} (h : f a = checked ds b) : checked cs a >>= f = checked (cs ++ ds) b := by
  induction cs with
  | nil => exact h
  | cons k cs ih =>
    obtain ⟨passes, c, i⟩ := k
    cases passes with
    | false => rfl
    | true => exact ih

/-- A value made from one behind checks. -/
theorem checked_map (f : α → β) : (checked cs a >>= fun x => pure (f x)) = checked cs (f a) := by
  have h := checked_bind (cs := cs) (a := a) (f := fun x => pure (f x)) (ds := []) (b := f a) rfl
  rwa [List.append_nil] at h

end

/-! ## The layout of R79 in bits -/

/-- A presence bit, and after a 1 the bits of what is present. -/
def optionalBits {α : Type} (enc : α → List Bool) : Option α → List Bool
  | none => [false]
  | some a => true :: enc a

/-- Bytes behind their length, as OID and raw data are (R130). -/
def prefixedBits (bs : List Byte) : List Bool := bitsOf 8 bs.length ++ bitsOfBytes bs

/-- A delta in ten bits (R127). -/
def deltaBits (v : BitVec 16) : List Bool := bitsOf 10 (deltaCode v.toInt)

/-- A character of the VIN in six bits (R120). -/
def charBits (c : Config) (ch : Byte) : List Bool := bitsOf 6 (codeOf c ch)

/-- The propulsion flags in index order. -/
def flagsOf (prop : BitVec 6) : List Bool := (List.range 6).map prop.getLsbD

/-- The bits of a message, step by step of R152. -/
def stepBits (c : Config) (m : Msd) : List (List Bool) :=
  [bitsOf 8 m.version.toNat,
   optionalBits (fun od => prefixedBits od.1 ++ prefixedBits od.2) m.opt,
   bitsOf 8 m.msgid.toNat,
   bitsOf 1 m.auto.toNat ++ bitsOf 1 m.test.toNat ++ bitsOf 1 m.trust.toNat ++ bitsOf 4 (vtCode m.vtype),
   m.vin.flatMap (charBits c),
   (flagsOf m.prop).flatMap propField,
   bitsOf 32 m.timestamp.toNat,
   bitsOf 32 (posCode m.lat) ++ bitsOf 32 (posCode m.lon),
   bitsOf 8 m.dir.toNat,
   optionalBits (fun d => deltaBits d.1 ++ deltaBits d.2) m.n1,
   optionalBits (fun d => deltaBits d.1 ++ deltaBits d.2) m.n2,
   optionalBits (fun v => bitsOf 8 v.toNat) m.pax]

/-- The rows of R79 for the optional data. -/
def optFields : Option (List Byte × List Byte) → List Field
  | none => [(1, 0)]
  | some (oid, data) =>
    [(1, 1), (8, oid.length)] ++ oid.map (fun b => (8, b.toNat))
      ++ [(8, data.length)] ++ data.map (fun b => (8, b.toNat))

/-- The rows of R79 for the number of passengers. -/
def paxFields : Option (BitVec 8) → List Field
  | none => [(1, 0)]
  | some v => [(1, 1), (8, v.toNat)]

/-- The rows of R79 for the propulsion flags. -/
def flagFields (prop : BitVec 6) : List Field :=
  (List.range 6).flatMap (fun i => if prop.getLsbD i then [(1, 1), (1, 1)] else [(1, 0)])

/-- The rows of R79, with its variable parts named. -/
theorem fields_eq (c : Config) (m : Msd) :
    m.fields c
      = [(8, m.version.toNat)] ++ optFields m.opt
        ++ [(8, m.msgid.toNat), (1, m.auto.toNat), (1, m.test.toNat), (1, m.trust.toNat), (4, m.vtype.toNat - 1)]
        ++ m.vin.map (fun ch => (6, codeOf c ch)) ++ flagFields m.prop
        ++ [(32, m.timestamp.toNat), (32, posCode m.lat), (32, posCode m.lon), (8, m.dir.toNat)]
        ++ recentFields m.n1 ++ recentFields m.n2 ++ paxFields m.pax := by
  obtain ⟨_, opt, _, _, _, _, _, _, _, _, _, _, _, _, _, pax⟩ := m
  cases opt <;> cases pax <;> rfl

theorem streamOf_field (n v : Nat) (fs : List Field) : streamOf ((n, v) :: fs) = bitsOf n v ++ streamOf fs := by
  rw [streamOf_cons, fieldBits_eq_bitsOf]

theorem streamOf_optFields (o : Option (List Byte × List Byte)) :
    streamOf (optFields o) = optionalBits (fun od => prefixedBits od.1 ++ prefixedBits od.2) o := by
  rcases o with _ | ⟨oid, data⟩
  · rfl
  · simp only [optFields, optionalBits, prefixedBits, streamOf_append, streamOf_field, streamOf_bytes, streamOf_nil,
      List.append_nil, List.append_assoc]
    rfl

theorem streamOf_paxFields (o : Option (BitVec 8)) :
    streamOf (paxFields o) = optionalBits (fun v => bitsOf 8 v.toNat) o := by
  cases o with
  | none => rfl
  | some v => simp only [paxFields, optionalBits, streamOf_field, streamOf_nil, List.append_nil]; rfl

theorem streamOf_recentFields (o : Option (BitVec 16 × BitVec 16)) :
    streamOf (recentFields o) = optionalBits (fun d => deltaBits d.1 ++ deltaBits d.2) o := by
  rcases o with _ | ⟨a, b⟩
  · rfl
  · simp only [recentFields, optionalBits, streamOf_field, streamOf_nil, List.append_nil]
    rfl

theorem streamOf_flagFields (prop : BitVec 6) : streamOf (flagFields prop) = (flagsOf prop).flatMap propField := by
  rw [streamOf, flagFields, flagsOf, List.flatMap_assoc, List.flatMap_map]
  refine List.flatMap_congr fun i _ => ?_
  cases prop.getLsbD i <;> rfl

theorem streamOf_vin (c : Config) (cs : List Byte) :
    streamOf (cs.map (fun ch => (6, codeOf c ch))) = cs.flatMap (charBits c) := by
  simp only [streamOf, List.flatMap_map, fieldBits_eq_bitsOf]
  rfl

/-- The bits of R79 are those of the steps in order. -/
theorem bits_eq (c : Config) (m : Msd) : m.bits c = (stepBits c m).flatten := by
  simp only [Msd.bits, fields_eq, stepBits, streamOf_append, streamOf_field, streamOf_nil, streamOf_optFields,
    streamOf_paxFields, streamOf_recentFields, streamOf_flagFields, streamOf_vin, List.flatten_cons, List.flatten_nil,
    List.append_nil, List.append_assoc]
  rfl

/-! ## The length of a message -/

/-- An optional part whose content has always the same length. -/
theorem optionalBits_length {α : Type} {enc : α → List Bool} {n : Nat} (h : ∀ a, (enc a).length = n) (o : Option α) :
    (optionalBits enc o).length = 1 + n * o.isSome.toNat := by
  cases o with
  | none => rfl
  | some a => simp [optionalBits, h]; omega

/-- A flag is one bit, and one more if it is set (R128). -/
theorem flagsOf_bits_length (prop : BitVec 6) : ((flagsOf prop).flatMap propField).length = 6 + setFlags prop := by
  rw [flagsOf, List.flatMap_map, propFields_length, List.length_range]
  rfl

theorem vinBits_length (c : Config) (cs : List Byte) : (cs.flatMap (charBits c)).length = 6 * cs.length := by
  rw [← streamOf_vin, streamOf_length, List.map_map]
  simp [Function.comp_def, Nat.mul_comm]

/-- Settles O34, by the lengths of the steps. -/
theorem messageLengthFormula : Obligations.MessageLengthFormula := by
  unfold Obligations.MessageLengthFormula
  intro c m hvin
  have hrecent := optionalBits_length (enc := fun d : BitVec 16 × BitVec 16 => deltaBits d.1 ++ deltaBits d.2) (n := 20)
    (fun d => by simp [deltaBits])
  have hpax := optionalBits_length (enc := fun v : BitVec 8 => bitsOf 8 v.toNat) (n := 8) (fun v => by simp)
  rw [bits_eq]
  simp only [stepBits, List.flatten_cons, List.flatten_nil, List.length_append, List.length_nil, bitsOf_length,
    vinBits_length, flagsOf_bits_length, hrecent, hpax, hvin]
  rcases m.opt with _ | ⟨oid, data⟩
  · simp [optionalBits]; omega
  · simp [optionalBits, prefixedBits]; omega

end Sys2Proof.Machine

/-! What ENCMSD does with a message that is loaded: each step's value behind its checks (R152, R206), and the whole. -/

namespace Sys2Proof.Machine

open Sys2Proof.Safety

/-! ## The steps -/

theorem msdVersion_checked {s : State} {v : BitVec 8} (h : s.inp.version = some v) :
    msdVersion s = checked [(decide (v = 1), .version, 0)] (bitsOf 8 v.toNat) := by
  rw [msdVersion, h, need_some, ok_bind]
  exact checked_one (by rw [versionOk_iff, decide_eq_true_eq])

/-- Bytes that an array holds are read behind their length (R130). -/
theorem lenPrefixed_of_holds {a : ArrId} {bs : List Byte} {s : State} (h : holds (s.arr a) bs) :
    lenPrefixed a bs.length s = .ok (prefixedBits bs) := by
  rw [lenPrefixed, readBytes_of_holds h, ok_bind]
  rfl

/-- The registers and arrays hold the optional data, or say that there is none. -/
def optLoaded (s : State) : Option (List Byte × List Byte) → Prop
  | none => s.inp.optPresent = some 0
  | some (oid, data) =>
    s.inp.optPresent = some 1 ∧ oid.length ≤ 255 ∧ data.length ≤ 255
    ∧ s.inp.oidLen = some (BitVec.ofNat 8 oid.length) ∧ holds s.oid oid
    ∧ s.inp.dataLen = some (BitVec.ofNat 8 data.length) ∧ holds s.data data

theorem msdOptional_of_loaded {s : State} {o : Option (List Byte × List Byte)} (h : optLoaded s o) :
    msdOptional s = .ok (optionalBits (fun od => prefixedBits od.1 ++ prefixedBits od.2) o) := by
  have hlength (bs : List Byte) (hbs : bs.length ≤ 255) : (BitVec.ofNat 8 bs.length).toNat = bs.length := by
    rw [BitVec.toNat_ofNat]
    omega
  rcases o with _ | ⟨oid, data⟩
  · have hpresent : s.inp.optPresent = some 0 := h
    rw [msdOptional, hpresent]
    rfl
  · obtain ⟨hpresent, hoid, hdata, hoidLen, hoidBytes, hdataLen, hdataBytes⟩ := h
    have hbody : msdOptionalBody s = .ok (prefixedBits oid ++ prefixedBits data) := by
      rw [msdOptionalBody, hoidLen, need_some, ok_bind, hlength oid hoid,
        lenPrefixed_of_holds (a := .oid) hoidBytes, ok_bind, hdataLen, need_some, ok_bind, hlength data hdata,
        lenPrefixed_of_holds (a := .data) hdataBytes]
      rfl
    rw [msdOptional, hpresent, need_some, ok_bind, if_pos rfl, hbody]
    rfl

theorem msdMsgid_of_loaded {s : State} {v : BitVec 8} (h : s.inp.msgid = some v) :
    msdMsgid s = .ok (bitsOf 8 v.toNat) := by
  rw [msdMsgid, h]
  rfl

theorem msdControl_checked {s : State} {a t p : BitVec 1} {v : BitVec 8} (ha : s.inp.ctrlAuto = some a)
    (ht : s.inp.ctrlTest = some t) (hp : s.inp.ctrlTrust = some p) (hv : s.inp.vtype = some v) :
    msdControl s = checked [(decide (1 ≤ v.toNat) && decide (v.toNat ≤ s.cfg.vtMax), .vtype, 0)]
      (bitsOf 1 a.toNat ++ bitsOf 1 t.toNat ++ bitsOf 1 p.toNat ++ bitsOf 4 (vtCode v)) := by
  rw [msdControl, ha, ht, hp, hv]
  exact checked_one Iff.rfl

/-- Characters from `i` on: each behind the check that the table has it (R120). -/
theorem msdVinFrom_checked {s : State} {vin : List Byte} (hvin : holds s.vin vin) (n i : Nat)
    (hi : i + n = vin.length) :
    msdVinFrom s i n
      = checked ((List.range' i n).map (fun j => (decide (vin[j]?.getD 0 ∈ s.cfg.alnumTable), .vin, j)))
          ((vin.drop i).flatMap (charBits s.cfg)) := by
  induction n generalizing i with
  | zero =>
    rw [List.drop_of_length_le (by omega)]
    rfl
  | succ n ih =>
    have hlt : i < vin.length := by omega
    have hread : readByte .vin s i = .ok vin[i] := by
      rw [readByte, State.arr, hvin i hlt, List.getElem?_eq_getElem hlt, need_some]
    have hhead : vin[i]?.getD 0 = vin[i] := by rw [List.getElem?_eq_getElem hlt, Option.getD_some]
    rw [msdVinFrom, hread, ok_bind, alnumCode_eq, List.range'_succ, List.map_cons, hhead,
      List.drop_eq_getElem_cons hlt, List.flatMap_cons]
    by_cases hmem : vin[i] ∈ s.cfg.alnumTable
    · rw [if_pos hmem, decide_eq_true hmem, checked_pass]
      dsimp only
      rw [ih (i + 1) (by omega), checked_map]
      rfl
    · rw [if_neg hmem, decide_eq_false hmem, checked_fail]

theorem msdVin_checked {s : State} {vin : List Byte} (hvin : holds s.vin vin) (hlen : vin.length = 17) :
    msdVin s
      = checked ((List.range 17).map (fun j => (decide (vin[j]?.getD 0 ∈ s.cfg.alnumTable), .vin, j)))
          (vin.flatMap (charBits s.cfg)) := by
  rw [List.range_eq_range']
  exact msdVinFrom_checked hvin 17 0 (by omega)

theorem msdPropulsion_of_loaded {s : State} {v : BitVec 6} (h : s.inp.prop = some v) :
    msdPropulsion s = .ok ((flagsOf v).flatMap propField) := by
  rw [msdPropulsion, h, flagsOf, List.flatMap_map]
  rfl

theorem msdTimestamp_of_loaded {s : State} {v : BitVec 32} (h : s.inp.timestamp = some v) :
    msdTimestamp s = .ok (bitsOf 32 v.toNat) := by
  rw [msdTimestamp, h]
  rfl

theorem msdPosition_checked {r : Reg} {lim : Int} {c : Cause} (x : BitVec 32) :
    msdPosition r (some x) lim c = checked [(coordinateOk lim x, c, 0)] (bitsOf 32 (posCode x)) :=
  checked_one (posOk_iff_coordinateOk lim x)

theorem msdLocation_checked {s : State} {lat lon : BitVec 32} (hlat : s.inp.lat = some lat)
    (hlon : s.inp.lon = some lon) :
    msdLocation s = checked [(coordinateOk 324000000 lat, .lat, 0), (coordinateOk 648000000 lon, .lon, 0)]
      (bitsOf 32 (posCode lat) ++ bitsOf 32 (posCode lon)) := by
  rw [msdLocation, hlat, hlon, msdPosition_checked, msdPosition_checked]
  exact checked_bind (checked_map _)

theorem msdDirection_checked {s : State} {v : BitVec 8} (h : s.inp.dir = some v) :
    msdDirection s = checked [(decide (v.toNat ≤ 179) || decide (v.toNat = 255), .dir, 0)] (bitsOf 8 v.toNat) := by
  rw [msdDirection, h]
  exact checked_one Iff.rfl

/-- The registers of a recent location hold its deltas, or say that there is none. -/
def recentLoaded (present : Option (BitVec 1)) (dlat dlon : Option (BitVec 16)) :
    Option (BitVec 16 × BitVec 16) → Prop
  | none => present = some 0
  | some (a, b) => present = some 1 ∧ dlat = some a ∧ dlon = some b

theorem msdDelta_checked {r : Reg} {c : Cause} (x : BitVec 16) :
    msdDelta r (some x) c = checked [(deltaInRange x, c, 0)] (deltaBits x) :=
  checked_one Iff.rfl

theorem msdRecent_checked {r ra rb : Reg} {p : Option (BitVec 1)} {a b : Option (BitVec 16)} (ca cb : Cause)
    {d : Option (BitVec 16 × BitVec 16)} (h : recentLoaded p a b d) :
    msdRecent r p (msdDelta ra a ca) (msdDelta rb b cb)
      = checked (recentChecks ca cb d) (optionalBits (fun d => deltaBits d.1 ++ deltaBits d.2) d) := by
  rcases d with _ | ⟨x, y⟩
  · have hpresent : p = some 0 := h
    rw [hpresent]
    rfl
  · obtain ⟨rfl, rfl, rfl⟩ := h
    rw [msdRecent, need_some, ok_bind, if_pos rfl, msdDelta_checked, msdDelta_checked]
    exact checked_bind (checked_map _)

/-- The registers hold the number of passengers, or say that there is none. -/
def paxLoaded (s : State) : Option (BitVec 8) → Prop
  | none => s.inp.paxPresent = some 0
  | some v => s.inp.paxPresent = some 1 ∧ s.inp.pax = some v

theorem msdPassengers_of_loaded {s : State} {o : Option (BitVec 8)} (h : paxLoaded s o) :
    msdPassengers s = .ok (optionalBits (fun v => bitsOf 8 v.toNat) o) := by
  cases o with
  | none =>
    have hpresent : s.inp.paxPresent = some 0 := h
    rw [msdPassengers, hpresent]
    rfl
  | some v =>
    obtain ⟨hpresent, hpax⟩ := h
    rw [msdPassengers, hpresent, hpax]
    rfl

/-! ## The whole message -/

/-- The checks of a message step by step of R152, without the length check. -/
def stepChecks (c : Config) (m : Msd) : List (List (Bool × Cause × Nat)) :=
  [[(decide (m.version = 1), .version, 0)], [], [],
   [(decide (1 ≤ m.vtype.toNat) && decide (m.vtype.toNat ≤ c.vtMax), .vtype, 0)],
   (List.range 17).map (fun j => (decide (m.vin[j]?.getD 0 ∈ c.alnumTable), .vin, j)), [], [],
   [(coordinateOk 324000000 m.lat, .lat, 0), (coordinateOk 648000000 m.lon, .lon, 0)],
   [(decide (m.dir.toNat ≤ 179) || decide (m.dir.toNat = 255), .dir, 0)],
   recentChecks .n1Dlat .n1Dlon m.n1, recentChecks .n2Dlat .n2Dlon m.n2, []]

/-- The checks of R206 are those of the steps in order, and then the length check. -/
theorem checks_eq (c : Config) (m : Msd) :
    m.checks c = (stepChecks c m).flatten ++ [(decide ((m.bits c).length ≤ 1120), .length, 0)] := by
  simp only [Msd.checks, stepChecks, List.flatten_cons, List.flatten_nil, List.nil_append, List.append_nil,
    List.append_assoc, List.cons_append]

/-- Steps in order: their checks and their bits follow one another. -/
theorem inOrder_checked_cons {e : Enc (List Bool)} {es : List (Enc (List Bool))} {cs : List (Bool × Cause × Nat)}
    {css : List (List (Bool × Cause × Nat))} {bs : List Bool} {bss : List (List Bool)} (h : e = checked cs bs)
    (hs : inOrder es = checked css.flatten bss.flatten) :
    inOrder (e :: es) = checked (cs :: css).flatten (bs :: bss).flatten := by
  rw [inOrder, h, hs]
  exact checked_bind (checked_map _)

/-- The steps of ENCMSD with a message loaded: the bits of R79 behind the checks of R206. -/
theorem inOrder_msdSteps_of_loaded {s : State} {m : Msd} (h : m.loaded s) :
    inOrder (msdSteps s) = checked (stepChecks s.cfg m).flatten (stepBits s.cfg m).flatten := by
  obtain ⟨hversion, hmsgid, hauto, htest, htrust, hvtype, hlen, hvin, hprop, htime, hlat, hlon, hdir, hopt, hn1, hn2,
    hpax⟩ := h
  exact inOrder_checked_cons (msdVersion_checked hversion) <|
    inOrder_checked_cons (msdOptional_of_loaded hopt) <| inOrder_checked_cons (msdMsgid_of_loaded hmsgid) <|
    inOrder_checked_cons (msdControl_checked hauto htest htrust hvtype) <|
    inOrder_checked_cons (msdVin_checked hvin hlen) <| inOrder_checked_cons (msdPropulsion_of_loaded hprop) <|
    inOrder_checked_cons (msdTimestamp_of_loaded htime) <| inOrder_checked_cons (msdLocation_checked hlat hlon) <|
    inOrder_checked_cons (msdDirection_checked hdir) <|
    inOrder_checked_cons (msdRecent_checked .n1Dlat .n1Dlon hn1) <|
    inOrder_checked_cons (msdRecent_checked .n2Dlat .n2Dlon hn2) <|
    inOrder_checked_cons (msdPassengers_of_loaded hpax) rfl

/-- ENCMSD's message with a message loaded: the bits of R79 behind all the checks of R206. -/
theorem msdMessage_of_loaded {s : State} {m : Msd} (h : m.loaded s) :
    msdMessage s = checked (m.checks s.cfg) (m.bits s.cfg) := by
  rw [msdMessage, inOrder_msdSteps_of_loaded h, checks_eq, bits_eq]
  exact checked_bind (checked_one decide_eq_true_iff.symm)

/-- ENCMSD's message with a message loaded that every check passes. -/
theorem msdMessage_of_valid {s : State} {m : Msd} (h : m.loaded s) (hvalid : m.failure s.cfg = none) :
    msdMessage s = .ok (m.bits s.cfg) := by
  rw [Msd.failure] at hvalid
  rw [msdMessage_of_loaded h, checked, hvalid]

/-- ENCMSD's message with a message loaded that a check refuses: its first failure. -/
theorem msdMessage_of_invalid {s : State} {m : Msd} {c : Cause} {i : Nat} (h : m.loaded s)
    (hfail : m.failure s.cfg = some (c, i)) : msdMessage s = .error (.fail c i) := by
  rw [Msd.failure] at hfail
  rw [msdMessage_of_loaded h, checked, hfail]

/-- What a message that every check passes is like, check by check. -/
theorem check_of_valid {c : Config} {m : Msd} (h : m.failure c = none) {k : Bool × Cause × Nat} (hk : k ∈ m.checks c) :
    k.1 = true := by
  simp only [Msd.failure, Option.map_eq_none_iff, List.find?_eq_none] at h
  simpa using h k hk

/-- A message that every check passes fits BUF (R156). -/
theorem bits_length_le {c : Config} {m : Msd} (h : m.failure c = none) : (m.bits c).length ≤ 1120 := by
  have hcheck := check_of_valid h (k := (decide ((m.bits c).length ≤ 1120), .length, 0)) (by
    rw [checks_eq]
    exact List.mem_append_right _ (List.mem_singleton.2 rfl))
  exact of_decide_eq_true hcheck

/-- The state that a successful ENCMSD leaves, with the bits of the message it encoded (R153, R157). -/
def encoded (bs : List Bool) (s : State) : State :=
  (((s.emit 0 bs).setBits bs.length).setBytes (byteLen bs.length)).succeed

theorem exec_encmsd_of_valid {s : State} {m : Msd} (h : m.loaded s) (hvalid : m.failure s.cfg = none) :
    exec .encmsd s = .next (encoded (m.bits s.cfg) s) := by
  rw [exec, execEncmsd, msdMessage_of_valid h hvalid]
  rfl

/-- The bits of BUF that a successful ENCMSD leaves: the message's from position 0 on, each by the write mode (R53). -/
theorem bufBit_encoded (bs : List Bool) (s : State) {p : Nat} (hp : p < 1120) :
    (encoded bs s).bufBit p
      = match bs[p]? with
        | some b => storedBit s.cfg.writeMode (s.bufBit p) b
        | none => s.bufBit p := by
  change (s.emit 0 bs).bufBit p = _
  rw [State.bufBit_emit]
  by_cases hlen : p < bs.length
  · rw [if_pos (by omega), Nat.sub_zero, List.getElem?_eq_getElem hlen]
    exact writtenBit_eq_storedBit _ _ _
  · rw [if_neg (by omega), List.getElem?_eq_none (by omega)]

/-- Everything that a successful ENCMSD leaves as it was. -/
theorem encoded_frame (bs : List Bool) (s : State) :
    encoded bs s
      = { completed s with
            buf := (encoded bs s).buf, resBits := BitVec.ofNat 16 bs.length,
            resBytes := BitVec.ofNat 8 (bs.length / 8) } := rfl

/-- Settles O33: the message's bits are those of R79, and the bit writer puts them from position 0 on. -/
theorem encmsdWritesMessageLayout : Obligations.EncmsdWritesMessageLayout := by
  unfold Obligations.EncmsdWritesMessageLayout
  intro s m hloaded hvalid
  refine ⟨encoded (m.bits s.cfg) s, exec_encmsd_of_valid hloaded hvalid, fun p hp => ?_, fun i hi => ?_,
    encoded_frame _ s⟩
  · exact bufBit_encoded _ s hp
  · exact read_putBits_of_le s.cfg.writeMode s.bufEpoch s.buf 0 (m.bits s.cfg) i hi

end Sys2Proof.Machine

/-! What a receiver reads back: encodings whose value the bits determine, whatever bits follow them, one rule for each way the
layout of R79 is put together, and from them that the bits of a message determine it. The length of a sub-message (R80). -/

namespace Sys2Proof.Machine

open Sys2Proof.Safety

/-! ## Encodings that can be read back -/

/-- A receiver that knows of the values that they meet `P` reads the value back from its bits, and where they end. -/
def Readable {α : Type} (P : α → Prop) (enc : α → List Bool) : Prop :=
  ∀ a b x y, P a → P b → enc a ++ x = enc b ++ y → a = b ∧ x = y

section

variable {α β : Type} {P : α → Prop} {Q : β → Prop} {enc : α → List Bool} {enc' : β → List Bool}

/-- The bits of a value of known width determine it. -/
theorem Readable_bitsOf (n : Nat) : Readable (fun v => v < 2 ^ n) (bitsOf n) := by
  intro v w x y hv hw h
  obtain ⟨hbits, hrest⟩ := List.append_inj h (by simp)
  refine ⟨Nat.eq_of_testBit_eq fun j => ?_, hrest⟩
  by_cases hj : j < n
  · have hget := congrArg (fun l => l[n - 1 - j]?) hbits
    simp only [bitsOf_getElem? n _ (n - 1 - j) (by omega), Option.some.injEq] at hget
    rwa [show n - 1 - (n - 1 - j) = j by omega] at hget
  · rw [Nat.testBit_lt_two_pow (hv.trans_le (Nat.pow_le_pow_right (by decide) (by omega))),
      Nat.testBit_lt_two_pow (hw.trans_le (Nat.pow_le_pow_right (by decide) (by omega)))]

/-- A value that a readable code stands for is readable if the code determines it. -/
theorem Readable.comp {f : β → α} (h : Readable P enc) (hf : ∀ b, Q b → P (f b))
    (hinj : ∀ b c, Q b → Q c → f b = f c → b = c) : Readable Q (fun b => enc (f b)) := by
  intro b c x y hb hc hbits
  obtain ⟨hcode, hrest⟩ := h _ _ x y (hf b hb) (hf c hc) hbits
  exact ⟨hinj b c hb hc hcode, hrest⟩

/-- A register of the field's width. -/
theorem Readable_bitVec (w : Nat) : Readable (fun _ => True) (fun v : BitVec w => bitsOf w v.toNat) :=
  (Readable_bitsOf w).comp (fun v _ => v.isLt) (fun _ _ _ _ h => BitVec.eq_of_toNat_eq h)

theorem Readable.pair (h : Readable P enc) (h' : Readable Q enc') :
    Readable (fun d : α × β => P d.1 ∧ Q d.2) (fun d => enc d.1 ++ enc' d.2) := by
  rintro ⟨a, b⟩ ⟨c, d⟩ x y ⟨ha, hb⟩ ⟨hc, hd⟩ hbits
  rw [List.append_assoc, List.append_assoc] at hbits
  obtain ⟨rfl, hbits⟩ := h _ _ _ _ ha hc hbits
  obtain ⟨rfl, hrest⟩ := h' _ _ _ _ hb hd hbits
  exact ⟨rfl, hrest⟩

/-- What stands behind a presence bit. -/
theorem Readable.optional (h : Readable P enc) : Readable (fun o => ∀ a ∈ o, P a) (optionalBits enc) := by
  intro o o' x y ho ho' hbits
  cases o with
  | none => cases o' with
    | none => exact ⟨rfl, (List.cons.inj hbits).2⟩
    | some b => cases (List.cons.inj hbits).1
  | some a => cases o' with
    | none => cases (List.cons.inj hbits).1
    | some b =>
      obtain ⟨rfl, hrest⟩ := h a b x y (ho a rfl) (ho' b rfl) (List.cons.inj hbits).2
      exact ⟨rfl, hrest⟩

/-- A list of known length. -/
theorem Readable.list (h : Readable P enc) (n : Nat) :
    Readable (fun l : List α => l.length = n ∧ ∀ a ∈ l, P a) (fun l => l.flatMap enc) := by
  induction n with
  | zero =>
    rintro l l' x y ⟨hl, _⟩ ⟨hl', _⟩ hbits
    obtain rfl := List.length_eq_zero_iff.1 hl
    obtain rfl := List.length_eq_zero_iff.1 hl'
    exact ⟨rfl, hbits⟩
  | succ n ih =>
    rintro l l' x y ⟨hl, hP⟩ ⟨hl', hP'⟩ hbits
    obtain ⟨a, l, rfl⟩ := List.exists_of_length_succ l hl
    obtain ⟨a', l', rfl⟩ := List.exists_of_length_succ l' hl'
    simp only [List.flatMap_cons, List.append_assoc] at hbits
    rw [List.forall_mem_cons] at hP hP'
    obtain ⟨rfl, htail⟩ := h a a' (l.flatMap enc ++ x) (l'.flatMap enc ++ y) hP.1 hP'.1 hbits
    obtain ⟨rfl, hrest⟩ := ih l l' x y ⟨Nat.succ.inj hl, hP.2⟩ ⟨Nat.succ.inj hl', hP'.2⟩ htail
    exact ⟨rfl, hrest⟩

end

/-! ## The parts of the layout -/

/-- Bytes behind their length: the length says where they end. -/
theorem Readable_prefixedBits : Readable (fun bs => bs.length ≤ 255) prefixedBits := by
  intro bs cs x y hbs hcs hbits
  rw [prefixedBits, prefixedBits, List.append_assoc, List.append_assoc] at hbits
  obtain ⟨hlen, hbits⟩ := Readable_bitsOf 8 _ _ _ _ (by omega) (by omega) hbits
  exact (Readable_bitVec 8).list cs.length bs cs x y ⟨hlen, fun _ _ => trivial⟩ ⟨rfl, fun _ _ => trivial⟩ hbits

/-- A set flag is two ones, another is a zero (R128). -/
theorem Readable_propField : Readable (fun _ => True) propField := by
  intro f g x y _ _ hbits
  cases f <;> cases g <;> simp_all [propField]

theorem flagsOf_inj {p q : BitVec 6} (h : flagsOf p = flagsOf q) : p = q := by
  refine BitVec.eq_of_getLsbD_eq fun i hi => ?_
  have hget := congrArg (fun l => l[i]?) h
  simpa [flagsOf, hi] using hget

theorem Readable_flags : Readable (fun _ => True) (fun p : BitVec 6 => (flagsOf p).flatMap propField) :=
  (Readable_propField.list 6).comp (fun p _ => ⟨by simp [flagsOf], fun _ _ => trivial⟩) (fun _ _ _ _ => flagsOf_inj)

/-- The position code is the register with its top bit inverted, so that it determines it (R125). -/
theorem Readable_posCode : Readable (fun _ => True) (fun v : BitVec 32 => bitsOf 32 (posCode v)) := by
  refine (Readable_bitsOf 32).comp (fun v _ => Nat.mod_lt _ (by decide)) (fun v w _ _ h => ?_)
  have hv := v.isLt
  have hw := w.isLt
  apply BitVec.eq_of_toNat_eq
  simp only [posCode] at h
  omega

/-- A delta within its bounds has a code of ten bits that determines it (R127). -/
theorem Readable_deltaBits : Readable (fun v => deltaInRange v = true) deltaBits := by
  have hrange {v : BitVec 16} (h : deltaInRange v = true) : -512 ≤ v.toInt ∧ v.toInt ≤ 511 := by
    simpa [deltaInRange] using h
  refine (Readable_bitsOf 10).comp (fun v h => ?_) (fun v w hv hw h => ?_)
  · have hv := hrange h
    simp only [deltaCode]
    omega
  · have hv := hrange hv
    have hw := hrange hw
    apply BitVec.eq_of_toInt_eq
    simp only [deltaCode] at h
    omega

/-- The vehicle types that have a code (R123). -/
theorem Readable_vtCode :
    Readable (fun v : BitVec 8 => 1 ≤ v.toNat ∧ v.toNat ≤ 16) (fun v => bitsOf 4 (vtCode v)) := by
  refine (Readable_bitsOf 4).comp (fun v ⟨hpos, hmax⟩ => ?_) (fun v w ⟨hv, _⟩ ⟨hw, _⟩ h => ?_)
  · simp only [vtCode]
    omega
  · apply BitVec.eq_of_toNat_eq
    simp only [vtCode] at h
    omega

/-- A character that a table of at most 64 has is the one at its code. -/
theorem Readable_charBits {c : Config} (hlen : c.alnumTable.length ≤ 64) :
    Readable (fun ch => ch ∈ c.alnumTable) (charBits c) := by
  refine (Readable_bitsOf 6).comp (fun ch h => ?_) (fun a b ha hb h => ?_)
  · have := List.idxOf_lt_length_iff.2 h
    simp only [codeOf]
    omega
  · have := congrArg (fun i => c.alnumTable[i]?) h
    simpa [codeOf, List.getElem?_idxOf, ha, hb] using this

/-! ## The message -/

/-- What the checks and the registers' widths say of a message, as far as reading it back needs it. -/
structure Encodable (c : Config) (m : Msd) : Prop where
  opt : ∀ od ∈ m.opt, od.1.length ≤ 255 ∧ od.2.length ≤ 255
  vtype : 1 ≤ m.vtype.toNat ∧ m.vtype.toNat ≤ 16
  vin : m.vin.length = 17 ∧ ∀ ch ∈ m.vin, ch ∈ c.alnumTable
  n1 : ∀ d ∈ m.n1, deltaInRange d.1 = true ∧ deltaInRange d.2 = true
  n2 : ∀ d ∈ m.n2, deltaInRange d.1 = true ∧ deltaInRange d.2 = true

/-- The bits of a message determine it. -/
theorem bits_inj {c : Config} (hc : c.valid = true) {m n : Msd} (hm : Encodable c m) (hn : Encodable c n)
    (h : m.bits c = n.bits c) : m = n := by
  have htable : c.alnumTable.length ≤ 64 := (Config.valid_iff.1 hc).1.trans_le (by decide)
  simp only [bits_eq, stepBits, List.flatten_cons, List.append_assoc] at h
  obtain ⟨hversion, h⟩ := Readable_bitVec 8 _ _ _ _ trivial trivial h
  obtain ⟨hopt, h⟩ := (Readable_prefixedBits.pair Readable_prefixedBits).optional _ _ _ _ hm.opt hn.opt h
  obtain ⟨hmsgid, h⟩ := Readable_bitVec 8 _ _ _ _ trivial trivial h
  obtain ⟨hauto, h⟩ := Readable_bitVec 1 _ _ _ _ trivial trivial h
  obtain ⟨htest, h⟩ := Readable_bitVec 1 _ _ _ _ trivial trivial h
  obtain ⟨htrust, h⟩ := Readable_bitVec 1 _ _ _ _ trivial trivial h
  obtain ⟨hvtype, h⟩ := Readable_vtCode _ _ _ _ hm.vtype hn.vtype h
  obtain ⟨hvin, h⟩ := (Readable_charBits htable).list 17 _ _ _ _ hm.vin hn.vin h
  obtain ⟨hprop, h⟩ := Readable_flags _ _ _ _ trivial trivial h
  obtain ⟨htime, h⟩ := Readable_bitVec 32 _ _ _ _ trivial trivial h
  obtain ⟨hlat, h⟩ := Readable_posCode _ _ _ _ trivial trivial h
  obtain ⟨hlon, h⟩ := Readable_posCode _ _ _ _ trivial trivial h
  obtain ⟨hdir, h⟩ := Readable_bitVec 8 _ _ _ _ trivial trivial h
  obtain ⟨hn1, h⟩ := (Readable_deltaBits.pair Readable_deltaBits).optional _ _ _ _ hm.n1 hn.n1 h
  obtain ⟨hn2, h⟩ := (Readable_deltaBits.pair Readable_deltaBits).optional _ _ _ _ hm.n2 hn.n2 h
  obtain ⟨hpax, -⟩ := (Readable_bitVec 8).optional _ _ _ _ (fun _ _ => trivial) (fun _ _ => trivial) h
  cases m
  cases n
  rw [Msd.mk.injEq]
  exact ⟨hversion, hopt, hmsgid, hauto, htest, htrust, hvtype, hvin, hprop, htime, hlat, hlon, hdir, hn1, hn2, hpax⟩

/-- The check of each step holds if the message is one that every check passes. -/
theorem stepChecks_of_valid {c : Config} {m : Msd} (h : m.failure c = none) :
    ∀ cs ∈ stepChecks c m, ∀ k ∈ cs, k.1 = true := by
  intro cs hcs k hk
  refine check_of_valid h ?_
  rw [checks_eq]
  exact List.mem_append_left _ (List.mem_flatten_of_mem hcs hk)

/-- The checks of a recent location are those of its two deltas. -/
theorem deltas_of_recentChecks {ca cb : Cause} {d : Option (BitVec 16 × BitVec 16)}
    (h : ∀ k ∈ recentChecks ca cb d, k.1 = true) : ∀ x ∈ d, deltaInRange x.1 = true ∧ deltaInRange x.2 = true := by
  rintro ⟨a, b⟩ rfl
  simpa [recentChecks] using h

/-- A message that is loaded and that every check passes can be read back. -/
theorem encodable_of_valid {s : State} {m : Msd} (hc : s.cfg.valid = true) (h : m.loaded s)
    (hvalid : m.failure s.cfg = none) : Encodable s.cfg m := by
  have hchecks := stepChecks_of_valid hvalid
  simp only [stepChecks, List.forall_mem_cons, Bool.and_eq_true, decide_eq_true_eq] at hchecks
  obtain ⟨-, -, -, ⟨⟨hpos, hmax⟩, -⟩, hchars, -, -, -, -, hn1, hn2, -⟩ := hchecks
  obtain ⟨-, -, -, -, -, -, hlen, -, -, -, -, -, -, hopt, -⟩ := h
  refine ⟨?_, ⟨hpos, hmax.trans (Config.valid_iff.1 hc).2.2.2.1⟩, ⟨hlen, fun ch hch => ?_⟩,
    deltas_of_recentChecks hn1, deltas_of_recentChecks hn2⟩
  · have hloaded : optLoaded s m.opt := hopt
    rintro ⟨oid, data⟩ hod
    rw [Option.mem_def.1 hod] at hloaded
    obtain ⟨-, hoid, hdata, -⟩ := hloaded
    exact ⟨hoid, hdata⟩
  · obtain ⟨j, hj, rfl⟩ := List.getElem_of_mem hch
    have hcheck := hchars _ (List.mem_map_of_mem (List.mem_range.2 (hlen ▸ hj)))
    simpa [List.getElem?_eq_getElem hj] using hcheck

/-! ## A successful ENCMSD -/

theorem exec_encmsd_of_invalid {s : State} {m : Msd} {c : Cause} {i : Nat} (h : m.loaded s)
    (hfail : m.failure s.cfg = some (c, i)) : exec .encmsd s = .next (s.raiseFail c i) := by
  rw [exec, execEncmsd, msdMessage_of_invalid h hfail]
  rfl

/-- With a message loaded, an ENCMSD that succeeds has passed every check, and leaves the message's bits. -/
theorem exec_encmsd_ok {s t : State} {m : Msd} (h : m.loaded s) (hexec : exec .encmsd s = .next t)
    (hstatus : t.status = 0) : m.failure s.cfg = none ∧ t = encoded (m.bits s.cfg) s := by
  cases hfail : m.failure s.cfg with
  | none => exact ⟨rfl, (Host.Outcome.next.inj ((exec_encmsd_of_valid h hfail).symm.trans hexec)).symm⟩
  | some k =>
    obtain rfl := Host.Outcome.next.inj ((exec_encmsd_of_invalid h hfail).symm.trans hexec)
    cases hstatus

/-- Over a cleared BUF the bits are those of the message, in either write mode (R151). -/
theorem bufBit_encoded_of_cleared (bs : List Bool) {s : State} {p : Nat} (hp : p < 1120) (hclear : s.bufBit p = false) :
    (encoded bs s).bufBit p = bs[p]?.getD false := by
  rw [bufBit_encoded bs s hp, hclear]
  cases bs[p]? <;> cases s.cfg.writeMode <;> rfl

/-- Bits that fit BUF are determined by RES_BITS and by BUF, if BUF was cleared before. -/
theorem bits_eq_of_encoded {bs cs : List Bool} {s u : State} (hbs : bs.length ≤ 1120) (hcs : cs.length ≤ 1120)
    (hs : ∀ p, p < 1120 → s.bufBit p = false) (hu : ∀ p, p < 1120 → u.bufBit p = false)
    (hlen : (encoded bs s).resBits = (encoded cs u).resBits)
    (hbits : ∀ p, p < 1120 → (encoded bs s).bufBit p = (encoded cs u).bufBit p) : bs = cs := by
  have hlength : bs.length = cs.length := by
    have := congrArg BitVec.toNat hlen
    simp only [encoded, State.succeed_resBits, State.setBytes_resBits, State.setBits_resBits, BitVec.toNat_ofNat] at this
    omega
  refine List.ext_getElem hlength fun p hp hp' => ?_
  have hbit := hbits p (by omega)
  rwa [bufBit_encoded_of_cleared bs (by omega) (hs p (by omega)), bufBit_encoded_of_cleared cs (by omega) (hu p (by omega)),
    List.getElem?_eq_getElem hp, List.getElem?_eq_getElem hp'] at hbit

/-- Settles O35: BUF and RES_BITS give the bits of the message back, and these the message. -/
theorem encodedBitsDetermineMessage : Obligations.EncodedBitsDetermineMessage := by
  unfold Obligations.EncodedBitsDetermineMessage
  intro s u t v m n hc hcfg hm hn hs hu ht hv htok hvok hlen hbits
  obtain ⟨hmvalid, rfl⟩ := exec_encmsd_ok hm ht htok
  obtain ⟨hnvalid, rfl⟩ := exec_encmsd_ok hn hv hvok
  have heq := bits_eq_of_encoded (bits_length_le hmvalid) (bits_length_le hnvalid) hs hu hlen hbits
  have hnenc := encodable_of_valid (hcfg ▸ hc) hn hnvalid
  rw [hcfg] at heq hnenc
  exact bits_inj hc (encodable_of_valid hc hm hmvalid) hnenc heq

/-! ## The length of a sub-message -/

/-- A group that is present has one bit for each of its flags (R182). -/
theorem groupFields_width {n : Nat} (o : Option (BitVec n × BitVec n)) :
    ((groupFields o).map (fun f => f.1)).sum = n * o.isSome.toNat := by
  rcases o with _ | ⟨p, v⟩
  · rfl
  · simp [groupFields, Function.comp_def]

/-- Settles O43: the widths of the rows of R80. -/
theorem subMessageLengthFormula : Obligations.SubMessageLengthFormula := by
  unfold Obligations.SubMessageLengthFormula
  intro m
  rw [Era.bits, streamOf_length, Era.fields, List.map_append, List.map_append, List.sum_append, List.sum_append,
    groupFields_width, groupFields_width]
  rfl

end Sys2Proof.Machine

/-! The bit serializer: the bits that ENCBITS and ENCWIDE take from written inputs, and what both do with a field of bits and
with illegal arguments. -/

namespace Sys2Proof.Machine

open Sys2Proof.Safety

/-! ## The two commands, and their argument errors -/

theorem exec_encbits (len off : Nat) (s : State) :
    exec (.encbits len off) s = appendField (encbitsLenOk len) len off (encbitsField len s) s := rfl

theorem exec_encwide (len off : Nat) (s : State) :
    exec (.encwide len off) s = appendField (encwideLenOk len) len off (encwideField len s) s := rfl

/-- An argument error writes the three outcome registers and nothing else (R205). -/
theorem raiseArgError_eq_refusedWith (c : Cause) (s : State) : s.raiseArgError c = refusedWith 0x03 c.code s := rfl

/-- A bit writer checks its length first and its offset next, and both before its field is read (R102, R105). -/
theorem appendField_argumentErrors {lenOk : Bool} {legal : Prop} {len : Nat} (hlegal : lenOk = true ↔ legal) (off : Nat)
    (field : Enc (List Bool)) (s : State) :
    (¬legal → appendField lenOk len off field s = .next (refusedWith 0x03 0x10 s))
    ∧ (legal → 0xFFFF < off + len → appendField lenOk len off field s = .next (refusedWith 0x03 0x11 s)) := by
  refine ⟨fun hlen => ?_, fun hlen hoff => ?_⟩
  · obtain rfl : lenOk = false := Bool.eq_false_iff.2 (mt hlegal.1 hlen)
    exact congrArg Host.Outcome.next (raiseArgError_eq_refusedWith .badLen s)
  · obtain rfl : lenOk = true := hlegal.2 hlen
    have hover : offsetOk len off = false := Bool.eq_false_iff.2 (mt (offsetOk_iff len off).1 (Nat.not_le.2 hoff))
    simp only [appendField, hover, raiseArgError_eq_refusedWith]
    rfl

/-- Settles O23: ENCBITS is a bit writer, and SRC is read for its field only. -/
theorem encbitsArgumentErrors : Obligations.EncbitsArgumentErrors := by
  unfold Obligations.EncbitsArgumentErrors
  intro s len off
  rw [exec_encbits]
  exact appendField_argumentErrors (encbitsLenOk_iff len) off _ s

/-- Settles O26: ENCWIDE is a bit writer, and WIDE is read for its field only. -/
theorem encwideArgumentErrors : Obligations.EncwideArgumentErrors := by
  unfold Obligations.EncwideArgumentErrors
  intro s len off
  rw [exec_encwide, ← Nat.not_le]
  exact appendField_argumentErrors (encwideLenOk_iff len) off _ s

/-! ## A field appended -/

/-- The state that a bit writer leaves when it completes with these bits at this offset (R100, R104). -/
def appended (off : Nat) (bs : List Bool) (s : State) : State :=
  ((s.emit off bs).setOffset (off + bs.length)).succeed

theorem appendField_ok {off : Nat} {bs : List Bool} (hoff : off + bs.length ≤ 0xFFFF) (s : State) :
    appendField true bs.length off (.ok bs) s = .next (appended off bs s) := by
  rw [appendField_of_legal ((offsetOk_iff _ off).2 hoff)]
  rfl

/-- The bits of BUF after bits are appended: those from the offset on, as far as BUF has them, each by the write mode (R53,
R54). -/
theorem bufBit_appended {off : Nat} {bs : List Bool} {bit : Nat → Bool}
    (hbit : ∀ j, j < bs.length → bs[j]? = some (bit j)) (s : State) {p : Nat} (hp : p < 1120) :
    (appended off bs s).bufBit p
      = if off ≤ p ∧ p < off + bs.length then storedBit s.cfg.writeMode (s.bufBit p) (bit (p - off))
        else s.bufBit p := by
  change (s.emit off bs).bufBit p = _
  rw [State.bufBit_emit]
  by_cases hin : off ≤ p ∧ p < off + bs.length
  · rw [if_pos ⟨hin.1, hin.2, hp⟩, if_pos hin, hbit (p - off) (by omega), Option.getD_some,
      writtenBit_eq_storedBit]
  · rw [if_neg (fun h => hin ⟨h.1, h.2.1⟩), if_neg hin]

/-- Everything that appending bits leaves as it was. -/
theorem appended_frame (off : Nat) (bs : List Bool) (s : State) :
    appended off bs s
      = { completed s with buf := (appended off bs s).buf, resOffset := BitVec.ofNat 16 (off + bs.length) } := rfl

/-- A bit writer with legal arguments and a field whose bits are known: what it does to BUF, and what it leaves. -/
theorem appendField_appends {len off : Nat} {bs : List Bool} {bit : Nat → Bool} (hlen : bs.length = len)
    (hbit : ∀ j, j < len → bs[j]? = some (bit j)) (hoff : off + len ≤ 0xFFFF) (s : State) :
    ∃ t, appendField true len off (.ok bs) s = .next t
      ∧ (∀ p, p < 1120 → t.bufBit p =
          if off ≤ p ∧ p < off + len then storedBit s.cfg.writeMode (s.bufBit p) (bit (p - off)) else s.bufBit p)
      ∧ (∀ i, 140 ≤ i → Memory.read t.buf i = Memory.read s.buf i)
      ∧ t = { completed s with buf := t.buf, resOffset := BitVec.ofNat 16 (off + len) } := by
  subst hlen
  exact ⟨appended off bs s, appendField_ok hoff s, fun _ hp => bufBit_appended hbit s hp,
    read_putBits_of_le s.cfg.writeMode s.bufEpoch s.buf off bs, appended_frame off bs s⟩

/-! ## The field of ENCBITS -/

/-- How many bytes of SRC a length of ENCBITS needs (R100, R101). -/
def sourceLen (len : Nat) : Nat := if len = 0 then 0 else if len ≤ 8 then 1 else len / 8

/-- The bits ENCBITS takes from these bytes of SRC: the low ones of the first, or whole bytes (R101). -/
def sourceBits (len : Nat) (bs : List Byte) : List Bool :=
  if len ≤ 8 then bitsOf len (bs[0]?.getD 0).toNat else bitsOfBytes bs

/-- Bit `j` of the field, counted in the stream (R101). -/
def sourceBit (len : Nat) (bs : List Byte) (j : Nat) : Bool :=
  if len ≤ 8 then (bs[0]?.getD 0).getLsbD (len - 1 - j) else bitOfBytes bs j

/-- A legal length above 8 is whole bytes. -/
theorem eight_mul_sourceLen {len : Nat} (hlen : encbitsLenOk len = true) (hlong : ¬len ≤ 8) :
    8 * sourceLen len = len := by
  have hcases := (encbitsLenOk_iff len).1 hlen
  rw [sourceLen, if_neg (by omega), if_neg hlong]
  omega

theorem sourceBits_length {len : Nat} {bs : List Byte} (hlen : encbitsLenOk len = true)
    (hbs : bs.length = sourceLen len) : (sourceBits len bs).length = len := by
  unfold sourceBits
  split
  · exact bitsOf_length len _
  · next hlong => rw [bitsOfBytes_length, hbs, eight_mul_sourceLen hlen hlong]

theorem sourceBits_getElem? {len : Nat} {bs : List Byte} (hlen : encbitsLenOk len = true)
    (hbs : bs.length = sourceLen len) {j : Nat} (hj : j < len) : (sourceBits len bs)[j]? = some (sourceBit len bs j) := by
  unfold sourceBits sourceBit
  split
  · exact bitsOf_getElem? len _ j hj
  · next hlong => exact bitsOfBytes_getElem? bs j (by rwa [hbs, eight_mul_sourceLen hlen hlong])

/-- ENCBITS reads the bytes it needs where SRC holds them: none, SRC[0], or whole bytes from SRC[0] on (R101). -/
theorem encbitsField_of_holds {s : State} {len : Nat} {bs : List Byte} (hbs : bs.length = sourceLen len)
    (hsrc : holds s.src bs) : encbitsField len s = .ok (sourceBits len bs) := by
  unfold encbitsField sourceBits
  unfold sourceLen at hbs
  by_cases hzero : len = 0
  · subst hzero; rfl
  rw [if_neg hzero] at hbs ⊢
  by_cases hshort : len ≤ 8
  · rw [if_pos hshort] at hbs ⊢
    obtain ⟨b, rfl⟩ := List.length_eq_one_iff.1 hbs
    have hbyte : readByte .src s 0 = .ok b := by
      rw [readByte, State.arr, hsrc 0 Nat.one_pos]
      rfl
    rw [if_pos hshort, hbyte]
    rfl
  · rw [if_neg hshort] at hbs ⊢
    have hbytes : readBytes .src s 0 (len / 8) = .ok bs := hbs ▸ readBytes_of_holds (a := .src) hsrc
    rw [if_neg hshort, hbytes]
    rfl

/-- Settles O22: the field is the bits of SRC that R101 names, and it is appended as every field is. -/
theorem encbitsAppendsSourceBits : Obligations.EncbitsAppendsSourceBits := by
  unfold Obligations.EncbitsAppendsSourceBits
  intro s len off bs hlen hoff hbs hsrc
  have hok : encbitsLenOk len = true := (encbitsLenOk_iff len).2 hlen
  rw [exec_encbits, hok, encbitsField_of_holds hbs hsrc]
  exact appendField_appends (sourceBits_length hok hbs) (fun _ => sourceBits_getElem? hok hbs) hoff s

/-! ## The field of ENCWIDE -/

/-- ENCWIDE takes the low bits of WIDE, which it reads only for a length that is not 0 (R104). -/
theorem encwideField_of_written {s : State} {len : Nat} {v : BitVec 16} (hwide : 1 ≤ len → s.inp.wide = some v) :
    encwideField len s = .ok (bitsOf len v.toNat) := by
  unfold encwideField
  by_cases hzero : len = 0
  · subst hzero; rfl
  · rw [if_neg hzero, hwide (by omega)]
    rfl

/-- Settles O25: the field is the low bits of WIDE, and it is appended as every field is. -/
theorem encwideAppendsWideBits : Obligations.EncwideAppendsWideBits := by
  unfold Obligations.EncwideAppendsWideBits
  intro s len off v hlen hoff hwide
  rw [exec_encwide, (encwideLenOk_iff len).2 hlen, encwideField_of_written hwide]
  exact appendField_appends (bitsOf_length len _) (bitsOf_getElem? len _) hoff s

/-! ## The two bit writers agree -/

/-- For a length of 1 to 8 the field is the low bits of SRC[0] alone. -/
theorem encbitsField_of_byte {s : State} {len : Nat} {v : Byte} (hpos : 1 ≤ len) (hshort : len ≤ 8)
    (hsrc : Memory.read s.src 0 = some v) : encbitsField len s = .ok (bitsOf len v.toNat) := by
  have hlen : [v].length = sourceLen len := by rw [sourceLen, if_neg (by omega), if_pos hshort]; rfl
  have hholds : holds s.src [v] := fun i hi => by
    obtain rfl : i = 0 := Nat.lt_one_iff.1 hi
    exact hsrc
  rw [encbitsField_of_holds hlen hholds, sourceBits, if_pos hshort]
  rfl

/-- Settles O27: the field is the same list of bits for both, and what each does with it is `appendField`. -/
theorem encwideAndEncbitsAgree : Obligations.EncwideAndEncbitsAgree := by
  unfold Obligations.EncwideAndEncbitsAgree
  intro s len off v hpos hshort hoff hwide hsrc
  have hfield : encwideField len s = .ok (bitsOf len v.toNat) := by
    rw [encwideField_of_written fun _ => hwide, BitVec.toNat_setWidth_of_le (by decide)]
  obtain ⟨t, hnext, -⟩ := appendField_appends (bitsOf_length len v.toNat) (bitsOf_getElem? len v.toNat) hoff s
  refine ⟨t, ?_, ?_⟩
  · rw [exec_encbits, (encbitsLenOk_iff len).2 (.inl hshort), encbitsField_of_byte hpos hshort hsrc, hnext]
  · rw [exec_encwide, (encwideLenOk_iff len).2 (by omega), hfield, hnext]

end Sys2Proof.Machine

/-! The field units: what ALNUM gives for each character, the code of a position bit by bit, and the values that each validator
passes. -/

namespace Sys2Proof.Machine

open Sys2Proof.Safety

/-! ## The VIN lookup -/

/-- The code of an entry of a table without repetitions is its index (R120, R121). -/
theorem resCodeOf_alnumCode_of_getElem? {t : List Byte} (hdistinct : t.Nodup) (hlen : t.length ≤ 255) {c : Byte} {i : Nat}
    (hi : t[i]? = some c) : (resCodeOf (alnumCode t c)).toNat = i := by
  obtain ⟨hlt, rfl⟩ := List.getElem?_eq_some_iff.1 hi
  rw [alnumCode_eq, if_pos (List.getElem_mem hlt), hdistinct.idxOf_getElem, resCodeOf, BitVec.toNat_ofNat]
  omega

/-- A character that the table does not have gives -1 in eight bits (R121). -/
theorem resCodeOf_alnumCode_of_notMem {t : List Byte} {c : Byte} (hc : c ∉ t) : resCodeOf (alnumCode t c) = 0xFF := by
  rw [alnumCode_eq, if_neg hc, resCodeOf]

/-- ALNUM completes, and writes RES_CODE and nothing else. -/
theorem exec_alnum (c : Byte) (s : State) :
    exec (.alnum c) s
      = .next { completed s with resCode := resCodeOf (alnumCode s.cfg.alnumTable c) } := rfl

/-- Settles O28: the character's code is what the lookup finds in a table of 33 distinct entries. -/
theorem alnumReturnsTableIndex : Obligations.AlnumReturnsTableIndex := by
  unfold Obligations.AlnumReturnsTableIndex
  intro s c hvalid
  obtain ⟨hlen, hdistinct, -⟩ := Config.valid_iff.1 hvalid
  have hshort : s.cfg.alnumTable.length ≤ 255 := hlen.trans_le (by decide)
  exact ⟨_, exec_alnum c s, fun _ _ => resCodeOf_alnumCode_of_getElem? hdistinct hshort, resCodeOf_alnumCode_of_notMem, rfl⟩

/-- Settles O29: the lookup runs on each of the ten characters. -/
theorem defaultTableCodes : Obligations.DefaultTableCodes := by
  unfold Obligations.DefaultTableCodes
  decide

/-! ## Positions -/

/-- Settles O31: adding 2^31 modulo 2^32 carries into no bit that is kept. -/
theorem posCodeInvertsBit31 : Obligations.PosCodeInvertsBit31 := by
  unfold Obligations.PosCodeInvertsBit31
  intro v j hj
  have hsum : (posCode v).testBit j = (2 ^ 31 + v.toNat).testBit j := by
    rw [posCode, Nat.testBit_mod_two_pow, decide_eq_true hj, Bool.true_and, Nat.add_comm]
    rfl
  rw [hsum, ← BitVec.testBit_toNat]
  obtain rfl | hlow : j = 31 ∨ j < 31 := by omega
  · rw [Nat.testBit_two_pow_add_eq, decide_eq_true rfl, Bool.bne_true]
  · rw [Nat.testBit_two_pow_add_gt hlow, decide_eq_false hlow.ne, Bool.bne_false]

theorem coordinateOk_iff (lim : Int) (v : BitVec 32) :
    coordinateOk lim v = true ↔ v = 0x7FFFFFFF ∨ -lim ≤ v.toInt ∧ v.toInt ≤ lim := by
  simp only [coordinateOk, Bool.or_eq_true, Bool.and_eq_true, decide_eq_true_eq]

/-- The check of a coordinate, in the register's own terms (R124). -/
theorem posOk_iff (lim : Int) (v : BitVec 32) :
    posOk lim v.toInt = true ↔ v = 0x7FFFFFFF ∨ -lim ≤ v.toInt ∧ v.toInt ≤ lim :=
  (posOk_iff_coordinateOk lim v).trans (coordinateOk_iff lim v)

/-- Settles O30: the two checks differ in their limit only. -/
theorem positionsInBoundsOrUnknown : Obligations.PositionsInBoundsOrUnknown := by
  unfold Obligations.PositionsInBoundsOrUnknown
  exact fun v => ⟨posOk_iff latLim v, posOk_iff lonLim v⟩

/-! ## The other validators -/

theorem vtypeOk_iff (n : Nat) (t : BitVec 8) : vtypeOk n t = true ↔ 1 ≤ t.toNat ∧ t.toNat ≤ n := by
  simp only [vtypeOk, Bool.and_eq_true, decide_eq_true_eq]

theorem dirOk_iff (d : BitVec 8) : dirOk d = true ↔ d.toNat ≤ 179 ∨ d.toNat = 255 := by
  simp only [dirOk, Bool.or_eq_true, decide_eq_true_eq]

theorem deltaOk_iff (v : Int) : deltaOk v = true ↔ -512 ≤ v ∧ v ≤ 511 := by
  simp only [deltaOk, Bool.and_eq_true, decide_eq_true_eq]

/-- A delta that passes has its biased value as code, which fits ten bits (R127). -/
theorem deltaCode_of_deltaOk {v : Int} (hv : deltaOk v = true) : (deltaCode v : Int) = v + 512 ∧ deltaCode v < 1024 := by
  obtain ⟨hlow, hhigh⟩ := (deltaOk_iff v).1 hv
  rw [deltaCode]
  omega

/-- Settles O32, validator by validator. -/
theorem validatorsPassExactlyTheirRanges : Obligations.ValidatorsPassExactlyTheirRanges := by
  unfold Obligations.ValidatorsPassExactlyTheirRanges
  exact ⟨versionOk_iff, vtypeOk_iff, dirOk_iff, fun v => deltaOk_iff v.toInt, fun _ => deltaCode_of_deltaOk⟩

end Sys2Proof.Machine

/-! ENCMSD in one state and in another: its first failure, the write mode over a cleared BUF, a second run, and the inputs on
which it depends. -/

namespace Sys2Proof.Machine

open Sys2Proof.Safety

/-! ## The first failure -/

/-- Only a character of the VIN has an index (R202). -/
theorem MsdFail.index_eq_zero {c : Cause} {i : Nat} (h : MsdFail c i) (hc : c ≠ .vin) : i = 0 := by
  rcases h with ⟨hvin, _⟩ | ⟨hzero, _⟩
  · exact absurd hvin hc
  · exact hzero

/-- Settles O36: with a message loaded the first check that does not hold is the failure, and a failure writes a new draw. -/
theorem encmsdFailsAtFirstInvalidField : Obligations.EncmsdFailsAtFirstInvalidField := by
  unfold Obligations.EncmsdFailsAtFirstInvalidField
  intro s m c i hloaded hfail
  have hmsd : MsdFail c i := (Ends_msdMessage s).of_fail (msdMessage_of_invalid hloaded hfail)
  refine ⟨s.raiseFail c i, exec_encmsd_of_invalid hloaded hfail, fun hc => ?_, Nat.succ_ne_self _,
    State.bufByte_raiseFail s c i, rfl⟩
  rw [State.raiseFail_causeIndex, hmsd.index_eq_zero hc]
  rfl

/-! ## Two runs that read the same

What a computation gives in two states whose inputs agree wherever its acts read them in the first: the rules follow those of
`Follows`. -/

/-- `u` holds what `s` does in every input that `acts` read in `s` until one of them ends the command. -/
def AgreeOn (s u : State) (acts : List Act) : Prop :=
  ∀ src, src ∈ readsUntilStop s acts → inputValue s src = inputValue u src

/-- `r`, which `s` gives, and `r'`, which `u` gives, are the same if the states agree where `acts` read. -/
def Alike {α : Type} (s u : State) (acts : List Act) (r r' : Enc α) : Prop :=
  AgreeOn s u acts → r = r'

section

variable {α β : Type} {s u : State} {acts acts' : List Act} {R : α → Prop} {r r' : Enc α}

theorem AgreeOn.left (h : AgreeOn s u (acts ++ acts')) : AgreeOn s u acts := fun src hsrc =>
  h src (by rw [readsUntilStop_append]; exact List.mem_append_left _ hsrc)

/-- What comes after acts that do not stop the command is read too. -/
theorem AgreeOn.right (h : AgreeOn s u (acts ++ acts')) (hstop : firstStop s acts = none) : AgreeOn s u acts' :=
  fun src hsrc => h src (by rw [readsUntilStop_append, if_pos hstop]; exact List.mem_append_right _ hsrc)

theorem Alike.refl (r : Enc α) : Alike s u acts r r := fun _ => rfl

/-- Acts one part after the other: what the second part reads matters only where the first gives a value. -/
theorem Alike.bind {f f' : α → Enc β} (hr : Follows s acts R r) (h : Alike s u acts r r')
    (hf : ∀ a, R a → Alike s u acts' (f a) (f' a)) : Alike s u (acts ++ acts') (r >>= f) (r' >>= f') := by
  intro hagree
  rw [← h hagree.left]
  cases hstop : firstStop s acts with
  | some e =>
    rw [hr.of_stop hstop]
    rfl
  | none =>
    obtain ⟨a, rfl, ha⟩ := hr.of_none hstop
    exact hf a ha (hagree.right hstop)

/-- The same use of a value that is alike. -/
theorem Alike.bind_same (h : Alike s u acts r r') (f : α → Enc β) : Alike s u acts (r >>= f) (r' >>= f) :=
  fun hagree => congrArg (· >>= f) (h hagree)

section

variable {w : Nat} {src : Source} {v v' : Option (BitVec w)}

/-- An input that both states hold alike is read alike. -/
theorem Alike_need (hs : inputValue s src = v.map BitVec.toNat) (hu : inputValue u src = v'.map BitVec.toNat) :
    Alike s u [.read src] (need src v) (need src v') := by
  intro hagree
  have hvalue : v.map BitVec.toNat = v'.map BitVec.toNat := by rw [← hs, ← hu, hagree src List.mem_cons_self]
  rw [Option.map_injective (fun _ _ => BitVec.eq_of_toNat_eq) hvalue]

theorem Alike.need_bind {f f' : BitVec w → Enc β} (hs : inputValue s src = v.map BitVec.toNat)
    (hu : inputValue u src = v'.map BitVec.toNat) (hf : ∀ a, v = some a → Alike s u acts (f a) (f' a)) :
    Alike s u (.read src :: acts) (need src v >>= f) (need src v' >>= f') :=
  Alike.bind (Follows_need hs) (Alike_need hs hu) hf

/-- A step that reads one input, whatever it then does with it. -/
theorem Alike.need_same {f : BitVec w → Enc β} (hs : inputValue s src = v.map BitVec.toNat)
    (hu : inputValue u src = v'.map BitVec.toNat) :
    Alike s u (.read src :: acts) (need src v >>= f) (need src v' >>= f) :=
  Alike.need_bind hs hu (fun _ _ => Alike.refl _)

/-- A presence register, and what follows it if it is 1. -/
theorem Alike_present {present present' : Option (BitVec 1)} {body body' : BitVec 1 → Enc (List Bool)}
    (hs : inputValue s src = present.map BitVec.toNat) (hu : inputValue u src = present'.map BitVec.toNat)
    (hbody : ∀ p, Alike s u acts (body p) (body' p)) :
    Alike s u (.read src :: if present = some 1 then acts else [])
      (do let p ← need src present; if p = 1 then body p else return bitsOfFlag p)
      (do let p ← need src present'; if p = 1 then body' p else return bitsOfFlag p) := by
  refine Alike.need_bind hs hu (fun p hp => ?_)
  subst hp
  by_cases h1 : p = 1
  · rw [if_pos (congrArg some h1), if_pos h1, if_pos h1]
    exact hbody p
  · rw [if_neg h1, if_neg h1]
    exact Alike.refl _

end

/-! ## The steps of ENCMSD -/

theorem Alike_readBytes (a : ArrId) (i n : Nat) :
    Alike s u ((List.range' i n).map (fun k => .read (.byte a k))) (readBytes a s i n) (readBytes a u i n) := by
  induction n generalizing i with
  | zero => exact Alike.refl _
  | succ n ih => exact Alike.need_bind rfl rfl (fun b _ => (ih (i + 1)).bind_same _)

theorem Alike_lenPrefixed (a : ArrId) (n : Nat) :
    Alike s u (readFirst a n) (lenPrefixed a n s) (lenPrefixed a n u) := by
  rw [readFirst, List.range_eq_range']
  exact (Alike_readBytes a 0 n).bind_same _

/-- OID and raw data are read as far as the lengths in `s` say, which `u` shares (R154). -/
theorem Alike_msdOptionalBody : Alike s u (optionalActs s) (msdOptionalBody s) (msdOptionalBody u) := by
  refine Alike.need_bind rfl rfl (fun n hn => ?_)
  simp only [hn, Option.getD_some]
  refine Alike.bind (Follows_lenPrefixed .oid s n.toNat) (Alike_lenPrefixed .oid n.toNat) (fun oid _ => ?_)
  refine Alike.need_bind rfl rfl (fun m hm => ?_)
  simp only [hm, Option.getD_some]
  exact (Alike_lenPrefixed .data m.toNat).bind_same _

theorem Alike_msdOptional :
    Alike s u (.read (.reg .optPresent) :: if s.inp.optPresent = some 1 then optionalActs s else [])
      (msdOptional s) (msdOptional u) :=
  Alike_present rfl rfl (fun _ => Alike_msdOptionalBody.bind_same _)

theorem Alike_msdControl (hvtMax : s.cfg.vtMax = u.cfg.vtMax) :
    Alike s u (readRegs [.ctrlAuto, .ctrlTest, .ctrlTrust, .vtype] ++ [vtypeCheck s]) (msdControl s) (msdControl u) := by
  refine Alike.need_bind rfl rfl (fun a _ => Alike.need_bind rfl rfl (fun t _ => Alike.need_bind rfl rfl (fun p _ =>
    Alike.need_bind rfl rfl (fun v _ => ?_))))
  rw [hvtMax]
  exact Alike.refl _

/-- A character that the table does not have ends the reads of the VIN (R154). -/
theorem Alike_msdVinFrom (htable : s.cfg.alnumTable = u.cfg.alnumTable) (i n : Nat) :
    Alike s u ((List.range' i n).flatMap (vinActs s)) (msdVinFrom s i n) (msdVinFrom u i n) := by
  induction n generalizing i with
  | zero => exact Alike.refl _
  | succ n ih =>
    refine Alike.need_bind rfl rfl (fun ch hch => ?_)
    have hread : Memory.read s.vin i = some ch := hch
    rw [← htable, alnumCode_eq, hread, Option.getD_some]
    by_cases hmem : ch ∈ s.cfg.alnumTable
    · rw [if_pos hmem, decide_eq_true hmem]
      exact (ih (i + 1)).bind_same _
    · rw [if_neg hmem]
      exact Alike.refl _

theorem Alike_msdVin (htable : s.cfg.alnumTable = u.cfg.alnumTable) :
    Alike s u ((List.range 17).flatMap (vinActs s)) (msdVin s) (msdVin u) := by
  rw [List.range_eq_range']
  exact Alike_msdVinFrom htable 0 17

theorem Alike_msdLocation :
    Alike s u
      ([.read (.reg .lat), .check (coordinateOk 324000000 (s.inp.lat.getD 0)) .lat 0]
        ++ [.read (.reg .lon), .check (coordinateOk 648000000 (s.inp.lon.getD 0)) .lon 0])
      (msdLocation s) (msdLocation u) :=
  Alike.bind (Follows_msdPosition s rfl latLim .lat) (Alike.need_same rfl rfl)
    (fun _ _ => (Alike.need_same rfl rfl).bind_same _)

theorem Alike_msdRecent {r ra rb : Reg} {p p' : Option (BitVec 1)} {a a' b b' : Option (BitVec 16)} (ca cb : Cause)
    (hp : inputValue s (.reg r) = p.map BitVec.toNat) (hp' : inputValue u (.reg r) = p'.map BitVec.toNat)
    (ha : inputValue s (.reg ra) = a.map BitVec.toNat) (ha' : inputValue u (.reg ra) = a'.map BitVec.toNat)
    (hb : inputValue s (.reg rb) = b.map BitVec.toNat) (hb' : inputValue u (.reg rb) = b'.map BitVec.toNat) :
    Alike s u (.read (.reg r) :: recentActs p ra rb a b ca cb)
      (msdRecent r p (msdDelta ra a ca) (msdDelta rb b cb)) (msdRecent r p' (msdDelta ra a' ca) (msdDelta rb b' cb)) :=
  Alike_present hp hp' (fun _ => Alike.bind (Follows_msdDelta s ha ca) (acts' := [_, _]) (Alike.need_same ha ha')
    (fun _ _ => (Alike.need_same hb hb').bind_same _))

theorem Alike_msdPassengers :
    Alike s u (.read (.reg .paxPresent) :: if s.inp.paxPresent = some 1 then readRegs [.pax] else [])
      (msdPassengers s) (msdPassengers u) :=
  Alike_present rfl rfl (fun _ => Alike.need_same rfl rfl)

/-! ## ENCMSD -/

/-- Steps in order: a step's reads matter only if no earlier one ends the command. -/
theorem Alike_inOrder_cons {R : List Bool → Prop} {rest : List (List Act)} {e e' : Enc (List Bool)}
    {es es' : List (Enc (List Bool))} (hr : Follows s acts R e) (h : Alike s u acts e e')
    (hs : Alike s u rest.flatten (inOrder es) (inOrder es')) :
    Alike s u (acts :: rest).flatten (inOrder (e :: es)) (inOrder (e' :: es')) :=
  Alike.bind hr h (fun _ _ => hs.bind_same _)

theorem Alike_msdSteps (htable : s.cfg.alnumTable = u.cfg.alnumTable) (hvtMax : s.cfg.vtMax = u.cfg.vtMax) :
    Alike s u (msdStepActs s).flatten (inOrder (msdSteps s)) (inOrder (msdSteps u)) :=
  Alike_inOrder_cons (Follows_msdVersion s) (Alike.need_same rfl rfl) <|
    Alike_inOrder_cons (Follows_msdOptional s) Alike_msdOptional <|
    Alike_inOrder_cons (Follows_msdMsgid s) (Alike.need_same rfl rfl) <|
    Alike_inOrder_cons (Follows_msdControl s) (Alike_msdControl hvtMax) <|
    Alike_inOrder_cons (Follows_msdVin s) (Alike_msdVin htable) <|
    Alike_inOrder_cons (Follows_msdPropulsion s) (Alike.need_same rfl rfl) <|
    Alike_inOrder_cons (Follows_msdTimestamp s) (Alike.need_same rfl rfl) <|
    Alike_inOrder_cons (Follows_msdLocation s) Alike_msdLocation <|
    Alike_inOrder_cons (Follows_msdDirection s) (Alike.need_same rfl rfl) <|
    Alike_inOrder_cons (Follows_msdRecent s .n1Dlat .n1Dlon rfl rfl rfl)
      (Alike_msdRecent .n1Dlat .n1Dlon rfl rfl rfl rfl rfl rfl) <|
    Alike_inOrder_cons (Follows_msdRecent s .n2Dlat .n2Dlon rfl rfl rfl)
      (Alike_msdRecent .n2Dlat .n2Dlon rfl rfl rfl rfl rfl rfl) <|
    Alike_inOrder_cons (Follows_msdPassengers s) Alike_msdPassengers (Alike.refl _)

/-- ENCMSD's message depends on what its acts read, on the VIN table and on the number of vehicle types (R154). -/
theorem Alike_msdMessage (htable : s.cfg.alnumTable = u.cfg.alnumTable) (hvtMax : s.cfg.vtMax = u.cfg.vtMax) :
    Alike s u (msdActs s) (msdMessage s) (msdMessage u) := by
  rw [msdActs_eq]
  exact Alike.bind (Follows_msdSteps s) (Alike_msdSteps htable hvtMax) (fun _ _ => Alike.refl _)

end

theorem exec_encmsd (s : State) : exec .encmsd s = conclude (msdMessage s) s (fun bs => encoded bs s) := rfl

/-- Every bit of BUF that a successful ENCMSD leaves, also at positions that BUF does not have (R53, R54). -/
theorem bufBit_encoded_eq (bs : List Bool) (s : State) (p : Nat) :
    (encoded bs s).bufBit p
      = if p < bs.length ∧ p < 1120 then writtenBit s.cfg.writeMode (s.bufBit p) (bs[p]?.getD false)
        else s.bufBit p := by
  have hemit := State.bufBit_emit s 0 p bs
  simp only [Nat.zero_le, true_and, Nat.zero_add, Nat.sub_zero] at hemit
  exact hemit

/-- The same message put over two BUFs ends alike, bit for bit where the BUFs agreed. -/
theorem sameMsdEnd_conclude {s u : State} (hcfg : s.cfg = u.cfg) (r : Enc (List Bool)) :
    sameMsdEnd s u (conclude r s (fun bs => encoded bs s)) (conclude r u (fun bs => encoded bs u)) := by
  rcases r with (⟨c, i⟩ | f) | bs
  · exact ⟨rfl, rfl, rfl, rfl, rfl, nofun⟩
  · exact rfl
  · refine ⟨rfl, rfl, rfl, rfl, rfl, fun _ p hp => ?_⟩
    rw [bufBit_encoded_eq, bufBit_encoded_eq, hp, hcfg]

/-- Settles O41: the message is the same, and its end depends on BUF and the write mode besides. -/
theorem encmsdDependsOnReadSetOnly : Obligations.EncmsdDependsOnReadSetOnly := by
  unfold Obligations.EncmsdDependsOnReadSetOnly
  intro s u hcfg hagree
  have hmessage : msdMessage s = msdMessage u :=
    Alike_msdMessage (congrArg Config.alnumTable hcfg) (congrArg Config.vtMax hcfg) hagree
  rw [exec_encmsd, exec_encmsd, ← hmessage]
  exact sameMsdEnd_conclude hcfg (msdMessage s)

/-! ## Two runs of one message -/

/-- An ENCMSD that succeeds has put the bits of its message, which fit BUF (R153, R156). -/
theorem exec_encmsd_succeeds {s t : State} (hexec : exec .encmsd s = .next t) (hstatus : t.status = 0) :
    ∃ bs, bs.length ≤ 1120 ∧ msdMessage s = .ok bs ∧ t = encoded bs s := by
  rcases execEncmsd_next hexec with ⟨bs, -, hlen, hmessage, rfl⟩ | ⟨c, i, -, -, rfl⟩
  · exact ⟨bs, hlen, hmessage, rfl⟩
  · cases hstatus

theorem exec_encmsd_of_message {s : State} {bs : List Bool} (h : msdMessage s = .ok bs) :
    exec .encmsd s = .next (encoded bs s) := by
  rw [exec_encmsd, h]
  rfl

/-- RES_BITS is the length of a message that fits BUF. -/
theorem encoded_resBits_toNat {bs : List Bool} (hlen : bs.length ≤ 1120) (s : State) :
    (encoded bs s).resBits.toNat = bs.length := by
  simp only [encoded, State.succeed_resBits, State.setBytes_resBits, State.setBits_resBits, BitVec.toNat_ofNat]
  omega

/-- The state with another write mode (R7, R53). -/
abbrev inMode (mode : WriteMode) (s : State) : State := { s with cfg := { s.cfg with writeMode := mode } }

theorem inputValue_inMode (mode : WriteMode) (s : State) (src : Source) :
    inputValue s src = inputValue (inMode mode s) src := by
  cases src with
  | reg r => cases r <;> rfl
  | byte a i => cases a <;> rfl

/-- The write mode has no part in the message (R151). -/
theorem msdMessage_inMode (mode : WriteMode) (s : State) : msdMessage (inMode mode s) = msdMessage s :=
  (Alike_msdMessage (s := s) (u := inMode mode s) rfl rfl (fun src _ => inputValue_inMode mode s src)).symm

/-- Settles O39: the message is the same, and over a 0 either mode writes the bit itself. -/
theorem clearedBufHidesWriteMode : Obligations.ClearedBufHidesWriteMode := by
  unfold Obligations.ClearedBufHidesWriteMode
  intro s t mode hexec hstatus hclear
  obtain ⟨bs, hlen, hmessage, rfl⟩ := exec_encmsd_succeeds hexec hstatus
  rw [encoded_resBits_toNat hlen] at hclear
  refine ⟨encoded bs (inMode mode s), exec_encmsd_of_message ((msdMessage_inMode mode s).trans hmessage),
    fun p _ => ?_, rfl, rfl, rfl⟩
  have hbuf : (inMode mode s).bufBit p = s.bufBit p := rfl
  rw [bufBit_encoded_eq, bufBit_encoded_eq, hbuf]
  by_cases hp : p < bs.length ∧ p < 1120
  · rw [if_pos hp, if_pos hp, hclear p hp.1, writtenBit_false, writtenBit_false]
  · rw [if_neg hp, if_neg hp]

/-- The message put a second time changes no bit of BUF, in either write mode. -/
theorem bufBit_encoded_encoded (bs : List Bool) (s : State) (p : Nat) :
    (encoded bs (encoded bs s)).bufBit p = (encoded bs s).bufBit p := by
  rw [bufBit_encoded_eq bs (encoded bs s), bufBit_encoded_eq bs s]
  by_cases hp : p < bs.length ∧ p < 1120
  · rw [if_pos hp, if_pos hp]
    exact writtenBit_idem _ _ _
  · rw [if_neg hp, if_neg hp]

/-- Settles O40: a successful ENCMSD leaves its inputs, so the second one puts the same message again. -/
theorem secondEncmsdChangesNothing : Obligations.SecondEncmsdChangesNothing := by
  unfold Obligations.SecondEncmsdChangesNothing
  intro s t hexec hstatus
  obtain ⟨bs, -, hmessage, rfl⟩ := exec_encmsd_succeeds hexec hstatus
  have hagain : msdMessage (encoded bs s) = .ok bs :=
    (msdMessage_congr (s := encoded bs s) (u := s) rfl rfl rfl rfl rfl).trans hmessage
  exact ⟨encoded bs (encoded bs s), exec_encmsd_of_message hagain, bufBit_encoded_encoded bs s, rfl⟩

end Sys2Proof.Machine

/-! ENCERA with a sub-message that is loaded: its bits are those of R80, and DATA[0] to DATA[4] hold them and 0 after them. -/

namespace Sys2Proof.Machine

open Sys2Proof.Safety

/-! ## The sub-message -/

/-- The three registers of a group hold it, or the first one says that it is absent. -/
def groupLoaded {n : Nat} (present : Option (BitVec 1)) (pres val : Option (BitVec n)) :
    Option (BitVec n × BitVec n) → Prop
  | none => present = some 0
  | some (p, v) => present = some 1 ∧ pres = some p ∧ val = some v

theorem eraLoaded_iff (m : Era) (s : State) :
    m.loaded s ↔ s.inp.eraSevere = some m.severe
      ∧ groupLoaded s.inp.eraDiagPresent s.inp.eraDiagPres s.inp.eraDiagVal m.diag
      ∧ groupLoaded s.inp.eraCrashPresent s.inp.eraCrashPres s.inp.eraCrashVal m.crash := by
  obtain ⟨_, diag, crash⟩ := m
  cases diag <;> cases crash <;> rfl

theorem streamOf_groupFields_some {n : Nat} (p v : BitVec n) : streamOf (groupFields (some (p, v))) = eraGroup p v := by
  have hflag (b : Bool) : fieldBits (1, b.toNat) = [b] := by cases b <;> rfl
  simp only [streamOf, groupFields, List.flatMap_map, hflag, eraGroup]
  exact List.map_eq_flatMap.symm

section

variable {n : Nat} {present : Option (BitVec 1)} {pres val : Option (BitVec n)} {o : Option (BitVec n × BitVec n)}

theorem groupLoaded.present_eq (h : groupLoaded present pres val o) : present = some (BitVec.ofBool o.isSome) := by
  cases o with
  | none => exact h
  | some g => exact h.1

/-- A group that is loaded gives its fields of R80, none if it is absent. -/
theorem eraOptional_of_loaded (h : groupLoaded present pres val o) (rp rv : Reg) :
    eraOptional (BitVec.ofBool o.isSome) (need (.reg rp) pres) (need (.reg rv) val)
      = .ok (streamOf (groupFields o)) := by
  rcases o with _ | ⟨p, v⟩
  · rfl
  · obtain ⟨-, rfl, rfl⟩ := h
    rw [streamOf_groupFields_some]
    rfl

end

/-- The bits of R80, a presence bit and the severity as in R181. -/
theorem eraBits_eq (m : Era) :
    m.bits = bitsOf 8 eraId ++ bitsOf 1 (BitVec.ofBool m.diag.isSome).toNat
      ++ bitsOf 1 (BitVec.ofBool m.crash.isSome).toNat ++ bitsOf 1 m.severe.toNat
      ++ streamOf (groupFields m.diag) ++ streamOf (groupFields m.crash) := by
  simp only [Era.bits, Era.fields, streamOf_append, streamOf_field, streamOf_nil, BitVec.toNat_ofBool, List.append_nil,
    List.append_assoc]

theorem eraMessage_of_loaded {s : State} {m : Era} (h : m.loaded s) : eraMessage s = .ok m.bits := by
  obtain ⟨hsevere, hdiag, hcrash⟩ := (eraLoaded_iff m s).1 h
  rw [eraMessage, hdiag.present_eq, need_some, ok_bind, hcrash.present_eq, need_some, ok_bind, hsevere, need_some,
    ok_bind, eraOptional_of_loaded hdiag, ok_bind, eraOptional_of_loaded hcrash, ok_bind, eraBits_eq]
  rfl

/-! ## DATA after it -/

/-- The bits of the bytes stored are the stream's, and 0 past its end (R9, R183). -/
theorem arrBit_storeStream (bs : List Bool) (n : Nat) (m : Memory) {p : Nat} (hp : p < 8 * n) :
    arrBit (storeStream bs n m) p = some ((bs[p]?).getD false) := by
  have hbyte : p / 8 < n := by omega
  have hbit : p % 8 < 8 := Nat.mod_lt _ (by decide)
  rw [arrBit, read_storeStream, if_pos hbyte, Option.map_some, streamByte_getLsbD bs _ _ hbit, Nat.div_add_mod]

theorem exec_encera_of_loaded {s : State} {m : Era} (h : m.loaded s) :
    exec .encera s
      = .next ((s.setArr .data (storeStream m.bits eraDataBytes s.data)).setBits m.bits.length).succeed := by
  rw [exec, execEncera, eraMessage_of_loaded h]
  rfl

/-- Settles O42: the sub-message's bits are those of R80, and ENCERA stores five bytes of their stream. -/
theorem enceraWritesSubMessage : Obligations.EnceraWritesSubMessage := by
  unfold Obligations.EnceraWritesSubMessage
  intro s m hloaded
  refine ⟨_, exec_encera_of_loaded hloaded, fun p hp => ?_, fun j hj => ?_, rfl⟩
  · exact arrBit_storeStream m.bits eraDataBytes s.data hp
  · exact (read_storeStream m.bits eraDataBytes s.data j).trans (if_neg (Nat.not_lt.2 hj))

end Sys2Proof.Machine

/-! The mappers: what they gather from a written MASK, and their next states. -/

namespace Sys2Proof.Machine

open Sys2Proof.Safety

/-! ## The gathered bits -/

/-- Bit k gathered is the mask bit that entry k names (R191, R193). -/
theorem ofNat_gather_getLsbD {w n : Nat} (m : BitVec w) {ps : List Nat} (hlen : ps.length = n) {k : Nat} (hk : k < n) :
    (BitVec.ofNat n (gather m ps)).getLsbD k = m.getLsbD (ps[k]?.getD 0) := by
  rw [BitVec.getLsbD_ofNat, decide_eq_true hk, Bool.true_and, gather_testBit, List.getElem?_eq_getElem (hlen ▸ hk)]
  rfl

/-- Positions below `n` name the same bits in a mask and in its low `n` bits. -/
theorem gather_extractLsb' {w n : Nat} (m : BitVec w) {ps : List Nat} (hlow : ∀ p ∈ ps, p < n) :
    gather (m.extractLsb' 0 n) ps = gather m ps := by
  induction ps with
  | nil => rfl
  | cons p ps ih =>
    obtain ⟨hp, hps⟩ := List.forall_mem_cons.1 hlow
    rw [gather, gather, ih hps, BitVec.getLsbD_extractLsb', decide_eq_true hp, Bool.true_and, Nat.zero_add]

/-! ## The commands -/

/-- MAPDIAG with MASK written (R191, R192). -/
theorem exec_mapdiag_of_mask {s : State} {m : BitVec 64} (h : s.inp.mask = some m) :
    exec .mapdiag s = .next ((completed s).setDiag (BitVec.ofNat 21 (gather m s.cfg.diagPresBit))
      (BitVec.ofNat 21 (gather m s.cfg.diagValBit))) := by
  rw [exec, execMapdiag, h]
  rfl

/-- MAPCRASH with MASK written: it gathers from MASK[15:0] (R192, R193). -/
theorem exec_mapcrash_of_mask {s : State} {m : BitVec 64} (h : s.inp.mask = some m) :
    exec .mapcrash s
      = .next ((completed s).setCrash (BitVec.ofNat 6 (gather (m.extractLsb' 0 16) s.cfg.crashPresBit))
          (BitVec.ofNat 6 (gather (m.extractLsb' 0 16) s.cfg.crashValBit))) := by
  rw [exec, execMapcrash, h]
  rfl

/-- Settles O45: each table has an entry for every one of the 21 flags. -/
theorem mapdiagSpreadsMask : Obligations.MapdiagSpreadsMask := by
  unfold Obligations.MapdiagSpreadsMask
  intro s m hvalid hmask
  obtain ⟨-, -, -, -, hdiag, -⟩ := Config.valid_iff.1 hvalid
  obtain ⟨hpres, hval, -⟩ := Config.maskTableOk_iff.1 hdiag
  exact ⟨_, _, _, exec_mapdiag_of_mask hmask, fun _ => ofNat_gather_getLsbD m hpres,
    fun _ => ofNat_gather_getLsbD m hval, rfl⟩

/-- Settles O46: the tables' positions are below 16, where MASK[15:0] has MASK's own bits. -/
theorem mapcrashSpreadsMask : Obligations.MapcrashSpreadsMask := by
  unfold Obligations.MapcrashSpreadsMask
  intro s m hvalid hmask
  obtain ⟨-, -, -, -, -, hcrash⟩ := Config.valid_iff.1 hvalid
  obtain ⟨hpres, hval, hlow, -⟩ := Config.maskTableOk_iff.1 hcrash
  obtain ⟨hlowPres, hlowVal⟩ := List.forall_mem_append.1 hlow
  have hexec := exec_mapcrash_of_mask hmask
  rw [gather_extractLsb' m hlowPres, gather_extractLsb' m hlowVal] at hexec
  exact ⟨_, _, _, hexec, fun _ => ofNat_gather_getLsbD m hpres, fun _ => ofNat_gather_getLsbD m hval, rfl⟩

/-- Settles O47: what MAPCRASH gathers is a function of MASK[15:0] and of the tables. -/
theorem mapcrashIgnoresHighMask : Obligations.MapcrashIgnoresHighMask := by
  unfold Obligations.MapcrashIgnoresHighMask
  intro s m n hlow
  refine ⟨_, exec_mapcrash_of_mask rfl, ?_⟩
  rw [exec_mapcrash_of_mask rfl, hlow]
  rfl

end Sys2Proof.Machine

/-! The outcome of a command: which STATUS and CAUSE it can leave, and the version that ENCMSD reads and checks before all
else. -/

namespace Sys2Proof.Machine

open Sys2Proof.Safety

/-! ## The outcome of a command -/

/-- No failure of ENCMSD has the reserved cause (R128). -/
theorem MsdFail.ne_propulsion {c : Cause} {i : Nat} (h : MsdFail c i) : c ≠ .propulsion := by
  rintro rfl
  simp [MsdFail] at h

theorem Cause.code_eq_propulsion_iff (c : Cause) : c.code = 0x04 ↔ c = .propulsion := by
  cases c <;> decide

/-- A command completes, ends with an argument error (R205), or is an ENCMSD that fails (R203). -/
theorem exec_outcome {i : Instr} {s t : State} (h : exec i s = .next t) :
    (t.status = 0x00 ∧ t.cause = Cause.none.code)
    ∨ (t.status = 0x03 ∧ ∃ c : Cause, (c = .badLen ∨ c = .offsetOverflow) ∧ t.cause = c.code)
    ∨ (i = .encmsd ∧ t.status = 0x01 ∧ ∃ c k, MsdFail c k ∧ t.cause = c.code) := by
  rcases exec_next h with ⟨len, off, _, ⟨c, hc, rfl⟩ | ⟨bs, _, rfl⟩⟩ | ⟨c, _, rfl⟩
    | ⟨hmsd, ⟨bs, _, _, rfl⟩ | ⟨c, k, hfail, rfl⟩⟩ | ⟨_, bs, _, rfl⟩ | ⟨_, p, v, rfl⟩ | ⟨_, p, v, rfl⟩
  case inl.inl => exact .inr (.inl ⟨rfl, c, hc, rfl⟩)
  case inr.inr.inl.inr => exact .inr (.inr ⟨hmsd, rfl, c, k, hfail, rfl⟩)
  all_goals exact .inl ⟨rfl, rfl⟩

/-- Settles O53: of the outcomes a command can leave only ENCMSD's failure has STATUS = FAIL, and none has the cause
PROPULSION. -/
theorem onlyEncmsdRaisesFail : Obligations.OnlyEncmsdRaisesFail := by
  unfold Obligations.OnlyEncmsdRaisesFail
  intro i s t h
  rcases exec_outcome h with ⟨hstatus, hcause⟩ | ⟨hstatus, c, hc, hcause⟩ | ⟨hmsd, -, c, k, hfail, hcause⟩
    <;> rw [hcause, Ne, Cause.code_eq_propulsion_iff]
  case inl => exact ⟨fun h1 => absurd (hstatus.symm.trans h1) (by decide), by decide⟩
  case inr.inl =>
    refine ⟨fun h1 => absurd (hstatus.symm.trans h1) (by decide), ?_⟩
    rcases hc with rfl | rfl <;> decide
  case inr.inr => exact ⟨fun _ => hmsd, hfail.ne_propulsion⟩

/-! ## No operation pending -/

/-- Settles O9: of the two things that a step can be, the other one has an operation pending. -/
theorem idleStepHoldsState : Obligations.IdleStepHoldsState := by
  unfold Obligations.IdleStepHoldsState
  intro s hidle
  rcases step_cases s with ⟨-, hstep⟩ | ⟨e, rest, hpending, -⟩
  · exact hstep
  · rw [hidle] at hpending
    cases hpending

/-! ## The version of the message -/

/-- Where the version stops the message no later step runs. -/
theorem msdMessage_of_version_stop {s : State} {e : Stop} (h : msdVersion s = .error e) : msdMessage s = .error e := by
  rw [msdMessage, msdSteps, inOrder, h]
  rfl

theorem msdVersion_of_unwritten {s : State} (h : s.inp.version = none) :
    msdVersion s = .error (.fault (.unwrittenInput (.reg .version))) := by
  rw [msdVersion, h]
  rfl

theorem msdVersion_of_ne {s : State} {v : BitVec 8} (h : s.inp.version = some v) (hv : v ≠ 1) :
    msdVersion s = .error (.fail .version 0) := by
  rw [msdVersion_checked h, decide_eq_false hv]
  exact checked_fail

/-- Settles O37: the version is the first step of the message, and what stops it stops the message. -/
theorem encmsdChecksVersionFirst : Obligations.EncmsdChecksVersionFirst := by
  unfold Obligations.EncmsdChecksVersionFirst
  intro s
  constructor
  · intro hnone
    rw [exec_encmsd, msdMessage_of_version_stop (msdVersion_of_unwritten hnone)]
    rfl
  · intro v hsome hv
    rw [exec_encmsd, msdMessage_of_version_stop (msdVersion_of_ne hsome hv)]
    exact ⟨s.raiseFail .version 0, rfl, rfl⟩

end Sys2Proof.Machine

/-! The state after reset, register by register and byte by byte, the platform's reset as a step, and the parameters over every
step (R230, R232). -/

namespace Sys2Proof.Machine

open Sys2Proof.Safety

/-! ## The parameters over a step -/

/-- No update that a command makes touches the parameters. -/
theorem exec_keeps_cfg {i : Instr} {s t : State} (h : exec i s = .next t) : t.cfg = s.cfg := by
  rcases exec_next h with ⟨len, off, _, ⟨c, _, rfl⟩ | ⟨bs, _, rfl⟩⟩ | ⟨c, _, rfl⟩
    | ⟨_, ⟨bs, _, _, rfl⟩ | ⟨c, k, _, rfl⟩⟩ | ⟨_, bs, _, rfl⟩ | ⟨_, p, v, rfl⟩ | ⟨_, p, v, rfl⟩
  all_goals rfl

@[simp] theorem arrWrite_cfg (id i v : Nat) (s : State) : (arrWrite id i v s).cfg = s.cfg := by
  unfold arrWrite
  cases arrTarget id i with
  | none => rfl
  | some a => exact State.setArr_cfg s a _

@[simp] theorem platformReset_cfg (s : State) : (platformReset s).cfg = s.cfg := rfl

/-- Settles O57: each single thing that a step can do keeps the parameters, a command by what its next state can be. -/
theorem stepKeepsParameters : Obligations.StepKeepsParameters := by
  unfold Obligations.StepKeepsParameters
  intro s t hstep
  refine step_rel (P := fun s t => t.cfg = s.cfg) ?_ ?_ ?_ ?_ ?_ ?_ ?_ ?_ hstep
  case refine_1 => exact fun s => rfl
  case refine_2 => exact fun s t rest hrest => hrest
  case refine_3 => exact fun i s t hexec => exec_keeps_cfg hexec
  case refine_4 => exact fun c s _ => State.raiseCmdError_cfg s c
  case refine_5 => exact fun s r v => rfl
  case refine_6 => exact fun s a b => rfl
  case refine_7 => exact fun s id i v => arrWrite_cfg id i v s
  case refine_8 => exact fun s => platformReset_cfg s

/-! ## The state after reset -/

/-- With every input unwritten, a register from RN 0x08 on holds no value. -/
theorem Reg.contents_of_inp_unwritten {s : State} (h : s.inp = Inputs.unwritten) {r : Reg} (hr : 8 ≤ Reg.number r) :
    Reg.contents s r = none := by
  cases r with
  | cmd | status | cause | causeIndex | resOffset | resBits | resBytes | resCode => simp [Reg.number] at hr
  | _ => simp only [Reg.contents, h, Inputs.unwritten, Option.map_none]

/-- After reset no array lists a byte. -/
@[simp] theorem State.reset_arr (a : ArrId) : State.reset.arr a = [] := by
  cases a <;> rfl

/-- Where BUF lists no byte, each of its bytes is that of the current draw. -/
theorem bufByte_of_buf_nil {s : State} (h : s.buf = []) (i : Nat) : s.bufByte i = Config.bufDraw s.bufEpoch i := by
  rw [State.bufByte, h, bufByteOf, Memory.read_nil, Option.getD_none]

/-- Settles O18: no input register and no array holds a value, and BUF's bytes are those of the first draw. -/
theorem resetValues : Obligations.ResetValues := by
  unfold Obligations.ResetValues
  refine ⟨rfl, rfl, rfl, rfl, rfl, rfl, rfl, rfl, fun r hr => ?_, fun a i _ => ?_, State.reset.bufEpoch, fun i => ?_⟩
  · exact Reg.contents_of_inp_unwritten rfl hr
  · rw [State.reset_arr, Memory.read_nil]
  · exact bufByte_of_buf_nil rfl i

/-- Settles O19: the step performs the platform's reset. -/
theorem platformResetGivesResetState : Obligations.PlatformResetGivesResetState := by
  unfold Obligations.PlatformResetGivesResetState
  intro s
  rw [step_before, perform, platformReset]

/-- Settles O58: the platform's parameters meet their conditions, no array lists a byte, and the codes are 0. -/
theorem resetMeetsInvariant : Obligations.ResetMeetsInvariant := by
  unfold Obligations.ResetMeetsInvariant
  have hmem : memWf State.reset = true := memWf_iff.2 fun a => by rw [State.reset_arr, Memory.wf_nil]
  have hout : outcomeLegal State.reset.status State.reset.cause State.reset.causeIndex = true := by decide
  have hres : resultsLegal State.reset = true := resultsLegal_iff.2 ⟨by decide, by decide, .inl (by decide)⟩
  exact ⟨Config.platform_valid, hmem, hout, hres⟩

end Sys2Proof.Machine
